-- ==== Sys2Proof/Word.lean ====
section
/-! DEFINITION. The word types of the RS-GF256 codec core and their plainest arithmetic (00_scope.md R8, R9). -/
namespace Sys2Proof

/-- A byte: one DMEM cell, one field element (R9), one command operand field (R71). -/
abbrev Byte := BitVec 8

/-- A 32-bit CSR word or command word (R22, R70). -/
abbrev Word := BitVec 32

/-- `zext_32` of rule R8. -/
def zext32 {n : Nat} (v : BitVec n) : Word := v.setWidth 32

end Sys2Proof
end

