-- ==== Sys2Proof/Config.lean ====
section
/-! DEFINITION. What an implementation fixes (00_scope.md R6) and the values the spec leaves free. -/
namespace Sys2Proof

/-- The build parameters that `PARAM` reports (R6, R24). They are chosen when the core is built and no step changes them. -/
structure Build where
  /-- `GF_POLY`: the 9-bit reduction polynomial, bit 8 set (R90). -/
  gfPoly : BitVec 9
  /-- `ADDR_W`: the data-memory address width in bits. -/
  addrW : BitVec 6
deriving DecidableEq, Repr

namespace Config

/-- The 16 primitive polynomials of degree 8, the legal values of `GF_POLY` (R91). -/
def legalPolys : List (BitVec 9) :=
  [0x11D, 0x12B, 0x12D, 0x14D, 0x15F, 0x163, 0x165, 0x169, 0x171, 0x187, 0x18D, 0x1A9, 0x1C3, 0x1CF, 0x1E7, 0x1F5]

/-- The default build: `GF_POLY = 0x11D`, `ADDR_W = 20` (R6). -/
def defaultBuild : Build := { gfPoly := 0x11D, addrW := 20 }

/-- `MAXN`: the largest matrix dimension of MAT.MUL and MAT.INV (R6). -/
def maxN : Nat := 256

/-- `NSHARD_MAX`: the largest `k + m` (R6, R7). -/
def nshardMax : Nat := 256

/-- The `ID` register's constant, ASCII "RSC1" (R23). -/
def idWord : Word := 0x52534331

/-- PARAMETER (assumption 17): `CSR_BASE`, the host bus address of CSR offset 0x000 (R6; 93, S14: a parameter). -/
opaque csrBase : Nat

/-- PARAMETER (assumption 17): `DMEM_BASE`, the host bus address of DMEM byte 0 (R6; 93, S14: a parameter). -/
opaque dmemBase : Nat

/-- The size of the CSR window in bytes (R22). -/
def csrBytes : Nat := 4096

/-- FREE VALUE (assumption 1): what a host read sees in a DMEM byte that nothing has written (93, S3: any value).
Applied to `State.freeCtr`, which every such read advances. -/
opaque unwrittenByte : Nat → Byte

/-- FREE VALUE (assumption 2): what the look-up tables hold before INIT fills them (R38, R42; 93, S1: any value). -/
opaque unspecifiedLut : Nat → Byte

/-- FREE VALUE (assumption 3): what an entry of the GEN RAM outside the context's matrix holds (R39, R136; 93, S2:
any value). Applied to `State.freeCtr` and the entry's row and column. -/
opaque unspecifiedGen : Nat → Nat → Nat → Byte

end Config

/-- `MEM_BYTES = 2^ADDR_W` (R6, R50). -/
def Build.memBytes (b : Build) : Nat := 2 ^ b.addrW.toNat

end Sys2Proof
end

