-- ==== Sys2Proof/Syntax.lean ====
section
/-! DEFINITION. The commands of the core, one constructor per row of spec/opcode_table.json (30_encoding.md R73). -/
namespace Sys2Proof

/-- A command. The core has no registers to name (R43): operands are the two unsigned byte fields FA and FB (R71,
R72), and everything else comes from the operand CSRs (R76). -/
inductive Instr where
  /-- INIT (R99) -/
  | init
  /-- GF.ADD a, b (R94) -/
  | gfAdd (a b : Byte)
  /-- GF.MUL a, b (R95) -/
  | gfMul (a b : Byte)
  /-- GF.DIV a, b (R96) -/
  | gfDiv (a b : Byte)
  /-- GF.INV a (R97) -/
  | gfInv (a : Byte)
  /-- GF.EXP e (R102) -/
  | gfExp (e : Byte)
  /-- GF.LOG a (R103) -/
  | gfLog (a : Byte)
  /-- MAT.MUL (R112) -/
  | matMul
  /-- MAT.INV (R115) -/
  | matInv
  /-- CTX.CREATE k, m (R134) -/
  | ctxCreate (k m : Byte)
  /-- CTX.RELEASE (R136) -/
  | ctxRelease
  /-- CTX.GENSTORE (R137) -/
  | ctxGenstore
  /-- RS.ENCODE nd, np (R152) -/
  | rsEncode (nd np : Byte)
  /-- RS.RECONSTRUCT nd, np (R156) -/
  | rsReconstruct (nd np : Byte)
deriving DecidableEq, Repr

/-- A command as the assembler reads it (R77): a mnemonic and its list of integer literals. -/
structure AsmCommand where
  mnemonic : String
  operands : List Nat
deriving DecidableEq, Repr

end Sys2Proof
end

