-- ==== Sys2Proof/WellFormed.lean ====
section
/-! DEFINITION. What is well formed before anything runs: a command in assembler syntax (R77) and the build
parameters (R6, R91). An `Instr` needs no check: its operands are bytes, and the spec's fields hold exactly the
bytes 0..255 (R72). -/
namespace Sys2Proof

/-- How many operands each mnemonic takes (R73, R77); `none` for a name the table does not list. -/
def operandCount (mnemonic : String) : Option Nat :=
  (([("INIT", 0), ("GF.ADD", 2), ("GF.MUL", 2), ("GF.DIV", 2), ("GF.INV", 1), ("GF.EXP", 1), ("GF.LOG", 1)] : List (String × Nat))
    ++ [("MAT.MUL", 0), ("MAT.INV", 0), ("CTX.CREATE", 2), ("CTX.RELEASE", 0), ("CTX.GENSTORE", 0),
        ("RS.ENCODE", 2), ("RS.RECONSTRUCT", 2)]).lookup mnemonic

/-- "An assembler refuses an operand outside 0..255, a missing operand, or an extra one" (R77). -/
def AsmCommand.wellFormed (c : AsmCommand) : Bool :=
  operandCount c.mnemonic == some c.operands.length && c.operands.all (· < 256)

/-- A legal build: one of the 16 primitive polynomials (R91) and an address width of 12..32 (R6). -/
def Build.wellFormed (b : Build) : Bool :=
  Config.legalPolys.contains b.gfPoly && decide (12 ≤ b.addrW.toNat) && decide (b.addrW.toNat ≤ 32)

end Sys2Proof
end

