-- ==== Sys2Proof/Decode.lean ====
section
/-! DEFINITION. The decoder (30_encoding.md R70-R75), total on every 32-bit word and rejecting by name; after it the
encoder and the assembler (R71, R73, R77), written from the same tables. -/
namespace Sys2Proof

/-- Why a command word is illegal: the three cases of R74. -/
inductive IllegalWord where
  /-- (a) an OPCODE that R73 does not list -/
  | opcodeUndefined
  /-- (b) RSV is not zero -/
  | rsvNonzero
  /-- (c) a field R73 marks 0 is not zero -/
  | mustBeZero
deriving DecidableEq, Repr

/-- `OPCODE = w[7:0]` (R71). -/
def fieldOpcode (w : Word) : Byte := w.extractLsb' 0 8
/-- `FA = w[15:8]` (R71). -/
def fieldA (w : Word) : Byte := w.extractLsb' 8 8
/-- `FB = w[23:16]` (R71). -/
def fieldB (w : Word) : Byte := w.extractLsb' 16 8
/-- `RSV = w[31:24]` (R71). -/
def fieldRsv (w : Word) : Byte := w.extractLsb' 24 8

/-- The command that the opcode `op` selects, with its operand fields (R73). -/
def instrOf (op a b : Byte) : Option Instr :=
  if op = 0x01 then some .init
  else if op = 0x02 then some (.gfAdd a b)
  else if op = 0x03 then some (.gfMul a b)
  else if op = 0x04 then some (.gfDiv a b)
  else if op = 0x05 then some (.gfInv a)
  else if op = 0x06 then some (.gfExp a)
  else if op = 0x07 then some (.gfLog a)
  else if op = 0x10 then some .matMul
  else if op = 0x11 then some .matInv
  else if op = 0x20 then some (.ctxCreate a b)
  else if op = 0x21 then some .ctxRelease
  else if op = 0x22 then some .ctxGenstore
  else if op = 0x30 then some (.rsEncode a b)
  else if op = 0x31 then some (.rsReconstruct a b)
  else none

/-- The opcodes whose FA and FB must both be zero (R73, R75). -/
def noOperandOpcode (op : Byte) : Bool := [0x01, 0x10, 0x11, 0x21, 0x22].contains op

/-- The opcodes whose FB must be zero (R73, R75). -/
def oneOperandOpcode (op : Byte) : Bool := [0x05, 0x06, 0x07].contains op

/-- `decode(w)` of R75, in its order of checks: opcode, RSV, must-be-zero fields. -/
def decode (w : Word) : Except IllegalWord Instr :=
  match instrOf (fieldOpcode w) (fieldA w) (fieldB w) with
  | none => .error .opcodeUndefined
  | some i =>
    if fieldRsv w ≠ 0 then .error .rsvNonzero
    else if noOperandOpcode (fieldOpcode w) ∧ (fieldA w ≠ 0 ∨ fieldB w ≠ 0) then .error .mustBeZero
    else if oneOperandOpcode (fieldOpcode w) ∧ fieldB w ≠ 0 then .error .mustBeZero
    else .ok i

/-- The host's view of the decoder: the table numbers a command's bits as R8 does (bit 0 the least significant of
the one word, R70), so the word is `w` itself; bits from `nbits` up are zero, and nothing is longer than 32 bits. -/
def decodeTableWord (nbits w : Nat) : Option Instr :=
  if nbits ≤ 32 then
    match decode (BitVec.ofNat 32 (w % 2 ^ nbits)) with
    | .ok i => some i
    | .error _ => none
  else none

/-- `{RSV, FB, FA, OPCODE}` with RSV = 0: the bit picture of R71. -/
def packWord (b a op : Byte) : Word := (0 : Byte) ++ b ++ a ++ op

/-- `enc(cmd)` (R71, R73, R78): the word of a command. -/
def encode : Instr → Word
  | .init => packWord 0 0 0x01
  | .gfAdd a b => packWord b a 0x02
  | .gfMul a b => packWord b a 0x03
  | .gfDiv a b => packWord b a 0x04
  | .gfInv a => packWord 0 a 0x05
  | .gfExp e => packWord 0 e 0x06
  | .gfLog a => packWord 0 a 0x07
  | .matMul => packWord 0 0 0x10
  | .matInv => packWord 0 0 0x11
  | .ctxCreate k m => packWord m k 0x20
  | .ctxRelease => packWord 0 0 0x21
  | .ctxGenstore => packWord 0 0 0x22
  | .rsEncode nd np => packWord np nd 0x30
  | .rsReconstruct nd np => packWord np nd 0x31

/-- The command a mnemonic and its operand bytes name (R77); operands stand in FA, FB order. -/
def instrNamed (mnemonic : String) (ops : List Byte) : Option Instr :=
  match ops with
  | [] =>
    if mnemonic = "INIT" then some .init
    else if mnemonic = "MAT.MUL" then some .matMul
    else if mnemonic = "MAT.INV" then some .matInv
    else if mnemonic = "CTX.RELEASE" then some .ctxRelease
    else if mnemonic = "CTX.GENSTORE" then some .ctxGenstore
    else none
  | [a] =>
    if mnemonic = "GF.INV" then some (.gfInv a)
    else if mnemonic = "GF.EXP" then some (.gfExp a)
    else if mnemonic = "GF.LOG" then some (.gfLog a)
    else none
  | [a, b] =>
    if mnemonic = "GF.ADD" then some (.gfAdd a b)
    else if mnemonic = "GF.MUL" then some (.gfMul a b)
    else if mnemonic = "GF.DIV" then some (.gfDiv a b)
    else if mnemonic = "CTX.CREATE" then some (.ctxCreate a b)
    else if mnemonic = "RS.ENCODE" then some (.rsEncode a b)
    else if mnemonic = "RS.RECONSTRUCT" then some (.rsReconstruct a b)
    else none
  | _ => none

/-- The assembler of R77: refuses what is not well formed. -/
def assemble (c : AsmCommand) : Option Word :=
  if c.wellFormed then (instrNamed c.mnemonic (c.operands.map (BitVec.ofNat 8))).map encode else none

end Sys2Proof
end

