-- ==== Sys2Proof/Machine/State.lean ====
section
/-! DEFINITION. The state of the RS-GF256 codec core (10_state.md R20), the ways a step can stop, and the state right
after reset (R42). -/
namespace Sys2Proof
namespace Machine

/-- The values of `STATUS.ERR_CODE` (R170); codes 12-15 are reserved and never reported. -/
inductive ErrCode where
  | noError
  | illegalCommand
  | notInitialized
  | invalidParameters
  | dimensionMismatch
  | reconstructionImpossible
  | divisionByZero
  | singularMatrix
  | noContext
  | contextInUse
  | addressError
  | domainError
deriving DecidableEq, Repr

/-- The values of `STATUS.ERR_CAUSE` (R171); every other value is reserved and never reported. -/
inductive ErrCause where
  | noCause
  | tooManyErasures
  | singularMatrix
deriving DecidableEq, Repr

/-- The fields of `STATUS` (R26). The word the host reads is `Status.word`; its reserved bits are zero. -/
structure Status where
  busy     : Bool
  done     : Bool
  err      : Bool
  overrun  : Bool
  initDone : Bool
  ctxValid : Bool
  errCode  : ErrCode
  errCause : ErrCause
deriving DecidableEq, Repr

/-- `CTX`: the context's shard counts (R31). -/
structure Ctx where
  k : Byte
  m : Byte
deriving DecidableEq, Repr

/-- `DIMA` and `DIMB`: a matrix shape, two 9-bit fields (R34). -/
structure Dim where
  rows : BitVec 9
  cols : BitVec 9
deriving DecidableEq, Repr

/-- The look-up tables (R38): `exp` holds `LUT_EXP[0..]` and `log` holds `LUT_LOG[1..]` (entry `a` at index `a - 1`).
An entry not listed is one INIT has not filled; its value is free (assumption 2). -/
structure Tables where
  exp : List Byte
  log : List Byte
deriving DecidableEq, Repr

/-- DMEM (R50): the written bytes by address, addresses strictly rising. An address that is not listed is unwritten. -/
abbrev Memory := List Host.Cell

/-- An access of the host port: the CSR window (R22) and DMEM (R52). `n` is the access width in bytes. -/
inductive HostAccess where
  | csrRead (off : BitVec 12) (n : Nat)
  | csrWrite (off : BitVec 12) (n : Nat) (v : Word)
  | memRead (a n : Nat)
  | memWrite (a n : Nat) (v : Word)
deriving DecidableEq, Repr

/-- A host access by its bus address `addr`, before the platform's address map has told which window it selects (R6,
R51). -/
inductive BusAccess where
  | read (addr n : Nat)
  | write (addr n : Nat) (v : Word)
deriving DecidableEq, Repr

/-- What moves next (R11): a host access, given by window or by bus address, the running command's complete step, a CMD write that arrives in the same
cycle as a completion (R179), or the reset input changing (R190). -/
inductive Event where
  | host (h : HostAccess)
  | bus (x : BusAccess)
  | complete
  | cmdWriteAtCompletion (w : Word)
  | assertReset
  | releaseReset
deriving DecidableEq, Repr

/-- The host port's answer to the last access (R53): none, an accepted write, read data, or a bus error. -/
inductive BusResponse where
  | noResponse
  | written
  | data (v : Word)
  | busError
deriving DecidableEq, Repr

/-- The machine (R20), the reset input's level (R190), and the model's own fields: the schedule of the host's and the
core's steps, the last bus response, and the counter of free values (assumptions 1, 3, 5). The core's hidden working
state (R41) is left out, as that rule allows; `irq` is computed from CTRL and STATUS (R44). -/
structure State where
  /-- the build parameters, which `PARAM` reports (R24); no step writes them -/
  build     : Build
  /-- `CTRL.IRQ_EN` (R25) -/
  irqEn     : Bool
  /-- `STATUS` (R26) -/
  status    : Status
  /-- `RESULT.VALUE` (R29) -/
  result    : Byte
  /-- `CTX` (R31) -/
  ctx       : Ctx
  /-- `BLOCK_SIZE` (R32) -/
  blockSize : Word
  /-- `MA_BASE` (R33) -/
  maBase    : Word
  /-- `MB_BASE` (R33) -/
  mbBase    : Word
  /-- `MC_BASE` (R33) -/
  mcBase    : Word
  /-- `DIMA` (R34) -/
  dimA      : Dim
  /-- `DIMB` (R34) -/
  dimB      : Dim
  /-- `ERASE0..ERASE7` (R35) -/
  erase     : Vector Word 8
  /-- `SHARD_BASE0..SHARD_BASE255` (R36) -/
  shardBase : Vector Word 256
  /-- `RUN_CMD`: the accepted command word, while one runs (R30, R175) -/
  runCmd    : Option Word
  /-- `LUT_EXP` and `LUT_LOG` (R38) -/
  tables    : Tables
  /-- `GEN` (R39): the rows of the context's matrix. Every entry of the 256 x 255 RAM that is not listed holds a free
  value (assumption 3). -/
  gen       : List (List Byte)
  /-- `DMEM` (R50) -/
  dmem      : Memory
  /-- the level of the reset input `rst` (R190) -/
  rst       : Bool
  /-- the model's own: the host port's last response -/
  resp      : BusResponse
  /-- the model's own: what moves next, first event first -/
  events    : List Event
  /-- the model's own: how many free values have been used -/
  freeCtr   : Nat
deriving DecidableEq, Repr

/-- The model faults of R13: verdicts that the run reached a case whose hardware result the spec leaves unspecified.
They are no hardware events (R189). -/
inductive Fault where
  /-- R55, raised by the complete step of MAT.MUL, MAT.INV, RS.ENCODE and RS.RECONSTRUCT: it reads the unwritten DMEM
  byte at `addr`, the first one in the order of the command's pseudocode. SAFE: the model stops where the hardware goes
  on with an unknown byte. -/
  | uninitRead (addr : Nat)
  /-- R57, raised by the complete step of MAT.MUL, RS.ENCODE and RS.RECONSTRUCT: a write region overlaps another write
  region or a protected region. SAFE: the model stops where the hardware's result is unspecified. -/
  | overlapHazard
  /-- R60, raised by a host DMEM access to the footprint of the running command. SAFE: the model stops where what either
  side sees is unspecified. -/
  | hostRace
deriving DecidableEq, Repr

/-- Why an instruction has no meaning. -/
inductive Refusal where
  /-- Raised only by an arm of `exec` for a command that has no meaning yet; no arm raises it now. SAFE. -/
  | notModelled (mnemonic : String)
deriving DecidableEq, Repr

/-- STATUS after reset: every field 0 (R42). -/
def Status.reset : Status :=
  { busy := false, done := false, err := false, overrun := false, initDone := false, ctxValid := false,
    errCode := .noError, errCause := .noCause }

/-- The machine right after power-on reset with the default build (R42, R190, R192): every register zero, no command
running, the tables and GEN unspecified, every DMEM byte unwritten, the reset input released. -/
def State.reset : State :=
  { build := Config.defaultBuild
    irqEn := false
    status := Status.reset
    result := 0
    ctx := { k := 0, m := 0 }
    blockSize := 0
    maBase := 0
    mbBase := 0
    mcBase := 0
    dimA := { rows := 0, cols := 0 }
    dimB := { rows := 0, cols := 0 }
    erase := Vector.replicate 8 0
    shardBase := Vector.replicate 256 0
    runCmd := none
    tables := { exp := [], log := [] }
    gen := []
    dmem := []
    rst := false
    resp := .noResponse
    events := []
    freeCtr := 0 }

end Machine
end Sys2Proof
end

