-- ==== Sys2Proof/Machine/Flags.lean ====
section
/-! DEFINITION. The STATUS flags (10_state.md R26, R27, R40, R44; 60_exceptions.md R170, R171, R175): the word the host
reads and every way a flag is written. -/
namespace Sys2Proof
namespace Machine

/-- The 4-bit number of an error code (R170). -/
def ErrCode.bits : ErrCode → BitVec 4
  | .noError => 0
  | .illegalCommand => 1
  | .notInitialized => 2
  | .invalidParameters => 3
  | .dimensionMismatch => 4
  | .reconstructionImpossible => 5
  | .divisionByZero => 6
  | .singularMatrix => 7
  | .noContext => 8
  | .contextInUse => 9
  | .addressError => 10
  | .domainError => 11

/-- The 4-bit number of a wrapped cause (R171). -/
def ErrCause.bits : ErrCause → BitVec 4
  | .noCause => 0
  | .tooManyErasures => 1
  | .singularMatrix => 7

/-- The 32-bit word a host read of STATUS returns (R26). -/
def Status.word (f : Status) : Word :=
  (0 : BitVec 16) ++ f.errCause.bits ++ f.errCode.bits ++ (0 : BitVec 2) ++ BitVec.ofBool f.ctxValid
    ++ BitVec.ofBool f.initDone ++ BitVec.ofBool f.overrun ++ BitVec.ofBool f.err ++ BitVec.ofBool f.done
    ++ BitVec.ofBool f.busy

/-- What acceptance does to STATUS (R30): BUSY is set, and DONE, ERR, ERR_CODE and ERR_CAUSE are cleared. -/
def Status.accepted (f : Status) : Status :=
  { f with busy := true, done := false, err := false, errCode := .noError, errCause := .noCause }

/-- What completion does to STATUS (R175). -/
def Status.completed (f : Status) (code : ErrCode) (cause : ErrCause) : Status :=
  { f with errCode := code, errCause := cause, err := decide (code ≠ .noError), busy := false, done := true }

/-- A dropped CMD or RW-L write (R30, R37). -/
def Status.dropped (f : Status) : Status := { f with overrun := true }

/-- A host write of `v` to STATUS (R27): write-1-to-clear of DONE (bit 1) and OVERRUN (bit 3), and nothing else. -/
def Status.written (f : Status) (v : Word) : Status :=
  { f with done := f.done && !v.getLsbD 1, overrun := f.overrun && !v.getLsbD 3 }

/-- The interrupt output: `irq = CTRL.IRQ_EN AND STATUS.DONE` at every instant (R44). -/
def State.irq (s : State) : Bool := s.irqEn && s.status.done

end Machine
end Sys2Proof
end

