-- ==== Sys2Proof/Machine/Ops.lean ====
section
/-! DEFINITION. The shared operations: data memory and its regions, command acceptance, and completion, which is the
core's one form of trap entry (60_exceptions.md R175, R176), with the host's acknowledgement beside it (R177). -/
namespace Sys2Proof
namespace Machine

/-! ## Data memory (20_memory.md R50) -/

/-- The byte at `a`, or `none` where it is unwritten. -/
def Memory.byte? : Memory → Nat → Option Byte
  | [], _ => none
  | (b, v) :: m, a => if a = b then some v else Memory.byte? m a

/-- Write one byte (R54); the written byte is listed at its place. -/
def Memory.set : Memory → Nat → Byte → Memory
  | [], a, v => [(a, v)]
  | (b, w) :: m, a, v =>
    if a < b then (a, v) :: (b, w) :: m
    else if a = b then (a, v) :: m
    else (b, w) :: Memory.set m a v

/-- Write a list of bytes, first first. -/
def Memory.setAll : Memory → List Host.Cell → Memory
  | m, [] => m
  | m, (a, v) :: cs => Memory.setAll (Memory.set m a v) cs

/-- Every listed address is above `lo`, and the addresses rise strictly. -/
def Memory.wfAbove : Option Nat → Memory → Bool
  | _, [] => true
  | lo, (b, _) :: m => (match lo with | none => true | some l => decide (l < b)) && Memory.wfAbove (some b) m

/-- The canonical form: the listed addresses rise strictly. (An unlisted byte is unwritten, so no listed byte equals
what an unlisted address holds.) -/
def Memory.wf (m : Memory) : Bool := Memory.wfAbove none m

/-- Every listed address exists: it is below `MEM_BYTES` (R50). -/
def Memory.inside (m : Memory) (bytes : Nat) : Bool := m.all fun c => decide (c.1 < bytes)

/-- The byte at `a` once it is known to be written. `guardWritten` comes before every use, so the default is never
seen. -/
def Memory.byteAt (m : Memory) (a : Nat) : Byte := (Memory.byte? m a).getD 0

/-! ## Regions (00_scope.md R14) -/

/-- A data-memory region: the addresses `base, ..., base + len - 1`, as exact integers. -/
structure Region where
  base : Nat
  len  : Nat
deriving DecidableEq, Repr

/-- "in range iff base + len <= MEM_BYTES" (R14). -/
def Region.inRange (r : Region) (b : Build) : Bool := decide (r.base + r.len ≤ b.memBytes)

/-- The address `a` belongs to the region. -/
def Region.has (r : Region) (a : Nat) : Bool := decide (r.base ≤ a) && decide (a < r.base + r.len)

/-- Two regions overlap iff their address sets intersect (R14). -/
def Region.overlaps (r q : Region) : Bool :=
  decide (max r.base q.base < min (r.base + r.len) (q.base + q.len))

/-- Some two regions of the list, at different places of it, overlap. -/
def anyTwoOverlap : List Region → Bool
  | [] => false
  | r :: rs => rs.any r.overlaps || anyTwoOverlap rs

/-- The hazard of R57: a write region overlaps another write region or a protected region. -/
def overlapHazard (writes protecteds : List Region) : Bool :=
  anyTwoOverlap writes || writes.any fun w => protecteds.any w.overlaps

/-- Make every byte of a region unwritten (R191). The listed bytes are gone through, not the region. -/
def Memory.forget (m : Memory) (r : Region) : Memory := m.filter fun c => !r.has c.1

/-! ## Command acceptance and completion -/

/-- Acceptance of the command word `w` by an idle core (R30, the else branch). -/
def State.accept (s : State) (w : Word) : State := { s with runCmd := some w, status := s.status.accepted }

/-- `complete(code, cause)` (R175), after the command's effects have been applied to `s`. -/
def State.complete (s : State) (code : ErrCode) (cause : ErrCause) : State :=
  { s with status := s.status.completed code cause, runCmd := none }

/-- The host's acknowledgement of a completion, a write of STATUS (R27, R177). -/
def State.acknowledge (s : State) (v : Word) : State := { s with status := s.status.written v }

/-- A CMD write or RW-L write dropped because BUSY = 1 (R30, R37). -/
def State.dropWrite (s : State) : State := { s with status := s.status.dropped }

/-- How a command's own pseudocode ends: with its effects applied, with a detected error (R12), or in a case the spec
leaves unspecified (R13). -/
inductive Ending where
  | success (s : State)
  | error (code : ErrCode) (cause : ErrCause)
  | modelFault (f : Fault)

/-- The complete step (R175): the effects and the STATUS update as one; on an error nothing but STATUS changes (R172). -/
def State.finish (s : State) : Ending → Host.Outcome State Fault Refusal
  | .success t => .next (t.complete .noError .noCause)
  | .error code cause => .next (s.complete code cause)
  | .modelFault f => .fault f

/-- The NotInitialized check of the common prologue (R173); INIT alone goes without it. -/
def State.afterInit (s : State) (body : Ending) : Host.Outcome State Fault Refusal :=
  if s.status.initDone then s.finish body else .next (s.complete .notInitialized .noCause)

/-- The context check that CTX.RELEASE, CTX.GENSTORE, RS.ENCODE and RS.RECONSTRUCT begin with (R173). -/
def State.withContext (s : State) (body : Ending) : Ending :=
  if s.status.ctxValid then body else .error .noContext .noCause

/-- The AddressError check (R56): every region is in range. -/
def State.withRegions (s : State) (regions : List Region) (body : Ending) : Ending :=
  if regions.all (·.inRange s.build) then body else .error .addressError .noCause

/-- The OverlapHazard verdict (R57). -/
def withoutOverlap (writes protecteds : List Region) (body : Ending) : Ending :=
  if overlapHazard writes protecteds then .modelFault .overlapHazard else body

/-- The UninitRead verdict (R55): the first unwritten byte among those the command reads, in its reading order. -/
def State.withWritten (s : State) (addrs : List Nat) (body : Ending) : Ending :=
  match addrs.find? fun a => (Memory.byte? s.dmem a).isNone with
  | some a => .modelFault (.uninitRead a)
  | none => body

/-- Write bytes to DMEM as a command's effect (R54). -/
def State.store (s : State) (cells : List Host.Cell) : State := { s with dmem := Memory.setAll s.dmem cells }

/-- Write `RESULT` (R29). -/
def State.setResult (s : State) (v : Byte) : State := { s with result := v }

end Machine
end Sys2Proof
end

