-- ==== Sys2Proof/Machine/Operands.lean ====
section
/-! DEFINITION. The implicit operands of the commands (30_encoding.md R76): shapes, matrix and shard regions, the
erasure bitmap and the survivors, and the regions each command writes, protects and touches (20_memory.md R56-R59). -/
namespace Sys2Proof
namespace Machine

/-! ## Matrix operands (R33, R34, R110) -/

/-- A matrix dimension is legal iff it is in 1..MAXN (R34, R112). -/
def legalDim (d : BitVec 9) : Bool := decide (1 ≤ d.toNat) && decide (d.toNat ≤ Config.maxN)

/-- The `rows x cols` matrix at `base` occupies `(base, rows*cols)` (R110). -/
def matRegion (base : Word) (rows cols : Nat) : Region := { base := base.toNat, len := rows * cols }

/-- The addresses of a row-major matrix in ascending order: element `[r][c]` at `base + r*cols + c` (R110). -/
def matAddrs (base : Word) (rows cols : Nat) : List Nat :=
  (List.range rows).flatMap fun r => (List.range cols).map fun c => base.toNat + r * cols + c

/-- The bytes of a row-major matrix image whose element `[r][c]` is `f r c` (R110, `storemat`). -/
def matCells (base : Word) (rows cols : Nat) (f : Nat → Nat → Byte) : List Host.Cell :=
  (List.range rows).flatMap fun r => (List.range cols).map fun c => (base.toNat + r * cols + c, f r c)

/-- Operand A of MAT.MUL (R112). -/
def State.mulA (s : State) : Region := matRegion s.maBase s.dimA.rows.toNat s.dimA.cols.toNat
/-- Operand B of MAT.MUL (R112). -/
def State.mulB (s : State) : Region := matRegion s.mbBase s.dimB.rows.toNat s.dimB.cols.toNat
/-- The result C of MAT.MUL (R112). -/
def State.mulC (s : State) : Region := matRegion s.mcBase s.dimA.rows.toNat s.dimB.cols.toNat
/-- Operand A of MAT.INV, `n x n` with `n = DIMA.ROWS` (R115). -/
def State.invA (s : State) : Region := matRegion s.maBase s.dimA.rows.toNat s.dimA.rows.toNat
/-- The result of MAT.INV (R115). -/
def State.invC (s : State) : Region := matRegion s.mcBase s.dimA.rows.toNat s.dimA.rows.toNat

/-! ## The context and the shards (R31, R35, R36, R150) -/

/-- `K`, the context's data-shard count (R31). -/
def State.K (s : State) : Nat := s.ctx.k.toNat
/-- `M`, the context's parity-shard count (R31). -/
def State.M (s : State) : Nat := s.ctx.m.toNat

/-- `SHARD_BASE[i]` (R36). A command reads it for `i < K + M <= 256` only, so the default is never seen. -/
def State.shardAt (s : State) (i : Nat) : Nat := (s.shardBase[i]?.getD 0).toNat

/-- Shard `i` is the region `(SHARD_BASE[i], BLOCK_SIZE)` (R36, R150). -/
def State.shardRegion (s : State) (i : Nat) : Region := { base := s.shardAt i, len := s.blockSize.toNat }

/-- `shard(i)[j]`: the DMEM byte at `SHARD_BASE[i] + j` (43_encode_reconstruct.md, head). -/
def State.shardByte (s : State) (i j : Nat) : Byte := Memory.byteAt s.dmem (s.shardAt i + j)

/-- `ERASED(i) = ERASE[i div 32][i mod 32]` (R35). -/
def State.erased (s : State) (i : Nat) : Bool := (s.erase[i / 32]?.getD 0).getLsbD (i % 32)

/-- `E`: the erased shards below `K + M`, ascending (R154). -/
def State.erasedShards (s : State) : List Nat := (List.range (s.K + s.M)).filter s.erased

/-- The shards below `K + M` whose flag is 0, ascending (R154). -/
def State.intactShards (s : State) : List Nat := (List.range (s.K + s.M)).filter fun i => !s.erased i

/-- `surv`: the first `K` intact shards (R154). -/
def State.survivors (s : State) : List Nat := s.intactShards.take s.K

/-- `surv[r]` (R154). RS.RECONSTRUCT reads it for `r < K` when `surv` has `K` elements. -/
def State.survivor (s : State) (r : Nat) : Nat := s.survivors.getD r 0

/-- The entry `GEN[r][c]` (R39): the context's matrix where it is stored, an unspecified value elsewhere. -/
def State.genAt (s : State) (r c : Nat) : Byte :=
  match (s.gen[r]?).bind (·[c]?) with
  | some v => v
  | none => Config.unspecifiedGen s.freeCtr r c

/-- The regions of all `K + M` shards (R56). -/
def State.shardRegions (s : State) : List Region := (List.range (s.K + s.M)).map s.shardRegion
/-- The data shards `0..K-1` (R150). -/
def State.dataRegions (s : State) : List Region := (List.range s.K).map s.shardRegion
/-- The parity shards `K..K+M-1` (R150). -/
def State.parityRegions (s : State) : List Region := (List.range s.M).map fun i => s.shardRegion (s.K + i)
/-- The GEN image of CTX.GENSTORE: `(MC_BASE, (K+M)*K)` (R137). -/
def State.genRegion (s : State) : Region := matRegion s.mcBase (s.K + s.M) s.K

/-- `check_dims(nd, np)` fails (R153). -/
def State.dimsDisagree (s : State) (nd np : Byte) : Bool :=
  decide (nd ≠ s.ctx.k) || decide (np ≠ s.ctx.m) || decide (s.blockSize = 0)

/-! ## What each command writes, protects and touches -/

/-- The write regions of R57. -/
def writeRegions (s : State) : Instr → List Region
  | .init => []
  | .gfAdd _ _ => []
  | .gfMul _ _ => []
  | .gfDiv _ _ => []
  | .gfInv _ => []
  | .gfExp _ => []
  | .gfLog _ => []
  | .matMul => [s.mulC]
  | .matInv => [s.invC]
  | .ctxCreate _ _ => []
  | .ctxRelease => []
  | .ctxGenstore => [s.genRegion]
  | .rsEncode _ _ => s.parityRegions
  | .rsReconstruct _ _ => s.erasedShards.map s.shardRegion

/-- The protected regions of R57. -/
def protectedRegions (s : State) : Instr → List Region
  | .init => []
  | .gfAdd _ _ => []
  | .gfMul _ _ => []
  | .gfDiv _ _ => []
  | .gfInv _ => []
  | .gfExp _ => []
  | .gfLog _ => []
  | .matMul => [s.mulA, s.mulB]
  | .matInv => []
  | .ctxCreate _ _ => []
  | .ctxRelease => []
  | .ctxGenstore => []
  | .rsEncode _ _ => s.dataRegions
  | .rsReconstruct _ _ => s.intactShards.map s.shardRegion

/-- The regions a command reads and writes once it passes its checks (R59). -/
def touchedRegions (s : State) : Instr → List Region
  | .init => []
  | .gfAdd _ _ => []
  | .gfMul _ _ => []
  | .gfDiv _ _ => []
  | .gfInv _ => []
  | .gfExp _ => []
  | .gfLog _ => []
  | .matMul => [s.mulA, s.mulB, s.mulC]
  | .matInv => [s.invA, s.invC]
  | .ctxCreate _ _ => []
  | .ctxRelease => []
  | .ctxGenstore => [s.genRegion]
  | .rsEncode _ _ => s.shardRegions
  | .rsReconstruct _ _ =>
    if s.erasedShards.isEmpty then [] else (s.survivors ++ s.erasedShards).map s.shardRegion

end Machine
end Sys2Proof
end

