-- ==== Sys2Proof/Machine/Field.lean ====
section
/-! DEFINITION. The field unit (40_field_arithmetic.md): the tables, the internal field functions of R98, the
carry-less form of R104, and the meanings of INIT and the GF commands. -/
namespace Sys2Proof
namespace Machine

/-! ## Tables (R92, R93) -/

/-- `xtime(v)` of R92: multiplication by `ALPHA = 0x02` modulo the polynomial `p`. -/
def xtime (p : BitVec 9) (v : Byte) : Byte :=
  ((v.setWidth 9 <<< 1) ^^^ (if v.getLsbD 7 then p else 0)).setWidth 8

/-- `LUT_EXP[0..254]` as INIT fills it (R92): 1, then `xtime` of the entry before. -/
def expTable (p : BitVec 9) : List Byte := List.iterate (xtime p) 0x01 255

/-- `LUT_LOG[1..255]` as INIT fills it (R93): the index at which `LUT_EXP` holds `a`. R93 writes each entry once, since
`LUT_EXP` is a permutation of 1..255 (R92). -/
def logTable (exp : List Byte) : List Byte :=
  (List.range 255).map fun i => BitVec.ofNat 8 (exp.idxOf (BitVec.ofNat 8 (i + 1)))

/-- The tables INIT fills for the polynomial `p` (R99). -/
def initTables (p : BitVec 9) : Tables := { exp := expTable p, log := logTable (expTable p) }

/-- `LUT_EXP[i]` (R38). -/
def Tables.expAt (t : Tables) (i : Nat) : Byte := t.exp.getD i (Config.unspecifiedLut i)

/-- `LUT_LOG[a]` for `a != 0` (R38). -/
def Tables.logAt (t : Tables) (a : Byte) : Byte := t.log.getD (a.toNat - 1) (Config.unspecifiedLut (255 + a.toNat))

/-! ## Field functions (R98) -/

/-- `gf_add(a, b)`: XOR (R98). -/
def gfAdd (a b : Byte) : Byte := a ^^^ b

/-- `gf_mul(a, b)` through the tables (R98). -/
def gfMul (t : Tables) (a b : Byte) : Byte :=
  if a = 0 ∨ b = 0 then 0 else t.expAt (((t.logAt a).toNat + (t.logAt b).toNat) % 255)

/-- `gf_div(a, b)` (R98); `none` is the error DivisionByZero. The difference of the logs is reduced to 0..254. -/
def gfDiv (t : Tables) (a b : Byte) : Option Byte :=
  if b = 0 then none
  else if a = 0 then some 0
  else some (t.expAt ((((t.logAt a).toNat : Int) - ((t.logAt b).toNat : Int)) % 255).toNat)

/-- `gf_inv(a) = gf_div(0x01, a)` (R98). -/
def gfInv (t : Tables) (a : Byte) : Option Byte := gfDiv t 0x01 a

/-- `gf_pow(x, c)` (R98), with `gf_pow(0, 0) = 1`. -/
def gfPow (t : Tables) (x : Byte) (c : Nat) : Byte :=
  if c = 0 then 0x01 else if x = 0 then 0 else t.expAt (((t.logAt x).toNat * c) % 255)

/-- `XOR_{i in [0, n)} f(i)` (R9); 0 for an empty range. -/
def xorSum : Nat → (Nat → Byte) → Byte
  | 0, _ => 0
  | n + 1, f => xorSum n f ^^^ f n

/-! ## The carry-less form (R104) -/

/-- The product of the polynomials `a` and `b` without reduction: the first loop of R104. -/
def clmul (a b : Byte) : Nat → BitVec 16
  | 0 => 0
  | i + 1 => clmul a b i ^^^ (if b.getLsbD i then a.setWidth 16 <<< i else 0)

/-- The second loop of R104: clear bits `8 + n - 1` down to 8 with the polynomial. -/
def clreduce (p : BitVec 9) : Nat → BitVec 16 → BitVec 16
  | 0, r => r
  | n + 1, r => clreduce p n (r ^^^ (if r.getLsbD (8 + n) then p.setWidth 16 <<< n else 0))

/-- `clmul_mod(a, b)` of R104. -/
def clmulMod (p : BitVec 9) (a b : Byte) : Byte := (clreduce p 8 (clmul a b 8)).setWidth 8

/-! ## Meanings -/

/-- INIT (R99): fills the tables the first time, changes nothing later. The one command without the NotInitialized
check (R173). -/
def execInit (s : State) : Host.Outcome State Fault Refusal :=
  s.finish (.success (if s.status.initDone then s
    else { s with tables := initTables s.build.gfPoly, status := { s.status with initDone := true } }))

/-- GF.ADD (R94). -/
def execGfAdd (a b : Byte) (s : State) : Host.Outcome State Fault Refusal :=
  s.afterInit (.success (s.setResult (gfAdd a b)))

/-- GF.MUL (R95). -/
def execGfMul (a b : Byte) (s : State) : Host.Outcome State Fault Refusal :=
  s.afterInit (.success (s.setResult (gfMul s.tables a b)))

/-- A quotient to RESULT, or DivisionByZero with RESULT unchanged (R96, R97). -/
def State.quotient (s : State) : Option Byte → Ending
  | none => .error .divisionByZero .noCause
  | some q => .success (s.setResult q)

/-- GF.DIV (R96). -/
def execGfDiv (a b : Byte) (s : State) : Host.Outcome State Fault Refusal :=
  s.afterInit (s.quotient (gfDiv s.tables a b))

/-- GF.INV (R97). -/
def execGfInv (a : Byte) (s : State) : Host.Outcome State Fault Refusal :=
  s.afterInit (s.quotient (gfInv s.tables a))

/-- GF.EXP (R102): `LUT_EXP[e mod 255]`. -/
def execGfExp (e : Byte) (s : State) : Host.Outcome State Fault Refusal :=
  s.afterInit (.success (s.setResult (s.tables.expAt (e.toNat % 255))))

/-- GF.LOG (R103): `LUT_LOG[a]`, or DomainError for 0. -/
def execGfLog (a : Byte) (s : State) : Host.Outcome State Fault Refusal :=
  s.afterInit (if a = 0 then .error .domainError .noCause else .success (s.setResult (s.tables.logAt a)))

end Machine
end Sys2Proof
end

