-- ==== Sys2Proof/Machine/Matrix.lean ====
section
/-! DEFINITION. The matrix engine (41_matrix_engine.md): matrices, the product of R111, Gauss-Jordan inversion (R113),
and the meanings of MAT.MUL and MAT.INV. -/
namespace Sys2Proof
namespace Machine

/-- A matrix of field elements as its list of rows (R9). -/
abbrev Mat := List (List Byte)

/-- Row `r`. -/
def Mat.row (A : Mat) (r : Nat) : List Byte := A.getD r []

/-- `A[r][c]`. Every rule stays inside the matrix, so the default is never seen. -/
def Mat.at (A : Mat) (r c : Nat) : Byte := (Mat.row A r).getD c 0

/-- The `rows x cols` matrix whose element `[r][c]` is `f r c`. -/
def Mat.of (rows cols : Nat) (f : Nat → Nat → Byte) : Mat :=
  (List.range rows).map fun r => (List.range cols).map fun c => f r c

/-- `mat_mul(A, B)` of R111 for `A` of shape `R x T` and `B` of shape `T x C`. -/
def matMul (t : Tables) (R T C : Nat) (A B : Mat) : Mat :=
  Mat.of R C fun i j => xorSum T fun k => gfMul t (Mat.at A i k) (Mat.at B k j)

/-- The identity-augmented working matrix `W` of R113. -/
def gjAugment (A : Mat) (n : Nat) : Mat :=
  Mat.of n (2 * n) fun r c => if c < n then Mat.at A r c else if c - n = r then 1 else 0

/-- The pivot row of R113: the least `r` in `[col, n)` with `W[r][col] != 0`. -/
def gjPivot (W : Mat) (n col : Nat) : Option Nat :=
  (List.range n).find? fun r => decide (col ≤ r) && decide (Mat.at W r col ≠ 0)

/-- Swap rows `p` and `q` (R113). -/
def gjSwap (W : Mat) (p q : Nat) : Mat := (List.set W p (Mat.row W q)).set q (Mat.row W p)

/-- Multiply row `col` by `f` (R113, "normalise pivot row"). -/
def gjScale (t : Tables) (f : Byte) (W : Mat) (col : Nat) : Mat :=
  List.set W col ((Mat.row W col).map (gfMul t f))

/-- Clear column `col` of every other row `r < n` with the pivot row (R113, "eliminate"). -/
def gjEliminate (t : Tables) (W : Mat) (n col : Nat) : Mat :=
  (List.range n).map fun r =>
    let row := Mat.row W r
    let g := row.getD col 0
    if r = col ∨ g = 0 then row
    else List.zipWith (fun x y => x ^^^ gfMul t g y) row (Mat.row W col)

/-- One pass of the loop of R113; `none` is Singular. The divisor is the pivot, which is not zero (R114 (c)). -/
def gjStep (t : Tables) (n : Nat) (W : Mat) (col : Nat) : Option Mat :=
  match gjPivot W n col with
  | none => none
  | some p =>
    let W := if p = col then W else gjSwap W p col
    match gfDiv t 1 (Mat.at W col col) with
    | none => none
    | some f => some (gjEliminate t (gjScale t f W col) n col)

/-- The loop over the columns (R113). -/
def gjLoop (t : Tables) (n : Nat) : List Nat → Mat → Option Mat
  | [], W => some W
  | col :: cols, W =>
    match gjStep t n W col with
    | none => none
    | some W' => gjLoop t n cols W'

/-- `gj_inv(A, n)` (R113): the inverse, or `none` for Singular. -/
def gjInv (t : Tables) (A : Mat) (n : Nat) : Option Mat :=
  match gjLoop t n (List.range n) (gjAugment A n) with
  | none => none
  | some W => some (Mat.of n n fun r c => Mat.at W r (n + c))

/-- `loadmat(base, rows, cols)` (R110), once every byte is known to be written. -/
def State.loadMat (s : State) (base : Word) (rows cols : Nat) : Mat :=
  Mat.of rows cols fun r c => Memory.byteAt s.dmem (base.toNat + r * cols + c)

/-! ## Meanings -/

/-- MAT.MUL is asked for a shape outside 1..256 or for shapes that do not fit (R112). -/
def State.mulMismatch (s : State) : Bool :=
  !(legalDim s.dimA.rows && legalDim s.dimA.cols && legalDim s.dimB.rows && legalDim s.dimB.cols)
    || decide (s.dimA.cols ≠ s.dimB.rows)

/-- The product MAT.MUL stores (R111, R112). -/
def State.mulProduct (s : State) : Mat :=
  matMul s.tables s.dimA.rows.toNat s.dimA.cols.toNat s.dimB.cols.toNat
    (s.loadMat s.maBase s.dimA.rows.toNat s.dimA.cols.toNat)
    (s.loadMat s.mbBase s.dimB.rows.toNat s.dimB.cols.toNat)

/-- The bytes MAT.MUL stores (R112). -/
def State.mulCells (s : State) : List Host.Cell :=
  matCells s.mcBase s.dimA.rows.toNat s.dimB.cols.toNat (Mat.at s.mulProduct)

/-- The bytes MAT.MUL reads, in order (R112). -/
def State.mulReads (s : State) : List Nat :=
  matAddrs s.maBase s.dimA.rows.toNat s.dimA.cols.toNat ++ matAddrs s.mbBase s.dimB.rows.toNat s.dimB.cols.toNat

/-- MAT.MUL (R112). -/
def execMatMul (s : State) : Host.Outcome State Fault Refusal :=
  s.afterInit (
    if s.mulMismatch then .error .dimensionMismatch .noCause
    else s.withRegions [s.mulA, s.mulB, s.mulC]
      (withoutOverlap (writeRegions s .matMul) (protectedRegions s .matMul)
        (s.withWritten s.mulReads (.success (s.store s.mulCells)))))

/-- MAT.INV is asked for a shape that is not square or not in 1..256 (R115). -/
def State.invMismatch (s : State) : Bool := !legalDim s.dimA.rows || decide (s.dimA.cols ≠ s.dimA.rows)

/-- The inverse of MAT.INV's operand (R115). -/
def State.invResult (s : State) : Option Mat :=
  gjInv s.tables (s.loadMat s.maBase s.dimA.rows.toNat s.dimA.rows.toNat) s.dimA.rows.toNat

/-- The bytes MAT.INV stores for the inverse `X` (R115). -/
def State.invCells (s : State) (X : Mat) : List Host.Cell :=
  matCells s.mcBase s.dimA.rows.toNat s.dimA.rows.toNat (Mat.at X)

/-- What MAT.INV does with the verdict of `gj_inv` (R115). -/
def State.invEnding (s : State) : Option Mat → Ending
  | none => .error .singularMatrix .noCause
  | some X => .success (s.store (s.invCells X))

/-- MAT.INV (R115). All of A is read before any byte of C is written, so C may overlap A (R58). -/
def execMatInv (s : State) : Host.Outcome State Fault Refusal :=
  s.afterInit (
    if s.invMismatch then .error .dimensionMismatch .noCause
    else s.withRegions [s.invA, s.invC]
      (s.withWritten (matAddrs s.maBase s.dimA.rows.toNat s.dimA.rows.toNat) (s.invEnding s.invResult)))

end Machine
end Sys2Proof
end

