-- ==== Sys2Proof/Machine/Context.lean ====
section
/-! DEFINITION. The generator builder and the codec context (42_codec_context.md): the meanings of CTX.CREATE,
CTX.RELEASE and CTX.GENSTORE. -/
namespace Sys2Proof
namespace Machine

/-- The Vandermonde base matrix `V[r][c] = gf_pow(r, c)` (R130). -/
def vandermonde (t : Tables) (k m : Nat) : Mat :=
  Mat.of (k + m) k fun r c => gfPow t (BitVec.ofNat 8 r) c

/-- `build(k, m)` (R131): `V` times the inverse of its top block. The inversion is never Singular (R132 (b)), so the
default is never seen. -/
def buildGen (t : Tables) (k m : Nat) : Mat :=
  matMul t (k + m) k k (vandermonde t k m) ((gjInv t ((vandermonde t k m).take k) k).getD [])

/-- `(k, m)` is legal iff `k >= 1`, `m >= 1` and `k + m <= 256` (R7, R133). -/
def legalShape (k m : Byte) : Bool :=
  decide (k ≠ 0) && decide (m ≠ 0) && decide (k.toNat + m.toNat ≤ Config.nshardMax)

/-- A stored context (R134). -/
def State.withNewContext (s : State) (k m : Byte) : State :=
  { s with gen := buildGen s.tables k.toNat m.toNat, ctx := { k := k, m := m },
           status := { s.status with ctxValid := true } }

/-- No context (R136): CTX reads 0, and every entry of GEN is unspecified from now on (assumption 3). -/
def State.withoutContext (s : State) : State :=
  { s with gen := [], ctx := { k := 0, m := 0 }, status := { s.status with ctxValid := false },
           freeCtr := s.freeCtr + 1 }

/-- The bytes CTX.GENSTORE stores (R137). -/
def State.genCells (s : State) : List Host.Cell := matCells s.mcBase (s.K + s.M) s.K s.genAt

/-- CTX.CREATE (R134). -/
def execCtxCreate (k m : Byte) (s : State) : Host.Outcome State Fault Refusal :=
  s.afterInit (
    if s.status.ctxValid then .error .contextInUse .noCause
    else if legalShape k m then .success (s.withNewContext k m)
    else .error .invalidParameters .noCause)

/-- CTX.RELEASE (R136). -/
def execCtxRelease (s : State) : Host.Outcome State Fault Refusal :=
  s.afterInit (s.withContext (.success s.withoutContext))

/-- CTX.GENSTORE (R137). -/
def execCtxGenstore (s : State) : Host.Outcome State Fault Refusal :=
  s.afterInit (s.withContext (s.withRegions [s.genRegion] (.success (s.store s.genCells))))

end Machine
end Sys2Proof
end

