-- ==== Sys2Proof/Machine/Codec.lean ====
section
/-! DEFINITION. The encode and reconstruct datapaths (43_encode_reconstruct.md): the meanings of RS.ENCODE and
RS.RECONSTRUCT. -/
namespace Sys2Proof
namespace Machine

/-! ## Encode -/

/-- `parity(i, j)` of R151. -/
def State.parity (s : State) (i j : Nat) : Byte :=
  xorSum s.K fun d => gfMul s.tables (s.genAt (s.K + i) d) (s.shardByte d j)

/-- The bytes of the shards `shards`, at the offsets `[0, BS)`, offset by offset: the reading order of R152 and R156. -/
def State.laneAddrs (s : State) (shards : List Nat) : List Nat :=
  (List.range s.blockSize.toNat).flatMap fun j => shards.map fun i => s.shardAt i + j

/-- The bytes of the shards `shards` with contents `f shard offset`, shard by shard: the writing order of R152, R156. -/
def State.shardCells (s : State) (shards : List Nat) (f : Nat → Nat → Byte) : List Host.Cell :=
  shards.flatMap fun i => (List.range s.blockSize.toNat).map fun j => (s.shardAt i + j, f i j)

/-- The bytes RS.ENCODE stores (R152). -/
def State.parityCells (s : State) : List Host.Cell :=
  s.shardCells ((List.range s.M).map (s.K + ·)) fun i j => s.parity (i - s.K) j

/-- RS.ENCODE (R152). -/
def execRsEncode (nd np : Byte) (s : State) : Host.Outcome State Fault Refusal :=
  s.afterInit (s.withContext (
    if s.dimsDisagree nd np then .error .dimensionMismatch .noCause
    else s.withRegions s.shardRegions
      (withoutOverlap (writeRegions s (.rsEncode nd np)) (protectedRegions s (.rsEncode nd np))
        (s.withWritten (s.laneAddrs (List.range s.K)) (.success (s.store s.parityCells))))))

/-! ## Reconstruct -/

/-- The survivor sub-matrix `S[r][c] = GEN[surv[r]][c]` (R155). -/
def State.survivorMat (s : State) : Mat := Mat.of s.K s.K fun r c => s.genAt (s.survivor r) c

/-- `data(c, j)` of R155, with `Sinv` the inverse of the survivor sub-matrix. -/
def State.recoveredData (s : State) (Sinv : Mat) (c j : Nat) : Byte :=
  xorSum s.K fun r => gfMul s.tables (Mat.at Sinv c r) (s.shardByte (s.survivor r) j)

/-- `rec(i, j)` of R155. -/
def State.recovered (s : State) (Sinv : Mat) (i j : Nat) : Byte :=
  xorSum s.K fun c => gfMul s.tables (s.genAt i c) (s.recoveredData Sinv c j)

/-- The bytes RS.RECONSTRUCT stores (R156, step 6). -/
def State.recoveredCells (s : State) (Sinv : Mat) : List Host.Cell :=
  s.shardCells s.erasedShards (s.recovered Sinv)

/-- What RS.RECONSTRUCT does with the verdict of `gj_inv` (R156). -/
def State.recoverEnding (s : State) (nd np : Byte) : Option Mat → Ending
  | none => .error .reconstructionImpossible .singularMatrix
  | some Sinv =>
    withoutOverlap (writeRegions s (.rsReconstruct nd np)) (protectedRegions s (.rsReconstruct nd np))
      (s.withWritten (s.laneAddrs s.survivors) (.success (s.store (s.recoveredCells Sinv))))

/-- RS.RECONSTRUCT (R156): the erasure budget first (R160), then the zero-erasure no-op (R157), then recovery. -/
def execRsReconstruct (nd np : Byte) (s : State) : Host.Outcome State Fault Refusal :=
  s.afterInit (s.withContext (
    if s.dimsDisagree nd np then .error .dimensionMismatch .noCause
    else s.withRegions s.shardRegions (
      if s.M < s.erasedShards.length then .error .reconstructionImpossible .tooManyErasures
      else if s.erasedShards.length = 0 then .success s
      else s.recoverEnding nd np (gjInv s.tables s.survivorMat s.K))))

end Machine
end Sys2Proof
end

