-- ==== Sys2Proof/Machine/Dispatch.lean ====
section
/-! DEFINITION. The meaning of each command at its complete step, one arm per constructor. -/
namespace Sys2Proof
namespace Machine

def exec (i : Instr) (s : State) : Host.Outcome State Fault Refusal :=
  match i with
  | .init => Sys2Proof.Machine.execInit s
  | .gfAdd a b => Sys2Proof.Machine.execGfAdd a b s
  | .gfMul a b => Sys2Proof.Machine.execGfMul a b s
  | .gfDiv a b => Sys2Proof.Machine.execGfDiv a b s
  | .gfInv a => Sys2Proof.Machine.execGfInv a s
  | .gfExp e => Sys2Proof.Machine.execGfExp e s
  | .gfLog a => Sys2Proof.Machine.execGfLog a s
  | .matMul => Sys2Proof.Machine.execMatMul s
  | .matInv => Sys2Proof.Machine.execMatInv s
  | .ctxCreate k m => Sys2Proof.Machine.execCtxCreate k m s
  | .ctxRelease => Sys2Proof.Machine.execCtxRelease s
  | .ctxGenstore => Sys2Proof.Machine.execCtxGenstore s
  | .rsEncode nd np => Sys2Proof.Machine.execRsEncode nd np s
  | .rsReconstruct nd np => Sys2Proof.Machine.execRsReconstruct nd np s

end Machine
end Sys2Proof
end

