-- ==== Sys2Proof/Machine/HostPort.lean ====
section
/-! DEFINITION. The outside of the core: running the accepted command word (60_exceptions.md R173), the CSR window
(10_state.md R22-R37), the host's data-memory port (20_memory.md R52, R53, R60), reset (70_reset_and_hazards.md R190,
R191), and the events that move the machine (R11, R179). -/
namespace Sys2Proof
namespace Machine

/-! ## The complete step of a command word -/

/-- The complete step of the command word `w`: the IllegalCommand check of the prologue (R173, R74), then the command's
meaning. -/
def completeWord (w : Word) (s : State) : Host.Outcome State Fault Refusal :=
  match decode w with
  | .error _ => .next (s.complete .illegalCommand .noCause)
  | .ok i => exec i s

/-- The core's turn: it completes the running command, or is idle (R187, R197). -/
def completeRunning (s : State) : Host.Outcome State Fault Refusal :=
  match s.runCmd with
  | none => .next s
  | some w => completeWord w s

/-- The legal command that is running. -/
def State.running (s : State) : Option Instr :=
  match s.runCmd with
  | none => none
  | some w =>
    match decode w with
    | .ok i => some i
    | .error _ => none

/-- The command `i`, completing now, would not report a detected error: it "passes its checks" (R59). -/
def passesChecks (s : State) (i : Instr) : Bool :=
  match exec i s with
  | .next t => !t.status.err
  | .fault _ => true
  | .refused _ => true

/-- The footprint of the running command: its regions if it passes its checks, and none otherwise (R59). -/
def State.footprint (s : State) : List Region :=
  match s.running with
  | none => []
  | some i => if s.status.busy && passesChecks s i then touchedRegions s i else []

/-- An access to `n` bytes at `a` touches the footprint of the running command (R60). -/
def State.races (s : State) (a n : Nat) : Bool := s.footprint.any ({ base := a, len := n } : Region).overlaps

/-! ## The CSR window (R22) -/

/-- The registers of R22. -/
inductive Csr where
  | id
  | param
  | ctrl
  | status
  | cmd
  | result
  | ctx
  | blockSize
  | maBase
  | mbBase
  | mcBase
  | dimA
  | dimB
  | erase (w : Fin 8)
  | shardBase (i : Fin 256)
deriving DecidableEq, Repr

/-- The byte offset of a register (R22). -/
def csrOffset : Csr → Nat
  | .id => 0x000
  | .param => 0x004
  | .ctrl => 0x008
  | .status => 0x00C
  | .cmd => 0x010
  | .result => 0x014
  | .ctx => 0x018
  | .blockSize => 0x01C
  | .maBase => 0x020
  | .mbBase => 0x024
  | .mcBase => 0x028
  | .dimA => 0x02C
  | .dimB => 0x030
  | .erase w => 0x040 + 4 * w.val
  | .shardBase i => 0x400 + 4 * i.val

/-- The register at an aligned byte offset, or `none` where the offset is reserved (R22). -/
def csrAt (off : Nat) : Option Csr :=
  if off = 0x000 then some .id
  else if off = 0x004 then some .param
  else if off = 0x008 then some .ctrl
  else if off = 0x00C then some .status
  else if off = 0x010 then some .cmd
  else if off = 0x014 then some .result
  else if off = 0x018 then some .ctx
  else if off = 0x01C then some .blockSize
  else if off = 0x020 then some .maBase
  else if off = 0x024 then some .mbBase
  else if off = 0x028 then some .mcBase
  else if off = 0x02C then some .dimA
  else if off = 0x030 then some .dimB
  else if 0x040 ≤ off ∧ off < 0x060 then some (.erase (Fin.ofNat 8 ((off - 0x040) / 4)))
  else if 0x400 ≤ off ∧ off < 0x800 then some (.shardBase (Fin.ofNat 256 ((off - 0x400) / 4)))
  else none

/-- The `PARAM` word (R24). -/
def paramWord (b : Build) : Word := (0 : BitVec 10) ++ b.addrW ++ (0 : BitVec 7) ++ b.gfPoly

/-- The word of a `DIMA` or `DIMB` register (R34). -/
def Dim.word (d : Dim) : Word := (0 : BitVec 7) ++ d.cols ++ (0 : BitVec 7) ++ d.rows

/-- The shape a write of `v` to `DIMA` or `DIMB` sets; the other bits are ignored (R34). -/
def Dim.ofWord (v : Word) : Dim := { rows := v.extractLsb' 0 9, cols := v.extractLsb' 16 9 }

/-- What a read of a register returns (R23-R36). -/
def State.csrValue (s : State) : Csr → Word
  | .id => Config.idWord
  | .param => paramWord s.build
  | .ctrl => (0 : BitVec 31) ++ BitVec.ofBool s.irqEn
  | .status => s.status.word
  | .cmd => 0
  | .result => zext32 s.result
  | .ctx => (0 : BitVec 16) ++ s.ctx.m ++ s.ctx.k
  | .blockSize => s.blockSize
  | .maBase => s.maBase
  | .mbBase => s.mbBase
  | .mcBase => s.mcBase
  | .dimA => s.dimA.word
  | .dimB => s.dimB.word
  | .erase w => s.erase[w]
  | .shardBase i => s.shardBase[i]

/-- A write to an RW-L register (R37): dropped with OVERRUN while BUSY = 1. -/
def State.lockedWrite (s written : State) : State := if s.status.busy then s.dropWrite else written

/-- A write of `v` to CMD (R30). -/
def State.writeCmd (s : State) (v : Word) : State := if s.status.busy then s.dropWrite else s.accept v

/-- A write of `v` to a register (R22-R37). Read-only registers ignore it. -/
def State.csrStore (s : State) (v : Word) : Csr → State
  | .id => s
  | .param => s
  | .ctrl => { s with irqEn := v.getLsbD 0 }
  | .status => s.acknowledge v
  | .cmd => s.writeCmd v
  | .result => s
  | .ctx => s
  | .blockSize => s.lockedWrite { s with blockSize := v }
  | .maBase => s.lockedWrite { s with maBase := v }
  | .mbBase => s.lockedWrite { s with mbBase := v }
  | .mcBase => s.lockedWrite { s with mcBase := v }
  | .dimA => s.lockedWrite { s with dimA := Dim.ofWord v }
  | .dimB => s.lockedWrite { s with dimB := Dim.ofWord v }
  | .erase w => s.lockedWrite { s with erase := s.erase.set w v }
  | .shardBase i => s.lockedWrite { s with shardBase := s.shardBase.set i v }

/-- A CSR access is a 32-bit access at a multiple of 4 (R22). -/
def csrAccessLegal (off : BitVec 12) (n : Nat) : Bool := decide (n = 4) && decide (off.toNat % 4 = 0)

/-- The bus answers `r` (R53). -/
def State.respond (s : State) (r : BusResponse) : State := { s with resp := r }

/-- A host CSR read (R22): a reserved offset reads as 0. While `rst` is asserted there is no response (R190). -/
def hostCsrRead (off : BitVec 12) (n : Nat) (s : State) : State :=
  if s.rst then s.respond .noResponse
  else if csrAccessLegal off n then
    s.respond (.data (match csrAt off.toNat with | some r => s.csrValue r | none => 0))
  else s.respond .busError

/-- A host CSR write (R22): a reserved offset ignores it. While `rst` is asserted there is no response (R190). -/
def hostCsrWrite (off : BitVec 12) (n : Nat) (v : Word) (s : State) : State :=
  if s.rst then s.respond .noResponse
  else if csrAccessLegal off n then
    (match csrAt off.toNat with | some r => s.csrStore v r | none => s).respond .written
  else s.respond .busError

/-! ## The data-memory port -/

/-- A DMEM access of the host is legal (R52): width 1, 2 or 4, aligned, in range. -/
def memAccessLegal (s : State) (a n : Nat) : Bool :=
  (decide (n = 1) || decide (n = 2) || decide (n = 4)) && decide (a % n = 0) && decide (a + n ≤ s.build.memBytes)

/-- The byte the host reads at offset `i` of an access at `a`: the written byte, or a free value (assumption 1). -/
def State.hostByte (s : State) (a i : Nat) : Byte :=
  (Memory.byte? s.dmem (a + i)).getD (Config.unwrittenByte (s.freeCtr + i))

/-- `MemReadHost(a, n)` (R52): byte `i` is bits `8i+7:8i`. -/
def State.hostWord (s : State) (a : Nat) : Nat → Word
  | 0 => 0
  | i + 1 => s.hostWord a i ^^^ (zext32 (s.hostByte a i) <<< (8 * i))

/-- The bytes `MemWriteHost(a, n, v)` stores (R52): byte `i` is `v[8i+7:8i]`. -/
def hostCells (a n : Nat) (v : Word) : List Host.Cell :=
  (List.range n).map fun i => (a + i, v.extractLsb' (8 * i) 8)

/-- A host DMEM read (R52, R53, R60). It changes nothing but the bus response and the free values used. -/
def hostMemRead (a n : Nat) (s : State) : Host.Outcome State Fault Refusal :=
  if memAccessLegal s a n then
    if s.races a n then .fault .hostRace
    else .next { s with resp := .data (s.hostWord a n), freeCtr := s.freeCtr + n }
  else .next (s.respond .busError)

/-- A host DMEM write (R52, R53, R60). A write races if it touches the footprint the running command has before it or
after it: MAT.INV's footprint is empty while its operand is singular, and a write to the operand may end that
(assumption 7). -/
def hostMemWrite (a n : Nat) (v : Word) (s : State) : Host.Outcome State Fault Refusal :=
  if memAccessLegal s a n then
    if s.races a n || (s.store (hostCells a n v)).races a n then .fault .hostRace
    else .next ((s.store (hostCells a n v)).respond .written)
  else .next (s.respond .busError)

/-- One host access (R11). -/
def hostAccess (h : HostAccess) (s : State) : Host.Outcome State Fault Refusal :=
  match h with
  | .csrRead off n => .next (hostCsrRead off n s)
  | .csrWrite off n v => .next (hostCsrWrite off n v s)
  | .memRead a n => hostMemRead a n s
  | .memWrite a n v => hostMemWrite a n v s

/-! ## The host's address map (R6, R51) -/

/-- The access of the core's own window that an access to the bus address `addr` selects (R6): the CSR window at
`CSR_BASE`, DMEM at `DMEM_BASE`, and nothing of the core elsewhere. A platform does not let the windows overlap
(assumption 17). -/
def busWindow (b : Build) (addr : Nat) (csr : BitVec 12 → HostAccess) (mem : Nat → HostAccess) : Option HostAccess :=
  if Config.csrBase ≤ addr ∧ addr < Config.csrBase + Config.csrBytes then
    some (csr (BitVec.ofNat 12 (addr - Config.csrBase)))
  else if Config.dmemBase ≤ addr ∧ addr < Config.dmemBase + b.memBytes then some (mem (addr - Config.dmemBase))
  else none

/-- The window's access that a bus access stands for. -/
def busTarget (b : Build) : BusAccess → Option HostAccess
  | .read addr n => busWindow b addr (.csrRead · n) (.memRead · n)
  | .write addr n v => busWindow b addr (.csrWrite · n v) (.memWrite · n v)

/-- One host access by bus address. An address in neither window is not the core's: it does not answer. -/
def busAccess (x : BusAccess) (s : State) : Host.Outcome State Fault Refusal :=
  match busTarget s.build x with
  | some h => hostAccess h s
  | none => .next (s.respond .noResponse)

/-! ## Reset (R190, R191) -/

/-- The write regions of the command that reset aborts (R191), whether or not the command would have reported a detected
error (assumption 8). -/
def State.abortedRegions (s : State) : List Region :=
  match s.running with
  | none => []
  | some i => if s.status.busy then writeRegions s i else []

/-- DMEM after reset (R191): unchanged, but for the aborted command's write regions, which become unwritten. -/
def State.dmemAfterReset (s : State) : Memory := s.abortedRegions.foldl Memory.forget s.dmem

/-- Asserting `rst` (R190): the running command is aborted and every register takes its reset value. What is not the
core's (the build, the schedule, the count of free values) stays. -/
def State.assertReset (s : State) : State :=
  { State.reset with
    build := s.build
    dmem := s.dmemAfterReset
    rst := true
    events := s.events
    freeCtr := s.freeCtr + 1 }

/-- Releasing `rst`: the core is idle (R192). -/
def State.releaseReset (s : State) : State := { s with rst := false }

/-! ## Events -/

/-- The byte offset of CMD as a CSR offset (R28). -/
def cmdOffset : BitVec 12 := 0x010

/-- What one event does (R11). In a cycle with both a completion and a CMD write, the completion comes first (R179). -/
def stepEvent (e : Event) (s : State) : Host.Outcome State Fault Refusal :=
  match e with
  | .host h => hostAccess h s
  | .bus x => busAccess x s
  | .complete => completeRunning s
  | .cmdWriteAtCompletion w =>
    match completeRunning s with
    | .next t => .next (hostCsrWrite cmdOffset 4 w t)
    | .fault f => .fault f
    | .refused r => .refused r
  | .assertReset => .next s.assertReset
  | .releaseReset => .next s.releaseReset

/-- One step from the schedule: its first event, or, when nothing is scheduled, the core's own turn (R197: the complete
step is always enabled while a command runs). -/
def stepSchedule (s : State) : Host.Outcome State Fault Refusal :=
  match s.events with
  | [] => completeRunning s
  | e :: es => stepEvent e { s with events := es }

/-- `s` with the command word `w` accepted and its complete step next: what a CMD write of `w` to an idle core leads to
(R30). -/
def State.withCommand (s : State) (w : Word) : State :=
  { s.accept w with events := .complete :: s.events }

end Machine
end Sys2Proof
end

