-- ==== Sys2Proof/Machine/Step.lean ====
section
/-! DEFINITION. One step of the machine, and the state in which a given command runs next. -/
namespace Sys2Proof
namespace Machine

/-- One step (R11): the next scheduled event, or the core's own turn. -/
def step (s : State) : Host.Outcome State Fault Refusal := stepSchedule s

/-- `s` with the command word `w` accepted and completing at the very next step. The core fetches nothing (R21): a
command comes to run by a host write to CMD (R28, R30), and this stands for that write (assumption 4). -/
def State.withFetchWord (s : State) (nbits w : Nat) : State := s.withCommand (BitVec.ofNat 32 (w % 2 ^ nbits))

end Machine
end Sys2Proof
end

