-- ==== Sys2Proof/Laws/PerInstr.lean ====
section
/-! SUPPORT. Statements made per command, one lemma per constructor: the fixed fields of a command's word (30_encoding.md
R71, R73). -/
namespace Sys2Proof

/-! ## The fields of a packed word -/

theorem packWord_toNat (b a op : Byte) : (packWord b a op).toNat = b.toNat * 65536 + a.toNat * 256 + op.toNat := by
  have hb := b.isLt; have ha := a.isLt; have ho := op.isLt
  have h1 : ((0 : Byte) ++ b : BitVec 16).toNat = (0 : Byte).toNat <<< 8 ||| b.toNat := BitVec.toNat_append _ _
  have h2 : ((0 : Byte) ++ b ++ a : BitVec 24).toNat = ((0 : Byte) ++ b : BitVec 16).toNat <<< 8 ||| a.toNat :=
    BitVec.toNat_append _ _
  have h3 : (packWord b a op).toNat = ((0 : Byte) ++ b ++ a : BitVec 24).toNat <<< 8 ||| op.toNat :=
    BitVec.toNat_append _ _
  rw [h3, h2, h1, ← Nat.shiftLeft_add_eq_or_of_lt ho, ← Nat.shiftLeft_add_eq_or_of_lt ha,
    ← Nat.shiftLeft_add_eq_or_of_lt hb]
  have h0 : (0 : Byte).toNat = 0 := rfl
  simp only [Nat.shiftLeft_eq, h0]
  omega

theorem fieldOpcode_toNat (w : Word) : (fieldOpcode w).toNat = w.toNat % 256 := by simp [fieldOpcode]
theorem fieldA_toNat (w : Word) : (fieldA w).toNat = w.toNat / 256 % 256 := by
  simp [fieldA, Nat.shiftRight_eq_div_pow]
theorem fieldB_toNat (w : Word) : (fieldB w).toNat = w.toNat / 65536 % 256 := by
  simp [fieldB, Nat.shiftRight_eq_div_pow]
theorem fieldRsv_toNat (w : Word) : (fieldRsv w).toNat = w.toNat / 16777216 := by
  have := w.isLt
  simp [fieldRsv, Nat.shiftRight_eq_div_pow]
  omega

@[simp] theorem fieldOpcode_packWord (b a op : Byte) : fieldOpcode (packWord b a op) = op := by
  apply BitVec.eq_of_toNat_eq
  rw [fieldOpcode_toNat, packWord_toNat]
  omega

@[simp] theorem fieldA_packWord (b a op : Byte) : fieldA (packWord b a op) = a := by
  apply BitVec.eq_of_toNat_eq
  rw [fieldA_toNat, packWord_toNat]
  omega

@[simp] theorem fieldB_packWord (b a op : Byte) : fieldB (packWord b a op) = b := by
  apply BitVec.eq_of_toNat_eq
  rw [fieldB_toNat, packWord_toNat]
  omega

@[simp] theorem fieldRsv_packWord (b a op : Byte) : fieldRsv (packWord b a op) = 0 := by
  apply BitVec.eq_of_toNat_eq
  rw [fieldRsv_toNat, packWord_toNat]
  have := b.isLt
  simp
  omega

/-! ## The family `FixedFields` -/
namespace Laws
namespace FixedFields

/-- The OPCODE of each command (R73). -/
def opcode : Instr → Byte
  | .init => 0x01
  | .gfAdd _ _ => 0x02
  | .gfMul _ _ => 0x03
  | .gfDiv _ _ => 0x04
  | .gfInv _ => 0x05
  | .gfExp _ => 0x06
  | .gfLog _ => 0x07
  | .matMul => 0x10
  | .matInv => 0x11
  | .ctxCreate _ _ => 0x20
  | .ctxRelease => 0x21
  | .ctxGenstore => 0x22
  | .rsEncode _ _ => 0x30
  | .rsReconstruct _ _ => 0x31

/-- The command's word carries its opcode, and RSV is zero (R71, R73). -/
def Statement (i : Instr) : Prop := fieldOpcode (encode i) = opcode i ∧ fieldRsv (encode i) = 0

theorem init : Statement .init := by simp [Statement, encode, opcode]
theorem gfAdd (a b : Byte) : Statement (.gfAdd a b) := by simp [Statement, encode, opcode]
theorem gfMul (a b : Byte) : Statement (.gfMul a b) := by simp [Statement, encode, opcode]
theorem gfDiv (a b : Byte) : Statement (.gfDiv a b) := by simp [Statement, encode, opcode]
theorem gfInv (a : Byte) : Statement (.gfInv a) := by simp [Statement, encode, opcode]
theorem gfExp (e : Byte) : Statement (.gfExp e) := by simp [Statement, encode, opcode]
theorem gfLog (a : Byte) : Statement (.gfLog a) := by simp [Statement, encode, opcode]
theorem matMul : Statement .matMul := by simp [Statement, encode, opcode]
theorem matInv : Statement .matInv := by simp [Statement, encode, opcode]
theorem ctxCreate (k m : Byte) : Statement (.ctxCreate k m) := by simp [Statement, encode, opcode]
theorem ctxRelease : Statement .ctxRelease := by simp [Statement, encode, opcode]
theorem ctxGenstore : Statement .ctxGenstore := by simp [Statement, encode, opcode]
theorem rsEncode (nd np : Byte) : Statement (.rsEncode nd np) := by simp [Statement, encode, opcode]
theorem rsReconstruct (nd np : Byte) : Statement (.rsReconstruct nd np) := by simp [Statement, encode, opcode]

end FixedFields
end Laws
end Sys2Proof
end

