-- ==== Sys2Proof/Machine/HostProgram.lean ====
section
/-! DEFINITION. The host's pseudo-instructions (30_encoding.md R78) as the events they put on the schedule. They are not
core commands; the host's own control flow is outside the core (R21). -/
namespace Sys2Proof
namespace Machine

/-- The pseudo-instructions of R78. -/
inductive Pseudo where
  | csrw (r : Csr) (v : Word)
  | csrr (r : Csr)
  | memw (n a : Nat) (v : Word)
  | memr (n a : Nat)
  | wait
  | run (i : Instr)
  | setShard (i : Fin 256) (base : Word)
  | ack
deriving DecidableEq, Repr

/-- A CSR write by the register's name (R78). -/
def csrwEvent (r : Csr) (v : Word) : Event := .host (.csrWrite (BitVec.ofNat 12 (csrOffset r)) 4 v)

/-- A CSR read by the register's name (R78). -/
def csrrEvent (r : Csr) : Event := .host (.csrRead (BitVec.ofNat 12 (csrOffset r)) 4)

/-- The events of a pseudo-instruction (R78). WAIT polls STATUS until BUSY = 0; the polls before the complete step only
read, so it is the complete step and the poll that sees BUSY = 0 (R62, R197). -/
def Pseudo.events : Pseudo → List Event
  | .csrw r v => [csrwEvent r v]
  | .csrr r => [csrrEvent r]
  | .memw n a v => [.host (.memWrite a n v)]
  | .memr n a => [.host (.memRead a n)]
  | .wait => [.complete, csrrEvent .status]
  | .run i => [csrwEvent .cmd (encode i), .complete, csrrEvent .status]
  | .setShard i base => [csrwEvent (.shardBase i) base]
  | .ack => [csrwEvent .status 0x0000000A]

/-- The schedule of a host program: the events of its pseudo-instructions in order (R64 (a)). -/
def schedule : List Pseudo → List Event
  | [] => []
  | p :: ps => p.events ++ schedule ps

end Machine
end Sys2Proof
end

