-- ==== Sys2Proof/Safety.lean ====
section
/-! DEFINITION. What counts as a well-formed state and a safe run, in the terms the statements use. -/
namespace Sys2Proof
namespace Safety

open Machine

/-- DMEM is in its canonical form and inside the address space (20_memory.md R50). -/
def MemoryOk (s : State) : Prop := Memory.wf s.dmem = true ∧ Memory.inside s.dmem s.build.memBytes = true

/-- BUSY is 1 exactly while a command runs, and then no completion is showing (R30, R175). -/
def HandshakeOk (s : State) : Prop :=
  s.status.busy = s.runCmd.isSome ∧ (s.status.busy = true → s.status.done = false ∧ s.status.err = false)

/-- ERR says that ERR_CODE is not None, and a cause is wrapped only in ReconstructionImpossible (R26, R171). -/
def ErrorOk (s : State) : Prop :=
  (s.status.err = true ↔ s.status.errCode ≠ .noError) ∧
  (s.status.errCause ≠ .noCause → s.status.errCode = .reconstructionImpossible)

/-- The tables are those INIT fills, once INIT has completed (R38, R99). -/
def TablesOk (s : State) : Prop := s.status.initDone = true → s.tables = initTables s.build.gfPoly

/-- A context exists only after INIT, has a legal shape and holds the matrix CTX.CREATE built; without one CTX reads 0
(R31, R39, R134-R136). -/
def ContextOk (s : State) : Prop :=
  (s.status.ctxValid = true → s.status.initDone = true ∧ legalShape s.ctx.k s.ctx.m = true ∧
    s.gen = buildGen (initTables s.build.gfPoly) s.K s.M) ∧
  (s.status.ctxValid = false → s.ctx.k = 0 ∧ s.ctx.m = 0 ∧ s.gen = [])

/-- While `rst` is asserted the core is idle and uninitialised (R190). -/
def ResetOk (s : State) : Prop :=
  s.rst = true → s.runCmd = none ∧ s.status = Status.reset ∧ s.irqEn = false

/-- The invariant of the machine: what every state reached from reset satisfies. -/
structure Inv (s : State) : Prop where
  build     : s.build.wellFormed = true
  memory    : MemoryOk s
  handshake : HandshakeOk s
  error     : ErrorOk s
  tables    : TablesOk s
  context   : ContextOk s
  resetPin  : ResetOk s

/-- The run of a host program has ended (R200): its last operation is done and no command is running. (No model fault is
marked: a faulted run has no state.) -/
def RunEnded (s : State) : Prop := s.events = [] ∧ s.status.busy = false

/-- A state is reached from `s` by some number of steps without a model fault. -/
inductive Reaches (s : State) : State → Prop where
  | here : Reaches s s
  | step {t u : State} : Reaches s t → step t = .next u → Reaches s u

end Safety
end Sys2Proof
end

