-- ==== Sys2Proof/Certificates/Slice0/Obligations.lean ====
section
/-! DEFINITION. The statements about the RS-GF256 codec core for the provers. Each docstring names the rule it follows. -/

namespace Sys2Proof
namespace Claims

open Machine

/-- Every register, pin and port that no command writes (30_encoding.md R76 lists what commands read) is the same. -/
def SameOperands (s t : State) : Prop :=
  t.build = s.build ∧ t.irqEn = s.irqEn ∧ t.blockSize = s.blockSize ∧ t.maBase = s.maBase ∧ t.mbBase = s.mbBase ∧
  t.mcBase = s.mcBase ∧ t.dimA = s.dimA ∧ t.dimB = s.dimB ∧ t.erase = s.erase ∧ t.shardBase = s.shardBase ∧
  t.rst = s.rst ∧ t.resp = s.resp ∧ t.events = s.events

/-- The tables, the context with its matrix, RESULT, and the count of free values are the same. -/
def SameInner (s t : State) : Prop :=
  t.tables = s.tables ∧ t.ctx = s.ctx ∧ t.gen = s.gen ∧ t.result = s.result ∧ t.freeCtr = s.freeCtr

/-- Every DMEM byte reads as before. -/
def SameMemory (s t : State) : Prop := ∀ a, Memory.byte? t.dmem a = Memory.byte? s.dmem a

/-- Every DMEM byte outside the region reads as before. -/
def SameOutside (s t : State) (r : Region) : Prop :=
  ∀ a, ¬(r.base ≤ a ∧ a < r.base + r.len) → Memory.byte? t.dmem a = Memory.byte? s.dmem a

/-- The command has completed without error: BUSY, ERR, ERR_CODE and ERR_CAUSE are 0, DONE is 1, no command is running,
and the other flags are as they were. -/
def Succeeded (s t : State) : Prop :=
  t.runCmd = none ∧ t.status = { s.status with
    busy := false, done := true, err := false, errCode := .noError, errCause := .noCause }

/-- `s` after the running command completed with an error: nothing but STATUS (and RUN_CMD) changes (60_exceptions.md
R172, R175). -/
def withError (s : State) (code : ErrCode) (cause : ErrCause) : State :=
  { s with runCmd := none, status := { s.status with
      busy := false, done := true, err := true, errCode := code, errCause := cause } }

/-- The identity matrix's entry. -/
def delta (r c : Nat) : Byte := if r = c then 1 else 0

/-- Every byte of the region is written. -/
def Written (s : State) (r : Region) : Prop := ∀ a, r.base ≤ a → a < r.base + r.len → Memory.byte? s.dmem a ≠ none

/-- The region lies in DMEM (00_scope.md R14). -/
def InRange (s : State) (r : Region) : Prop := r.base + r.len ≤ 2 ^ s.build.addrW.toNat

/-- The regions share no address (00_scope.md R14). -/
def Apart (r q : Region) : Prop := ∀ a, ¬((r.base ≤ a ∧ a < r.base + r.len) ∧ (q.base ≤ a ∧ a < q.base + q.len))

/-- The element `[r][c]` of the row-major matrix with `cols` columns at `base`, in DMEM (41_matrix_engine.md R110). -/
def matByte (s : State) (base : Word) (cols r c : Nat) : Byte := Memory.byteAt s.dmem (base.toNat + r * cols + c)

/-- A dimension is legal: 1..256 (10_state.md R34). -/
def DimOk (d : BitVec 9) : Prop := 1 ≤ d.toNat ∧ d.toNat ≤ 256

/-- What RS.ENCODE and RS.RECONSTRUCT need before they touch DMEM (43_encode_reconstruct.md R153, 20_memory.md R56):
the tables, a context, matching counts, a block size, and every shard in range. -/
def CodecReady (s : State) (nd np : Byte) : Prop :=
  s.status.initDone = true ∧ s.status.ctxValid = true ∧ nd = s.ctx.k ∧ np = s.ctx.m ∧ s.blockSize ≠ 0 ∧
  ∀ i, i < s.K + s.M → InRange s (s.shardRegion i)

/-- `e`, the number of erased shards below `K + M` (43_encode_reconstruct.md R154). -/
def erasureCount (s : State) : Nat := ((List.range (s.K + s.M)).filter s.erased).length

/-- The spec's word of each command (30_encoding.md R71, R73), as a number. -/
def specWord : Instr → Nat
  | .init => 0x01
  | .gfAdd a b => 0x02 + 256 * a.toNat + 65536 * b.toNat
  | .gfMul a b => 0x03 + 256 * a.toNat + 65536 * b.toNat
  | .gfDiv a b => 0x04 + 256 * a.toNat + 65536 * b.toNat
  | .gfInv a => 0x05 + 256 * a.toNat
  | .gfExp e => 0x06 + 256 * e.toNat
  | .gfLog a => 0x07 + 256 * a.toNat
  | .matMul => 0x10
  | .matInv => 0x11
  | .ctxCreate k m => 0x20 + 256 * k.toNat + 65536 * m.toNat
  | .ctxRelease => 0x21
  | .ctxGenstore => 0x22
  | .rsEncode nd np => 0x30 + 256 * nd.toNat + 65536 * np.toNat
  | .rsReconstruct nd np => 0x31 + 256 * nd.toNat + 65536 * np.toNat

/-- The three cases of an illegal word (30_encoding.md R74), on the word's bytes as numbers. -/
def IllegalBytes (op a b r : Nat) : Prop :=
  (op = 0x00 ∨ (0x08 ≤ op ∧ op ≤ 0x0F) ∨ (0x12 ≤ op ∧ op ≤ 0x1F) ∨ (0x23 ≤ op ∧ op ≤ 0x2F) ∨ 0x32 ≤ op) ∨
  r ≠ 0 ∨
  ((op = 0x01 ∨ op = 0x10 ∨ op = 0x11 ∨ op = 0x21 ∨ op = 0x22) ∧ (a ≠ 0 ∨ b ≠ 0)) ∨
  ((op = 0x05 ∨ op = 0x06 ∨ op = 0x07) ∧ b ≠ 0)

/-- A command in assembler syntax (30_encoding.md R77). -/
def asm : Instr → AsmCommand
  | .init => ⟨"INIT", []⟩
  | .gfAdd a b => ⟨"GF.ADD", [a.toNat, b.toNat]⟩
  | .gfMul a b => ⟨"GF.MUL", [a.toNat, b.toNat]⟩
  | .gfDiv a b => ⟨"GF.DIV", [a.toNat, b.toNat]⟩
  | .gfInv a => ⟨"GF.INV", [a.toNat]⟩
  | .gfExp e => ⟨"GF.EXP", [e.toNat]⟩
  | .gfLog a => ⟨"GF.LOG", [a.toNat]⟩
  | .matMul => ⟨"MAT.MUL", []⟩
  | .matInv => ⟨"MAT.INV", []⟩
  | .ctxCreate k m => ⟨"CTX.CREATE", [k.toNat, m.toNat]⟩
  | .ctxRelease => ⟨"CTX.RELEASE", []⟩
  | .ctxGenstore => ⟨"CTX.GENSTORE", []⟩
  | .rsEncode nd np => ⟨"RS.ENCODE", [nd.toNat, np.toNat]⟩
  | .rsReconstruct nd np => ⟨"RS.RECONSTRUCT", [nd.toNat, np.toNat]⟩

/-- The field commands, which use neither DMEM nor the context. -/
def isField : Instr → Bool
  | .gfAdd _ _ => true
  | .gfMul _ _ => true
  | .gfDiv _ _ => true
  | .gfInv _ => true
  | .gfExp _ => true
  | .gfLog _ => true
  | .init => false
  | .matMul => false
  | .matInv => false
  | .ctxCreate _ _ => false
  | .ctxRelease => false
  | .ctxGenstore => false
  | .rsEncode _ _ => false
  | .rsReconstruct _ _ => false

/-- The commands that store to DMEM (20_memory.md R57). -/
def isStoring : Instr → Bool
  | .matMul => true
  | .matInv => true
  | .ctxGenstore => true
  | .rsEncode _ _ => true
  | .rsReconstruct _ _ => true
  | .init => false
  | .gfAdd _ _ => false
  | .gfMul _ _ => false
  | .gfDiv _ _ => false
  | .gfInv _ => false
  | .gfExp _ => false
  | .gfLog _ => false
  | .ctxCreate _ _ => false
  | .ctxRelease => false

/-- `s`, to which a command's effects have been applied, after the command completed without error (60_exceptions.md
R175). -/
def withSuccess (s : State) : State :=
  { s with runCmd := none, status := { s.status with
      busy := false, done := true, err := false, errCode := .noError, errCause := .noCause } }

/-- `s` after a command stored `v` in RESULT and completed without error: nothing else changes (10_state.md R29,
60_exceptions.md R175). -/
def withResult (s : State) (v : Byte) : State := withSuccess { s with result := v }

/-- The tables are filled for a legal polynomial (40_field_arithmetic.md R91, R99). -/
def FieldReady (s : State) : Prop :=
  s.status.initDone = true ∧ s.build.gfPoly ∈ Config.legalPolys ∧ s.tables = initTables s.build.gfPoly

/-- `ALPHA^n` for the polynomial `p`: `xtime` iterated from 1 (40_field_arithmetic.md R92). -/
def alphaPow (p : BitVec 9) (n : Nat) : Byte := (xtime p)^[n] 1

/-- MAT.MUL's shapes are legal and fit (41_matrix_engine.md R112). -/
def MulShapesOk (s : State) : Prop :=
  DimOk s.dimA.rows ∧ DimOk s.dimA.cols ∧ DimOk s.dimB.rows ∧ DimOk s.dimB.cols ∧ s.dimA.cols = s.dimB.rows

/-- MAT.INV's shape is legal and square (41_matrix_engine.md R115). -/
def InvShapeOk (s : State) : Prop := DimOk s.dimA.rows ∧ s.dimA.cols = s.dimA.rows

/-- `XOR_{x in [0, n)} A(i, x) * X(x, j)`: the entry `[i][j]` of the product (41_matrix_engine.md R111). -/
def dot (t : Tables) (n : Nat) (A X : Nat → Nat → Byte) (i j : Nat) : Byte := xorSum n fun x => gfMul t (A i x) (X x j)

/-- `A X = I_n` (41_matrix_engine.md R114). -/
def ProductIsIdentity (t : Tables) (n : Nat) (A X : Nat → Nat → Byte) : Prop :=
  ∀ i j, i < n → j < n → dot t n A X i j = delta i j

/-- `(k, m)` is legal (00_scope.md R7). -/
def LegalCounts (k m : Nat) : Prop := 1 ≤ k ∧ 1 ≤ m ∧ k + m ≤ 256

/-- The regions of shards `i` and `j` share no address. -/
def ShardsDisjoint (s : State) (i j : Nat) : Prop := Apart (s.shardRegion i) (s.shardRegion j)

/-- RS.ENCODE's hazard is absent: no parity shard overlaps another shard (20_memory.md R57). -/
def EncodeClear (s : State) : Prop :=
  ∀ i j, s.K ≤ i → i < s.K + s.M → j < s.K + s.M → i ≠ j → ShardsDisjoint s i j

/-- RS.RECONSTRUCT's hazard is absent: no erased shard overlaps another shard (20_memory.md R57). -/
def ReconstructClear (s : State) : Prop :=
  ∀ i j, i < s.K + s.M → s.erased i = true → j < s.K + s.M → i ≠ j → ShardsDisjoint s i j

/-- The byte `[j]` of shard `i`, as DMEM holds it. -/
def shardByte? (s : State) (i j : Nat) : Option Byte := Memory.byte? s.dmem (s.shardAt i + j)

/-- Every byte outside the listed shards reads as before. -/
def SameOutsideShards (s t : State) (shards : Nat → Prop) : Prop :=
  ∀ a, (∀ i, i < s.K + s.M → shards i → ¬(s.shardAt i ≤ a ∧ a < s.shardAt i + s.blockSize.toNat)) →
    Memory.byte? t.dmem a = Memory.byte? s.dmem a

/-- The words of every register right after reset (10_state.md R42), for a core built with `b`. -/
def resetWord (b : Build) : Csr → Word
  | .id => 0x52534331
  | .param => BitVec.ofNat 32 (b.gfPoly.toNat + 65536 * b.addrW.toNat)
  | .ctrl => 0
  | .status => 0
  | .cmd => 0
  | .result => 0
  | .ctx => 0
  | .blockSize => 0
  | .maBase => 0
  | .mbBase => 0
  | .mcBase => 0
  | .dimA => 0
  | .dimB => 0
  | .erase _ => 0
  | .shardBase _ => 0

/-- The RW-L registers (10_state.md R37). -/
def isLocked : Csr → Bool
  | .blockSize => true
  | .maBase => true
  | .mbBase => true
  | .mcBase => true
  | .dimA => true
  | .dimB => true
  | .erase _ => true
  | .shardBase _ => true
  | .id => false
  | .param => false
  | .ctrl => false
  | .status => false
  | .cmd => false
  | .result => false
  | .ctx => false

/-- The event of a 32-bit CSR write at a byte offset. -/
def writeAt (off : Nat) (v : Word) : Event := .host (.csrWrite (BitVec.ofNat 12 off) 4 v)

/-- The event of a 32-bit CSR read at a byte offset. -/
def readAt (off : Nat) : Event := .host (.csrRead (BitVec.ofNat 12 off) 4)

/-- `s` with the event `e` next and nothing else scheduled. -/
def scheduled (s : State) (e : Event) : State := { s with events := [e] }

/-- The byte offset of each register, as the table of 10_state.md R22 lists it. -/
def specOffset : Csr → Nat
  | .id => 0x000
  | .param => 0x004
  | .ctrl => 0x008
  | .status => 0x00C
  | .cmd => 0x010
  | .result => 0x014
  | .ctx => 0x018
  | .blockSize => 0x01C
  | .maBase => 0x020
  | .mbBase => 0x024
  | .mcBase => 0x028
  | .dimA => 0x02C
  | .dimB => 0x030
  | .erase w => 0x040 + 4 * w.val
  | .shardBase i => 0x400 + 4 * i.val

/-- A bus address lies in the CSR window (00_scope.md R6, 10_state.md R22). -/
def InCsrWindow (addr : Nat) : Prop := Config.csrBase ≤ addr ∧ addr < Config.csrBase + 4096

/-- A host DMEM access is legal (20_memory.md R52). -/
def LegalAccess (s : State) (a n : Nat) : Prop := (n = 1 ∨ n = 2 ∨ n = 4) ∧ a % n = 0 ∧ a + n ≤ 2 ^ s.build.addrW.toNat

/-- A host read of `n` bytes at `a` is performed (20_memory.md R52): byte `i` of the returned word is the byte at `a + i`, a
free value where that byte is unwritten (assumption 1), the bytes above `n` are 0, and nothing changes but the response
and the count of free values. -/
def ReadPerformed (s : State) (a n : Nat) : Prop :=
  ∃ w : Word, step (scheduled s (.host (.memRead a n))) =
      .next { s with events := [], resp := .data w, freeCtr := s.freeCtr + n } ∧
    w.toNat < 256 ^ n ∧
    ∀ i, i < n → BitVec.ofNat 8 (w.toNat / 256 ^ i) =
      (Memory.byte? s.dmem (a + i)).getD (Config.unwrittenByte (s.freeCtr + i))

/-- A host write of the `n` low bytes of `v` at `a` is performed (20_memory.md R52): byte `i` goes to `a + i`, every other
byte reads as before, and nothing else changes but the response. -/
def WritePerformed (s : State) (a n : Nat) (v : Word) : Prop :=
  ∃ m : Memory, step (scheduled s (.host (.memWrite a n v))) =
      .next { s with events := [], resp := .written, dmem := m } ∧
    (∀ i, i < n → Memory.byte? m (a + i) = some (BitVec.ofNat 8 (v.toNat / 256 ^ i))) ∧
    ∀ x, ¬(a ≤ x ∧ x < a + n) → Memory.byte? m x = Memory.byte? s.dmem x

/-- `s` with nothing scheduled and the bytes of a host write stored. -/
def afterHostWrite (s : State) (a n : Nat) (v : Word) : State :=
  State.store { s with events := [] } (hostCells a n v)

/-- Completing in `s`, the command `i` would report a detected error (00_scope.md R12). -/
def ReportsError (i : Instr) (s : State) : Prop := ∃ t, exec i s = .next t ∧ t.status.err = true

/-- The access shares a byte with a region the command reads or writes (20_memory.md R59). -/
def TouchesRegions (s : State) (i : Instr) (a n : Nat) : Prop :=
  ∃ r ∈ touchedRegions s i, ∃ x, (a ≤ x ∧ x < a + n) ∧ r.base ≤ x ∧ x < r.base + r.len

/-- The next step is the complete step of the running command, alone or with a CMD write in the same cycle. -/
def CompletesNext (s : State) : Prop :=
  s.events = [] ∨ (∃ es, s.events = .complete :: es) ∨ ∃ v es, s.events = .cmdWriteAtCompletion v :: es

end Claims
end Sys2Proof

open Sys2Proof Sys2Proof.Machine Sys2Proof.Safety Sys2Proof.Claims

/-! ## Reset -/

/-- 10_state.md R42: every register's value after reset, no command running, `irq` low, every DMEM byte unwritten. -/
def Obligations.ResetLeavesSpecValues : Prop :=
  (∀ r : Csr, State.reset.csrValue r = resetWord Config.defaultBuild r) ∧
  State.reset.csrValue .id = 0x52534331 ∧ State.reset.csrValue .param = 0x0014011D ∧
  State.reset.runCmd = none ∧ State.reset.irq = false ∧ ∀ a, Memory.byte? State.reset.dmem a = none

/-- 70_reset_and_hazards.md R190, R192: asserting `rst` sets every register to its reset value, ends the running command
without a completion, and drives `irq` to 0; while `rst` is asserted a CSR access gets no response and has no effect;
releasing `rst` changes nothing else, the CSRs answer again, and after a reset the core is then idle with its interrupt
masked. (Assertion and release as two events are the model's form, assumption 5, and so is that an access under `rst` has
no effect, assumption 10.) -/
def Obligations.AssertingResetSetsEveryRegister : Prop :=
  (∀ (s : State) (es : List Event), s.events = .assertReset :: es →
    ∃ t, step s = .next t ∧ (∀ r : Csr, t.csrValue r = resetWord s.build r) ∧ t.runCmd = none ∧ t.irq = false ∧
      t.rst = true ∧ t.build = s.build ∧ t.events = es) ∧
  (∀ (s : State) (off : BitVec 12) (n : Nat) (v : Word), s.rst = true →
    hostAccess (.csrRead off n) s = .next { s with resp := .noResponse } ∧
    hostAccess (.csrWrite off n v) s = .next { s with resp := .noResponse }) ∧
  (∀ (s : State) (es : List Event), s.events = .releaseReset :: es →
    step s = .next { s with events := es, rst := false }) ∧
  (∀ (s : State) (r : Csr), s.events = [.releaseReset, readAt (specOffset r)] →
    ∃ t, step s = .next t ∧ step t = .next { s with events := [], rst := false, resp := .data (s.csrValue r) }) ∧
  (∀ (s : State) (es : List Event), s.events = .assertReset :: .releaseReset :: es →
    ∃ t u, step s = .next t ∧ step t = .next u ∧ u.rst = false ∧ u.runCmd = none ∧ u.status.busy = false ∧
      u.irqEn = false ∧ u.irq = false ∧ u.events = es ∧ ∀ r : Csr, u.csrValue r = resetWord s.build r)

/-- 70_reset_and_hazards.md R191: at power-on every DMEM byte is unwritten; reset changes no DMEM byte while BUSY = 0; while
BUSY = 1 the bytes in the aborted command's write regions become unwritten, and no others. That this is so also for a
command that would have reported an error is the model's reading (assumption 8). -/
def Obligations.ResetUnwritesOnlyAbortedWriteRegions : Prop :=
  (∀ a, Memory.byte? State.reset.dmem a = none) ∧
  ∀ (s t : State) (es : List Event), s.events = .assertReset :: es → step s = .next t →
    (s.status.busy = false → SameMemory s t) ∧
    (s.status.busy = true → s.running = none → SameMemory s t) ∧
    (∀ i, s.status.busy = true → s.running = some i →
      ∀ a, Memory.byte? t.dmem a =
        if ∃ r ∈ writeRegions s i, r.base ≤ a ∧ a < r.base + r.len then none else Memory.byte? s.dmem a)

/-! ## Acceptance, completion and the schedule -/

/-- 10_state.md R30: a CMD write is accepted by an idle core and dropped with OVERRUN by a busy one. -/
def Obligations.CmdWriteIsAcceptedOrDropped : Prop :=
  ∀ (s : State) (v : Word), s.rst = false →
    step (scheduled s (writeAt 0x010 v)) = .next (
      if s.status.busy = true then
        { s with events := [], resp := .written, status := { s.status with overrun := true } }
      else
        { s with events := [], resp := .written, runCmd := some v, status := { s.status with
            busy := true, done := false, err := false, errCode := .noError, errCause := .noCause } })

/-- 60_exceptions.md R175: `complete(code, cause)`, with the effects applied on success and none on an error. -/
def Obligations.CompletionWritesStatus : Prop :=
  ∀ (s t : State) (code : ErrCode) (cause : ErrCause),
    s.finish (.success t) = .next (t.complete .noError .noCause) ∧
    s.finish (.error code cause) = .next (s.complete code cause) ∧
    s.complete code cause = { s with runCmd := none, status := { s.status with
      errCode := code, errCause := cause, err := decide (code ≠ .noError), busy := false, done := true } } ∧
    (s.complete code cause).irq = s.irqEn

/-- 60_exceptions.md R172: a command word that completes with an error, an illegal one included, changes nothing but
STATUS (and RUN_CMD, R175). -/
def Obligations.ErrorsChangeOnlyStatus : Prop :=
  ∀ (w : Word) (s t : State), completeWord w s = .next t → t.status.errCode ≠ .noError →
    t.status.err = true ∧ t = withError s t.status.errCode t.status.errCause

/-- A step runs the decoded command (60_exceptions.md R173, R175; 70_reset_and_hazards.md R197): with nothing scheduled,
with the complete step scheduled, and for a command placed by `withFetchWord` (the forms are the model's, assumptions 4
and 5); and a running illegal word completes with IllegalCommand and no other effect (30_encoding.md R74). -/
def Obligations.StepRunsDecodedCommand : Prop :=
  (∀ (s : State) (w : Word) (i : Instr), s.runCmd = some w → decode w = .ok i →
    (s.events = [] → step s = exec i s) ∧
    (∀ es, s.events = .complete :: es → step s = exec i { s with events := es })) ∧
  (∀ (s : State) (w : Nat) (i : Instr), w < 2 ^ 32 → decode (BitVec.ofNat 32 w) = .ok i →
    step (s.withFetchWord 32 w) = exec i (s.accept (BitVec.ofNat 32 w))) ∧
  (∀ (s : State) (w : Word) (e : IllegalWord), s.runCmd = some w → decode w = .error e →
    (s.events = [] → step s = .next (withError s .illegalCommand .noCause)) ∧
    (∀ es, s.events = .complete :: es → step s = .next (withError { s with events := es } .illegalCommand .noCause)))

/-- 60_exceptions.md R187: an idle core keeps every piece of state. That the core's turn comes when nothing is scheduled is
the model's choice (assumption 5). -/
def Obligations.IdleCoreKeepsState : Prop :=
  ∀ s : State, HandshakeOk s → s.status.busy = false → s.events = [] → step s = .next s

/-- 70_reset_and_hazards.md R197: the complete step of a running command is always enabled: it completes the command or
ends in a model fault, and no command is left without a meaning. -/
def Obligations.RunningCommandCompletes : Prop :=
  ∀ (s : State) (w : Word), s.runCmd = some w → s.events = [] →
    (∃ t, step s = .next t ∧ t.runCmd = none ∧ t.status.busy = false ∧ t.status.done = true) ∨
    (∃ a, step s = .fault (.uninitRead a)) ∨ step s = .fault .overlapHazard

/-- 60_exceptions.md R179: when a CMD write arrives in the cycle of a completion, the completion comes first and the
write is accepted. -/
def Obligations.CompletionBeatsCmdWrite : Prop :=
  ∀ (s t : State) (w v : Word), s.rst = false → s.runCmd = some w →
    completeWord w { s with events := [] } = .next t →
    step (scheduled s (.cmdWriteAtCompletion v)) = .next { t.accept v with resp := .written }

/-! ## Decoding -/

/-- 30_encoding.md R71, R73, R75: every command encodes to the spec's word, that word decodes to the command, and every
word that decodes is the word of the command it decodes to. -/
def Obligations.DecodeAndEncodeAgree : Prop :=
  (∀ i : Instr, (encode i).toNat = specWord i ∧ decode (encode i) = .ok i) ∧
  (∀ (w : Word) (i : Instr), decode w = .ok i → encode i = w)

/-- 30_encoding.md R79, whose words the spec marks as derived from R71 and R73: the example words decode to their
commands. -/
def Obligations.ExampleWordsDecode : Prop :=
  decode 0x00000001 = .ok .init ∧ decode 0x00CA5302 = .ok (.gfAdd 0x53 0xCA) ∧
  decode 0x00CA5303 = .ok (.gfMul 0x53 0xCA) ∧ decode 0x00005304 = .ok (.gfDiv 0x53 0x00) ∧
  decode 0x00005305 = .ok (.gfInv 0x53) ∧ decode 0x00000806 = .ok (.gfExp 8) ∧ decode 0x00001D07 = .ok (.gfLog 0x1D) ∧
  decode 0x00000010 = .ok .matMul ∧ decode 0x00000011 = .ok .matInv ∧ decode 0x00020420 = .ok (.ctxCreate 4 2) ∧
  decode 0x00000021 = .ok .ctxRelease ∧ decode 0x00000022 = .ok .ctxGenstore ∧
  decode 0x00020430 = .ok (.rsEncode 4 2) ∧ decode 0x00020431 = .ok (.rsReconstruct 4 2) ∧
  decode 0x01020430 = .error .rsvNonzero

/-- 30_encoding.md R74: exactly the listed words are illegal; an illegal word is accepted like any other, and completes
with IllegalCommand (code 1) and no other effect. -/
def Obligations.IllegalWordsAreRejected : Prop :=
  ErrCode.illegalCommand.bits = 1 ∧
  ∀ w : Word,
    ((∃ e, decode w = .error e) ↔
      IllegalBytes (w.toNat % 256) (w.toNat / 256 % 256) (w.toNat / 65536 % 256) (w.toNat / 16777216)) ∧
    (∀ (s : State) (e : IllegalWord), decode w = .error e →
      completeWord w s = .next (withError s .illegalCommand .noCause) ∧
      (s.rst = false → s.status.busy = false →
        step (scheduled s (writeAt 0x010 w)) = .next { s with events := [], resp := .written, runCmd := some w, status :=
          { s.status with busy := true, done := false, err := false, errCode := .noError, errCause := .noCause } }))

/-- 30_encoding.md R77: the assembler gives each command its word and refuses everything that is no command: an operand
outside 0..255, a missing operand, an extra one, an unknown mnemonic. -/
def Obligations.AssemblerAcceptsExactlyTheCommands : Prop :=
  (∀ i : Instr, assemble (asm i) = some (encode i)) ∧
  (∀ (c : AsmCommand) (w : Word), assemble c = some w → ∃ i, c = asm i ∧ w = encode i)

/-- 60_exceptions.md R173: every command but INIT completes with NotInitialized while INIT_DONE = 0. -/
def Obligations.CommandsNeedInit : Prop :=
  ∀ (i : Instr) (s : State), i ≠ .init → s.status.initDone = false →
    exec i s = .next (withError s .notInitialized .noCause)

/-! ## Field arithmetic -/

/-- 40_field_arithmetic.md R91: the legal values of `GF_POLY` are the polynomials for which iterating R92 from 1 reaches
255 distinct non-zero values and then returns to 1. (The spec found its list "by exhaustive evaluation".) -/
def Obligations.LegalPolynomialsArePrimitive : Prop :=
  Config.defaultBuild.gfPoly = 0x11D ∧
  ∀ p : BitVec 9, p.getLsbD 8 = true →
    (p ∈ Config.legalPolys ↔
      (∀ i j, i < 255 → j < 255 → alphaPow p i = alphaPow p j → i = j) ∧
      (∀ i, i < 255 → alphaPow p i ≠ 0) ∧ alphaPow p 255 = 1)

/-- 40_field_arithmetic.md R92: how INIT fills the exponent table, and that it is then a permutation of 1..255 that
closes the cycle, which the spec marks as derived from R91. -/
def Obligations.ExpTableIsFilledByXtime : Prop :=
  (∀ p : BitVec 9, (initTables p).expAt 0 = 1 ∧
    ∀ i, i < 254 → (initTables p).expAt (i + 1) =
      (((initTables p).expAt i) <<< 1) ^^^ (if ((initTables p).expAt i).getLsbD 7 then p.setWidth 8 else 0)) ∧
  (∀ p ∈ Config.legalPolys,
    (∀ i, i < 255 → (initTables p).expAt i ≠ 0) ∧
    (∀ b : Byte, b ≠ 0 → ∃ i, i < 255 ∧ (initTables p).expAt i = b ∧ ∀ j, j < 255 → (initTables p).expAt j = b → j = i) ∧
    xtime p ((initTables p).expAt 254) = 1)

/-- 40_field_arithmetic.md R93: `LUT_LOG[LUT_EXP[i]] = i`, and every log is in 0..254. -/
def Obligations.LogTableInvertsExpTable : Prop :=
  ∀ p ∈ Config.legalPolys,
    (∀ i, i < 255 → ((initTables p).logAt ((initTables p).expAt i)).toNat = i) ∧
    (∀ a : Byte, a ≠ 0 → ((initTables p).logAt a).toNat < 255 ∧
      (initTables p).expAt ((initTables p).logAt a).toNat = a)

/-- 40_field_arithmetic.md R104: `gf_mul` through the tables is the carry-less product modulo `GF_POLY`, which the spec
marks as general knowledge. -/
def Obligations.TableProductIsCarrylessProduct : Prop :=
  ∀ p ∈ Config.legalPolys, ∀ a b : Byte, gfMul (initTables p) a b = clmulMod p a b

/-- 40_field_arithmetic.md R100: the arithmetic laws, which the spec marks as general knowledge. -/
def Obligations.FieldLawsHold : Prop :=
  ∀ p ∈ Config.legalPolys, ∀ a b c : Byte,
    gfMul (initTables p) a b = gfMul (initTables p) b a ∧
    gfMul (initTables p) (gfMul (initTables p) a b) c = gfMul (initTables p) a (gfMul (initTables p) b c) ∧
    gfMul (initTables p) 1 a = a ∧ gfMul (initTables p) a 0 = 0 ∧
    gfMul (initTables p) a (gfAdd b c) = gfAdd (gfMul (initTables p) a b) (gfMul (initTables p) a c) ∧
    (b ≠ 0 → ∃ q, gfInv (initTables p) b = some q ∧ gfMul (initTables p) b q = 1 ∧
      gfDiv (initTables p) a b = some (gfMul (initTables p) a q))

/-- 40_field_arithmetic.md R99: INIT fills the tables and sets INIT_DONE the first time, and is a successful no-op
afterwards. -/
def Obligations.InitFillsTablesOnce : Prop :=
  ∀ s : State,
    (s.status.initDone = false → exec .init s = .next (withSuccess { s with
      tables := initTables s.build.gfPoly, status := { s.status with initDone := true } })) ∧
    (s.status.initDone = true → exec .init s = .next (withSuccess s))

/-- 40_field_arithmetic.md R99, 10_state.md R40: only reset returns INIT_DONE to 0, and once it is 1 the tables do not
change until then. -/
def Obligations.OnlyResetUndoesInit : Prop :=
  ∀ s t : State, step s = .next t → s.status.initDone = true → (∀ es, s.events ≠ .assertReset :: es) →
    t.status.initDone = true ∧ t.tables = s.tables

/-- 40_field_arithmetic.md R94: GF.ADD stores `a XOR b`. -/
def Obligations.GfAddStoresXor : Prop :=
  ∀ (s : State) (a b : Byte), s.status.initDone = true → exec (.gfAdd a b) s = .next (withResult s (a ^^^ b))

/-- 40_field_arithmetic.md R95, R104: GF.MUL stores the product of the polynomials modulo `GF_POLY`. -/
def Obligations.GfMulStoresProduct : Prop :=
  ∀ (s : State) (a b : Byte), FieldReady s →
    exec (.gfMul a b) s = .next (withResult s (clmulMod s.build.gfPoly a b))

/-- 40_field_arithmetic.md R96, R97: GF.DIV and GF.INV store the quotient, the element whose product with the divisor is
the dividend; a zero divisor is DivisionByZero with RESULT unchanged. -/
def Obligations.GfDivAndInvStoreQuotient : Prop :=
  ∀ (s : State) (a b : Byte), FieldReady s →
    (b = 0 → exec (.gfDiv a b) s = .next (withError s .divisionByZero .noCause) ∧
      exec (.gfInv b) s = .next (withError s .divisionByZero .noCause)) ∧
    (b ≠ 0 → ∃ q, clmulMod s.build.gfPoly q b = a ∧ exec (.gfDiv a b) s = .next (withResult s q)) ∧
    (b ≠ 0 → ∃ q, clmulMod s.build.gfPoly q b = 1 ∧ exec (.gfInv b) s = .next (withResult s q))

/-- 40_field_arithmetic.md R102, R103: GF.EXP stores `ALPHA^e`; GF.LOG stores the exponent in 0..254 whose power is `a`,
and `a = 0` is DomainError with RESULT unchanged. -/
def Obligations.GfExpAndLogAreInverse : Prop :=
  ∀ (s : State) (a : Byte), FieldReady s →
    exec (.gfExp a) s = .next (withResult s (alphaPow s.build.gfPoly a.toNat)) ∧
    (a = 0 → exec (.gfLog a) s = .next (withError s .domainError .noCause)) ∧
    (a ≠ 0 → ∃ l : Byte, l.toNat ≤ 254 ∧ alphaPow s.build.gfPoly l.toNat = a ∧
      exec (.gfLog a) s = .next (withResult s l))

/-! ## Frames -/

/-- The frame of the commands that store nothing (20_memory.md R56: "No other command touches DMEM"): every byte reads
as before; the field commands change only RESULT, STATUS and RUN_CMD; INIT changes only the tables beside STATUS and
RUN_CMD; CTX.CREATE and CTX.RELEASE only the context and GEN (and, for RELEASE, the count of free values). -/
def Obligations.RegisterCommandsFrame : Prop :=
  ∀ (i : Instr) (s t : State), isStoring i = false → exec i s = .next t →
    SameOperands s t ∧ SameMemory s t ∧ t.runCmd = none ∧ t.status.overrun = s.status.overrun ∧
    (isField i = true → t.tables = s.tables ∧ t.ctx = s.ctx ∧ t.gen = s.gen ∧ t.freeCtr = s.freeCtr ∧
      t.status.initDone = s.status.initDone ∧ t.status.ctxValid = s.status.ctxValid) ∧
    (isField i = false → t.result = s.result) ∧
    (i = .init → t.ctx = s.ctx ∧ t.gen = s.gen ∧ t.freeCtr = s.freeCtr ∧ t.status.ctxValid = s.status.ctxValid) ∧
    (isField i = false → i ≠ .init → t.tables = s.tables ∧ t.status.initDone = s.status.initDone)

/-- The frame of the storing commands: outside the command's write regions (20_memory.md R57) every byte reads as before,
and every register but STATUS and RUN_CMD keeps its value; of STATUS, OVERRUN, INIT_DONE and CTX_VALID do. -/
def Obligations.StoringCommandsFrame : Prop :=
  ∀ (i : Instr) (s t : State), isStoring i = true → exec i s = .next t →
    SameOperands s t ∧ SameInner s t ∧ t.runCmd = none ∧ t.status.overrun = s.status.overrun ∧
    t.status.initDone = s.status.initDone ∧ t.status.ctxValid = s.status.ctxValid ∧
    ∀ a, (∀ r ∈ writeRegions s i, ¬(r.base ≤ a ∧ a < r.base + r.len)) →
      Memory.byte? t.dmem a = Memory.byte? s.dmem a

/-- 10_state.md R38, R39: while INIT_DONE = 0 no command's outcome depends on the tables, and while CTX_VALID = 0 none
depends on GEN: with other contents it ends the same way, and where it answers a next state that state is the same up to
those contents. -/
def Obligations.UnspecifiedTablesAreNeverObserved : Prop :=
  ∀ (i : Instr) (s t : State) (T : Tables) (G : List (List Byte)),
    (s.status.initDone = false → exec i s = .next t →
      exec i { s with tables := T } = .next { t with tables := if i = .init then t.tables else T }) ∧
    (s.status.ctxValid = false → exec i s = .next t →
      exec i { s with gen := G } = .next { t with gen := if t.status.ctxValid then t.gen else G }) ∧
    (∀ f, s.status.ctxValid = false → exec i s = .fault f → exec i { s with gen := G } = .fault f)

/-! ## The matrix engine -/

/-- 41_matrix_engine.md R112: MAT.MUL stores the product, row-major at MC_BASE, and changes no other byte. -/
def Obligations.MatMulStoresProduct : Prop :=
  ∀ s : State, s.status.initDone = true → MulShapesOk s → InRange s s.mulA → InRange s s.mulB → InRange s s.mulC →
    Apart s.mulC s.mulA → Apart s.mulC s.mulB → Written s s.mulA → Written s s.mulB →
    ∃ t, exec .matMul s = .next t ∧ Succeeded s t ∧ SameOperands s t ∧ SameInner s t ∧ SameOutside s t s.mulC ∧
      ∀ i j, i < s.dimA.rows.toNat → j < s.dimB.cols.toNat →
        Memory.byte? t.dmem (s.mcBase.toNat + i * s.dimB.cols.toNat + j) =
          some (dot s.tables s.dimA.cols.toNat (matByte s s.maBase s.dimA.cols.toNat)
            (matByte s s.mbBase s.dimB.cols.toNat) i j)

/-- 41_matrix_engine.md R112, 60_exceptions.md R174: how MAT.MUL ends otherwise, in the order of the checks. -/
def Obligations.MatMulChecksInOrder : Prop :=
  ∀ s : State, s.status.initDone = true →
    (¬MulShapesOk s → exec .matMul s = .next (withError s .dimensionMismatch .noCause)) ∧
    (MulShapesOk s → ¬(InRange s s.mulA ∧ InRange s s.mulB ∧ InRange s s.mulC) →
      exec .matMul s = .next (withError s .addressError .noCause)) ∧
    (MulShapesOk s → InRange s s.mulA → InRange s s.mulB → InRange s s.mulC →
      ¬(Apart s.mulC s.mulA ∧ Apart s.mulC s.mulB) → exec .matMul s = .fault .overlapHazard) ∧
    (MulShapesOk s → InRange s s.mulA → InRange s s.mulB → InRange s s.mulC →
      Apart s.mulC s.mulA → Apart s.mulC s.mulB → ¬(Written s s.mulA ∧ Written s s.mulB) →
      ∃ a, exec .matMul s = .fault (.uninitRead a) ∧ Memory.byte? s.dmem a = none ∧
        (s.mulA.has a = true ∨ s.mulB.has a = true))

/-- 41_matrix_engine.md R115, 20_memory.md R58: MAT.INV stores the inverse that `gj_inv` finds, row-major at MC_BASE,
also where C overlaps A, and changes no other byte. -/
def Obligations.MatInvStoresInverse : Prop :=
  ∀ (s : State) (X : Mat), s.status.initDone = true → InvShapeOk s → InRange s s.invA → InRange s s.invC →
    Written s s.invA →
    gjInv s.tables (Mat.of s.dimA.rows.toNat s.dimA.rows.toNat (matByte s s.maBase s.dimA.rows.toNat))
      s.dimA.rows.toNat = some X →
    ∃ t, exec .matInv s = .next t ∧ Succeeded s t ∧ SameOperands s t ∧ SameInner s t ∧ SameOutside s t s.invC ∧
      ∀ i j, i < s.dimA.rows.toNat → j < s.dimA.rows.toNat →
        Memory.byte? t.dmem (s.mcBase.toNat + i * s.dimA.rows.toNat + j) = some (Mat.at X i j)

/-- 41_matrix_engine.md R115, 60_exceptions.md R174: how MAT.INV ends otherwise, in the order of the checks. -/
def Obligations.MatInvChecksInOrder : Prop :=
  ∀ s : State, s.status.initDone = true →
    (¬InvShapeOk s → exec .matInv s = .next (withError s .dimensionMismatch .noCause)) ∧
    (InvShapeOk s → ¬(InRange s s.invA ∧ InRange s s.invC) →
      exec .matInv s = .next (withError s .addressError .noCause)) ∧
    (InvShapeOk s → InRange s s.invA → InRange s s.invC → ¬Written s s.invA →
      ∃ a, exec .matInv s = .fault (.uninitRead a) ∧ Memory.byte? s.dmem a = none ∧ s.invA.has a = true) ∧
    (InvShapeOk s → InRange s s.invA → InRange s s.invC → Written s s.invA →
      gjInv s.tables (Mat.of s.dimA.rows.toNat s.dimA.rows.toNat (matByte s s.maBase s.dimA.rows.toNat))
        s.dimA.rows.toNat = none →
      exec .matInv s = .next (withError s .singularMatrix .noCause))

/-- 41_matrix_engine.md R114: `gj_inv` finds the two-sided inverse, which is unique, or answers Singular, and then there
is none; the divisor of its division is never zero. The spec marks (a) and (b) as general knowledge and (c) as derived
from R113. -/
def Obligations.GaussJordanFindsTheInverse : Prop :=
  ∀ p ∈ Config.legalPolys, ∀ (n : Nat) (A : Mat), 1 ≤ n → n ≤ 256 →
    (∀ X, gjInv (initTables p) A n = some X →
      ProductIsIdentity (initTables p) n (Mat.at A) (Mat.at X) ∧
      ProductIsIdentity (initTables p) n (Mat.at X) (Mat.at A) ∧
      ∀ Y : Nat → Nat → Byte, ProductIsIdentity (initTables p) n (Mat.at A) Y →
        ∀ i j, i < n → j < n → Y i j = Mat.at X i j) ∧
    (gjInv (initTables p) A n = none →
      ∀ Y : Nat → Nat → Byte, ¬ProductIsIdentity (initTables p) n (Mat.at A) Y) ∧
    (∀ (W : Mat) (col q : Nat), gjPivot W n col = some q → gfDiv (initTables p) 1 (Mat.at W q col) ≠ none)

/-! ## The generator and the context -/

/-- 42_codec_context.md R132: the generator matrix is the identity on top, the builder's inversion never fails, and any
`k` different rows form an invertible matrix. (The spec marks them as derived and as general knowledge.) -/
def Obligations.GeneratorIsSystematicAndInvertible : Prop :=
  ∀ p ∈ Config.legalPolys, ∀ k m : Nat, LegalCounts k m →
    (∀ r c, r < k → c < k → Mat.at (buildGen (initTables p) k m) r c = delta r c) ∧
    gjInv (initTables p) ((vandermonde (initTables p) k m).take k) k ≠ none ∧
    (∀ sel : Nat → Nat, (∀ i, i < k → sel i < k + m) → (∀ i j, i < k → j < k → sel i = sel j → i = j) →
      gjInv (initTables p) (Mat.of k k fun i c => Mat.at (buildGen (initTables p) k m) (sel i) c) k ≠ none)

/-- 42_codec_context.md R138, which the spec marks as derived from R131: the generator matrices of the small shapes for
`GF_POLY = 0x11D`, the identity on top of the listed parity rows. -/
def Obligations.SmallGeneratorsMatchTheTable : Prop :=
  buildGen (initTables 0x11D) 1 1 = [[1], [0x01]] ∧
  buildGen (initTables 0x11D) 2 1 = [[1, 0], [0, 1], [0x03, 0x02]] ∧
  buildGen (initTables 0x11D) 2 2 = [[1, 0], [0, 1], [0x03, 0x02], [0x02, 0x03]] ∧
  buildGen (initTables 0x11D) 3 2 =
    [[1, 0, 0], [0, 1, 0], [0, 0, 1], [0x01, 0x01, 0x01], [0x0F, 0x08, 0x06]] ∧
  buildGen (initTables 0x11D) 3 3 =
    [[1, 0, 0], [0, 1, 0], [0, 0, 1], [0x01, 0x01, 0x01], [0x0F, 0x08, 0x06], [0x0E, 0x09, 0x06]] ∧
  buildGen (initTables 0x11D) 4 2 =
    [[1, 0, 0, 0], [0, 1, 0, 0], [0, 0, 1, 0], [0, 0, 0, 1], [0x1B, 0x1C, 0x12, 0x14], [0x1C, 0x1B, 0x14, 0x12]]

/-- 42_codec_context.md R134: CTX.CREATE stores the matrix `build(k, m)` and the counts, and sets CTX_VALID. -/
def Obligations.CtxCreateStoresGenerator : Prop :=
  ∀ (s : State) (k m : Byte), s.status.initDone = true → s.status.ctxValid = false → LegalCounts k.toNat m.toNat →
    ∃ t, exec (.ctxCreate k m) s = .next t ∧ t.runCmd = none ∧
      t.status = (withSuccess { s with status := { s.status with ctxValid := true } }).status ∧
      t.ctx = { k := k, m := m } ∧
      (∀ r c, r < k.toNat + m.toNat → c < k.toNat →
        t.genAt r c = Mat.at (buildGen s.tables k.toNat m.toNat) r c) ∧
      SameOperands s t ∧ SameMemory s t ∧ t.tables = s.tables ∧ t.result = s.result

/-- 42_codec_context.md R133-R137, R152, R156; 60_exceptions.md R173, R174: CTX.CREATE over a live context is
ContextInUse whatever its counts, and otherwise illegal counts are InvalidParameters; the four commands that need a
context report NoContext without one. -/
def Obligations.ContextChecksComeFirst : Prop :=
  ∀ (s : State) (k m : Byte), s.status.initDone = true →
    (s.status.ctxValid = true → exec (.ctxCreate k m) s = .next (withError s .contextInUse .noCause)) ∧
    (s.status.ctxValid = false → ¬LegalCounts k.toNat m.toNat →
      exec (.ctxCreate k m) s = .next (withError s .invalidParameters .noCause)) ∧
    (s.status.ctxValid = false →
      exec .ctxRelease s = .next (withError s .noContext .noCause) ∧
      exec .ctxGenstore s = .next (withError s .noContext .noCause) ∧
      exec (.rsEncode k m) s = .next (withError s .noContext .noCause) ∧
      exec (.rsReconstruct k m) s = .next (withError s .noContext .noCause))

/-- 42_codec_context.md R136: CTX.RELEASE clears CTX_VALID and CTX and touches no DMEM byte. -/
def Obligations.CtxReleaseDestroysContext : Prop :=
  ∀ s : State, s.status.initDone = true → s.status.ctxValid = true →
    ∃ t, exec .ctxRelease s = .next t ∧ t.runCmd = none ∧
      t.status = (withSuccess { s with status := { s.status with ctxValid := false } }).status ∧
      t.ctx = { k := 0, m := 0 } ∧ SameOperands s t ∧ SameMemory s t ∧ t.tables = s.tables ∧ t.result = s.result

/-- 42_codec_context.md R137: CTX.GENSTORE copies the matrix, row-major with stride `K`, to MC_BASE, or reports
AddressError and changes nothing. -/
def Obligations.GenstoreCopiesGenerator : Prop :=
  ∀ s : State, s.status.initDone = true → s.status.ctxValid = true →
    (InRange s s.genRegion →
      ∃ t, exec .ctxGenstore s = .next t ∧ Succeeded s t ∧ SameOperands s t ∧ SameInner s t ∧
        SameOutside s t s.genRegion ∧
        ∀ r c, r < s.K + s.M → c < s.K →
          Memory.byte? t.dmem (s.mcBase.toNat + r * s.K + c) = some (s.genAt r c)) ∧
    (¬InRange s s.genRegion → exec .ctxGenstore s = .next (withError s .addressError .noCause))

/-- 42_codec_context.md R135: while CTX_VALID = 1, only the completion of CTX.RELEASE and reset change CTX and GEN, and
CTX.CREATE is refused with ContextInUse. -/
def Obligations.ContextIsImmutable : Prop :=
  (∀ s t : State, step s = .next t → s.status.ctxValid = true →
    (∀ es, s.events ≠ .assertReset :: es) → ¬(s.running = some .ctxRelease ∧ CompletesNext s) →
    t.status.ctxValid = true ∧ t.ctx = s.ctx ∧ t.gen = s.gen) ∧
  (∀ (s : State) (k m : Byte), s.status.initDone = true → s.status.ctxValid = true →
    exec (.ctxCreate k m) s = .next (withError s .contextInUse .noCause))

/-! ## Encode and reconstruct -/

/-- 43_encode_reconstruct.md R151, R152: RS.ENCODE stores the parity bytes and changes no other byte. -/
def Obligations.EncodeStoresParity : Prop :=
  ∀ (s : State) (nd np : Byte), CodecReady s nd np → EncodeClear s →
    (∀ d, d < s.K → Written s (s.shardRegion d)) →
    ∃ t, exec (.rsEncode nd np) s = .next t ∧ Succeeded s t ∧ SameOperands s t ∧ SameInner s t ∧
      SameOutsideShards s t (s.K ≤ ·) ∧
      ∀ i j, i < s.M → j < s.blockSize.toNat →
        shardByte? t (s.K + i) j =
          some (xorSum s.K fun d => gfMul s.tables (s.genAt (s.K + i) d) (s.shardByte d j))

/-- 43_encode_reconstruct.md R152, R153, R156; 60_exceptions.md R174: the checks RS.ENCODE and RS.RECONSTRUCT share, in
their order, and how each ends in a model fault. -/
def Obligations.CodecChecksInOrder : Prop :=
  ∀ (s : State) (nd np : Byte), s.status.initDone = true → s.status.ctxValid = true →
    (¬(nd = s.ctx.k ∧ np = s.ctx.m ∧ s.blockSize ≠ 0) →
      exec (.rsEncode nd np) s = .next (withError s .dimensionMismatch .noCause) ∧
      exec (.rsReconstruct nd np) s = .next (withError s .dimensionMismatch .noCause)) ∧
    (nd = s.ctx.k → np = s.ctx.m → s.blockSize ≠ 0 → (∃ i, i < s.K + s.M ∧ ¬InRange s (s.shardRegion i)) →
      exec (.rsEncode nd np) s = .next (withError s .addressError .noCause) ∧
      exec (.rsReconstruct nd np) s = .next (withError s .addressError .noCause)) ∧
    (CodecReady s nd np → ¬EncodeClear s → exec (.rsEncode nd np) s = .fault .overlapHazard) ∧
    (CodecReady s nd np → EncodeClear s → 1 ≤ s.M → (∃ d, d < s.K ∧ ¬Written s (s.shardRegion d)) →
      ∃ a, exec (.rsEncode nd np) s = .fault (.uninitRead a) ∧ Memory.byte? s.dmem a = none ∧
        ∃ d, d < s.K ∧ (s.shardRegion d).has a = true)

/-- 43_encode_reconstruct.md R157: with no erased shard RS.RECONSTRUCT reads and writes nothing and succeeds. -/
def Obligations.ReconstructWithoutErasuresIsNoOp : Prop :=
  ∀ (s : State) (nd np : Byte), CodecReady s nd np → (∀ i, i < s.K + s.M → s.erased i = false) →
    ∃ t, exec (.rsReconstruct nd np) s = .next t ∧ Succeeded s t ∧ SameOperands s t ∧ SameInner s t ∧ t.dmem = s.dmem

/-- 43_encode_reconstruct.md R160: more than `M` erasures always fail with ReconstructionImpossible / TooManyErasures,
and nothing is written. -/
def Obligations.TooManyErasuresAreRefused : Prop :=
  ∀ (s : State) (nd np : Byte), CodecReady s nd np → s.M < erasureCount s →
    exec (.rsReconstruct nd np) s = .next (withError s .reconstructionImpossible .tooManyErasures)

/-- 43_encode_reconstruct.md R155, R156: RS.RECONSTRUCT stores the recovered bytes of every erased shard and changes no
other byte. -/
def Obligations.ReconstructStoresRecoveredBytes : Prop :=
  ∀ (s : State) (nd np : Byte) (Sinv : Mat), CodecReady s nd np → 1 ≤ erasureCount s → erasureCount s ≤ s.M →
    gjInv s.tables (Mat.of s.K s.K fun r c => s.genAt (s.survivor r) c) s.K = some Sinv →
    ReconstructClear s → (∀ r, r < s.K → Written s (s.shardRegion (s.survivor r))) →
    ∃ t, exec (.rsReconstruct nd np) s = .next t ∧ Succeeded s t ∧ SameOperands s t ∧ SameInner s t ∧
      SameOutsideShards s t (s.erased · = true) ∧
      ∀ i j, i < s.K + s.M → s.erased i = true → j < s.blockSize.toNat →
        shardByte? t i j = some (xorSum s.K fun c => gfMul s.tables (s.genAt i c)
          (xorSum s.K fun r => gfMul s.tables (Mat.at Sinv c r) (s.shardByte (s.survivor r) j)))

/-- 43_encode_reconstruct.md R156: how RS.RECONSTRUCT ends when the survivor matrix is singular, when an erased shard
overlaps another shard, and when a survivor's byte is unwritten. -/
def Obligations.ReconstructFailsClosed : Prop :=
  ∀ (s : State) (nd np : Byte), CodecReady s nd np → 1 ≤ erasureCount s → erasureCount s ≤ s.M →
    (gjInv s.tables (Mat.of s.K s.K fun r c => s.genAt (s.survivor r) c) s.K = none →
      exec (.rsReconstruct nd np) s = .next (withError s .reconstructionImpossible .singularMatrix)) ∧
    (gjInv s.tables (Mat.of s.K s.K fun r c => s.genAt (s.survivor r) c) s.K ≠ none → ¬ReconstructClear s →
      exec (.rsReconstruct nd np) s = .fault .overlapHazard) ∧
    (gjInv s.tables (Mat.of s.K s.K fun r c => s.genAt (s.survivor r) c) s.K ≠ none → ReconstructClear s →
      (∃ r, r < s.K ∧ ¬Written s (s.shardRegion (s.survivor r))) →
      ∃ a, exec (.rsReconstruct nd np) s = .fault (.uninitRead a) ∧ Memory.byte? s.dmem a = none ∧
        ∃ r, r < s.K ∧ (s.shardRegion (s.survivor r)).has a = true)

/-- 43_encode_reconstruct.md R159, which the spec marks as derived: with only parity shards erased, the survivors are the
data shards, the survivor matrix and its inverse are the identity, the solved data values are the data shards' bytes, and
every recovered parity byte is the one RS.ENCODE computes. -/
def Obligations.ParityOnlyRecoveryEqualsEncode : Prop :=
  ∀ (s : State) (nd np : Byte), Inv s → CodecReady s nd np → (∀ i, i < s.K → s.erased i = false) →
    1 ≤ erasureCount s → ReconstructClear s → (∀ d, d < s.K → Written s (s.shardRegion d)) →
    s.survivors = List.range s.K ∧ s.survivorMat = Mat.of s.K s.K delta ∧
    gjInv s.tables s.survivorMat s.K = some (Mat.of s.K s.K delta) ∧
    (∀ c j, c < s.K → s.recoveredData (Mat.of s.K s.K delta) c j = s.shardByte c j) ∧
    ∃ t, exec (.rsReconstruct nd np) s = .next t ∧ Succeeded s t ∧
      ∀ i j, i < s.M → s.erased (s.K + i) = true → j < s.blockSize.toNat →
        shardByte? t (s.K + i) j = some (s.parity i j)

/-- 43_encode_reconstruct.md R161: encode, erase at most `M` shards and change their bytes in any way, reconstruct: every
shard holds its encoded bytes again. (No erased shard overlaps another one, R57; the spec marks the rule as derived.) -/
def Obligations.EncodeEraseReconstructRoundTrip : Prop :=
  ∀ (s t u : State) (nd np : Byte), Inv s →
    exec (.rsEncode nd np) s = .next t → t.status.err = false →
    u.build = t.build → u.status.initDone = t.status.initDone → u.status.ctxValid = t.status.ctxValid →
    u.ctx = t.ctx → u.tables = t.tables → u.gen = t.gen → u.blockSize = t.blockSize → u.shardBase = t.shardBase →
    erasureCount u ≤ u.M → ReconstructClear u →
    (∀ i j, i < t.K + t.M → u.erased i = false → j < t.blockSize.toNat → shardByte? u i j = shardByte? t i j) →
    ∃ v, exec (.rsReconstruct nd np) u = .next v ∧ v.status.err = false ∧
      ∀ i j, i < t.K + t.M → j < t.blockSize.toNat → shardByte? v i j = shardByte? t i j

/-! ## The invariant -/

/-- The invariant holds right after reset. -/
def Obligations.InvHoldsAtReset : Prop := Inv State.reset

/-- Every step keeps the invariant: DMEM stays canonical and inside the address space, BUSY marks a running command, ERR
and ERR_CODE agree, the tables stay those of R92 and R93 once INIT has run, the context stays legal with the matrix of
R131, and the core stays idle under reset. -/
def Obligations.EveryStepKeepsInv : Prop := ∀ s t : State, Inv s → step s = .next t → Inv t

/-! ## The host port -/

/-- 10_state.md R26: the STATUS word's fields and its reserved bits; 60_exceptions.md R170, R171: the numbers of the error
codes and of the causes, which leave 12-15 and every other cause unused. -/
def Obligations.StatusWordHasTheSpecLayout : Prop :=
  (∀ f : Status, f.word.toNat = f.busy.toNat + 2 * f.done.toNat + 4 * f.err.toNat + 8 * f.overrun.toNat +
    16 * f.initDone.toNat + 32 * f.ctxValid.toNat + 256 * f.errCode.bits.toNat + 4096 * f.errCause.bits.toNat) ∧
  ErrCode.noError.bits = 0 ∧ ErrCode.illegalCommand.bits = 1 ∧ ErrCode.notInitialized.bits = 2 ∧
  ErrCode.invalidParameters.bits = 3 ∧ ErrCode.dimensionMismatch.bits = 4 ∧ ErrCode.reconstructionImpossible.bits = 5 ∧
  ErrCode.divisionByZero.bits = 6 ∧ ErrCode.singularMatrix.bits = 7 ∧ ErrCode.noContext.bits = 8 ∧
  ErrCode.contextInUse.bits = 9 ∧ ErrCode.addressError.bits = 10 ∧ ErrCode.domainError.bits = 11 ∧
  ErrCause.noCause.bits = 0 ∧ ErrCause.tooManyErasures.bits = 1 ∧ ErrCause.singularMatrix.bits = 7 ∧
  (∀ c : ErrCode, c.bits.toNat ≤ 11) ∧ ∀ c : ErrCause, c.bits = 0 ∨ c.bits = 1 ∨ c.bits = 7

/-- 10_state.md R22: a 32-bit aligned read returns the register at that offset, or 0 at a reserved offset, and any other
CSR read is a bus error; nothing but the response changes. R23-R36: the word of each register, in terms of the fields the
commands use. 00_scope.md R6: on the host's bus the window stands at CSR_BASE, and an address in neither window of the core
gets no answer of it (assumption 17). -/
def Obligations.CsrReadsFollowTheMap : Prop :=
  (∀ (s : State) (off : BitVec 12) (n : Nat), s.rst = false →
    (n = 4 → off.toNat % 4 = 0 → (∀ r : Csr, specOffset r ≠ off.toNat) →
      step (scheduled s (.host (.csrRead off n))) = .next { s with events := [], resp := .data 0 }) ∧
    (¬(n = 4 ∧ off.toNat % 4 = 0) →
      step (scheduled s (.host (.csrRead off n))) = .next { s with events := [], resp := .busError })) ∧
  (∀ (s : State) (r : Csr), s.rst = false →
    step (scheduled s (readAt (specOffset r))) = .next { s with events := [], resp := .data (s.csrValue r) }) ∧
  (∀ r : Csr, csrOffset r = specOffset r) ∧
  (∀ r q : Csr, specOffset r = specOffset q → r = q) ∧
  (∀ s : State,
    s.csrValue .id = 0x52534331 ∧
    (s.csrValue .param).toNat = s.build.gfPoly.toNat + 65536 * s.build.addrW.toNat ∧
    (s.csrValue .ctrl).toNat = s.irqEn.toNat ∧ s.csrValue .status = s.status.word ∧ s.csrValue .cmd = 0 ∧
    (s.csrValue .result).toNat = s.result.toNat ∧ (s.csrValue .ctx).toNat = s.K + 256 * s.M ∧
    s.K = s.ctx.k.toNat ∧ s.M = s.ctx.m.toNat ∧
    s.csrValue .blockSize = s.blockSize ∧ s.csrValue .maBase = s.maBase ∧ s.csrValue .mbBase = s.mbBase ∧
    s.csrValue .mcBase = s.mcBase ∧
    (s.csrValue .dimA).toNat = s.dimA.rows.toNat + 65536 * s.dimA.cols.toNat ∧
    (s.csrValue .dimB).toNat = s.dimB.rows.toNat + 65536 * s.dimB.cols.toNat ∧
    (∀ (w : Fin 8) (b : Nat), b < 32 → (s.csrValue (.erase w)).getLsbD b = s.erased (32 * w.val + b)) ∧
    ∀ i : Fin 256, (s.csrValue (.shardBase i)).toNat = s.shardAt i.val) ∧
  (∀ (s : State) (off n : Nat) (v : Word), off < 4096 →
    step (scheduled s (.bus (.read (Config.csrBase + off) n))) =
      step (scheduled s (.host (.csrRead (BitVec.ofNat 12 off) n))) ∧
    step (scheduled s (.bus (.write (Config.csrBase + off) n v))) =
      step (scheduled s (.host (.csrWrite (BitVec.ofNat 12 off) n v)))) ∧
  (∀ (s : State) (addr n : Nat) (v : Word), ¬InCsrWindow addr →
    ¬(Config.dmemBase ≤ addr ∧ addr < Config.dmemBase + 2 ^ s.build.addrW.toNat) →
    step (scheduled s (.bus (.read addr n))) = .next { s with events := [], resp := .noResponse } ∧
    step (scheduled s (.bus (.write addr n v))) = .next { s with events := [], resp := .noResponse })

/-- 10_state.md R22, R23, R24, R29, R31: a write to a read-only register or to a reserved offset is ignored, and a CSR
write that is not a 32-bit aligned one is a bus error without effect. -/
def Obligations.IgnoredCsrWritesChangeNothing : Prop :=
  ∀ (s : State) (v : Word), s.rst = false →
    (∀ r : Csr, r = .id ∨ r = .param ∨ r = .result ∨ r = .ctx →
      step (scheduled s (writeAt (specOffset r) v)) = .next { s with events := [], resp := .written }) ∧
    (∀ off : BitVec 12, off.toNat % 4 = 0 → (∀ r : Csr, specOffset r ≠ off.toNat) →
      step (scheduled s (.host (.csrWrite off 4 v))) = .next { s with events := [], resp := .written }) ∧
    (∀ (off : BitVec 12) (n : Nat), ¬(n = 4 ∧ off.toNat % 4 = 0) →
      step (scheduled s (.host (.csrWrite off n v))) = .next { s with events := [], resp := .busError })

/-- 10_state.md R27: a STATUS write clears DONE where bit 1 is 1 and OVERRUN where bit 3 is 1, and does nothing else,
also while BUSY = 1. -/
def Obligations.StatusWriteClearsDoneAndOverrun : Prop :=
  ∀ (s : State) (v : Word), s.rst = false →
    step (scheduled s (writeAt 0x00C v)) = .next { s with events := [], resp := .written, status := { s.status with
      done := if v.getLsbD 1 = true then false else s.status.done
      overrun := if v.getLsbD 3 = true then false else s.status.overrun } }

/-- 10_state.md R25, R32-R37: while BUSY = 1 a write to an RW-L register only sets OVERRUN; while BUSY = 0 it sets that
register (of DIMA and DIMB, the defined bits) and no other; CTRL is never locked. -/
def Obligations.OperandRegistersLockWhileBusy : Prop :=
  ∀ (s : State) (v : Word), s.rst = false →
    (∀ r : Csr, isLocked r = true → s.status.busy = true →
      step (scheduled s (writeAt (specOffset r) v)) =
        .next { s with events := [], resp := .written, status := { s.status with overrun := true } }) ∧
    (∀ r : Csr, isLocked r = true → s.status.busy = false →
      ∃ t, step (scheduled s (writeAt (specOffset r) v)) = .next t ∧
        t.csrValue r = (if r = .dimA ∨ r = .dimB then v &&& 0x01FF01FF else v) ∧
        (∀ q, q ≠ r → t.csrValue q = s.csrValue q) ∧ t.status = s.status ∧ t.runCmd = s.runCmd ∧ t.dmem = s.dmem ∧
        SameInner s t) ∧
    step (scheduled s (writeAt 0x008 v)) = .next { s with events := [], resp := .written, irqEn := v.getLsbD 0 }

/-- 10_state.md R44, 60_exceptions.md R178: `irq` is IRQ_EN AND DONE in every state; any W1C of DONE, an acceptance or any
write that clears IRQ_EN drives it to 0. -/
def Obligations.IrqFollowsDone : Prop :=
  (∀ s : State, s.irq = (s.irqEn && s.status.done)) ∧
  ∀ (s : State) (v : Word), s.rst = false →
    (v.getLsbD 1 = true → ∃ t, step (scheduled s (writeAt 0x00C v)) = .next t ∧ t.irq = false) ∧
    (s.status.busy = false → ∃ t, step (scheduled s (writeAt 0x010 v)) = .next t ∧ t.irq = false) ∧
    (v.getLsbD 0 = false → ∃ t, step (scheduled s (writeAt 0x008 v)) = .next t ∧ t.irq = false)

/-- 20_memory.md R52, R61: while no legal command is running, every legal host write stores its bytes little-endian and
changes nothing else, and every legal host read returns the bytes little-endian and changes nothing (but the response and
the count of free values, the model's own fields, assumptions 1 and 13). That this is so also while `rst` is asserted is
assumption 10. 00_scope.md R6: on the host's bus DMEM stands at DMEM_BASE, where the CSR window does not (assumption 17). -/
def Obligations.HostMemoryIsLittleEndian : Prop :=
  (∀ (s : State) (a n : Nat) (v : Word), (s.status.busy = false ∨ s.running = none) → LegalAccess s a n →
    WritePerformed s a n v ∧ ReadPerformed s a n) ∧
  ∀ (s : State) (a n : Nat) (v : Word), a < 2 ^ s.build.addrW.toNat → ¬InCsrWindow (Config.dmemBase + a) →
    step (scheduled s (.bus (.read (Config.dmemBase + a) n))) = step (scheduled s (.host (.memRead a n))) ∧
    step (scheduled s (.bus (.write (Config.dmemBase + a) n v))) = step (scheduled s (.host (.memWrite a n v)))

/-- 20_memory.md R53: a DMEM access of another width, misaligned or out of range gets a bus error and changes nothing
(also while `rst` is asserted, assumption 10). -/
def Obligations.IllegalMemoryAccessIsBusError : Prop :=
  ∀ (s : State) (a n : Nat) (v : Word),
    ¬LegalAccess s a n →
    step (scheduled s (.host (.memRead a n))) = .next { s with events := [], resp := .busError } ∧
    step (scheduled s (.host (.memWrite a n v))) = .next { s with events := [], resp := .busError }

/-- 20_memory.md R59, R60, in the reading of assumption 7: while the legal command `i` runs,
(1) an access that touches none of its regions is performed;
(2) if `i`, completing now, would not report a detected error (it succeeds or ends in a model fault), an access that
touches its regions is HostRace;
(3) if it would report one, its footprint is empty: a read is performed, and so is a write after which `i` would still
report an error; a write to its regions after which it would not is HostRace. -/
def Obligations.HostAccessToFootprintIsRace : Prop :=
  ∀ (s : State) (i : Instr) (a n : Nat) (v : Word), s.status.busy = true → s.running = some i → LegalAccess s a n →
    (¬TouchesRegions s i a n → ReadPerformed s a n ∧ WritePerformed s a n v) ∧
    (¬ReportsError i { s with events := [] } → TouchesRegions s i a n →
      step (scheduled s (.host (.memRead a n))) = .fault .hostRace ∧
      step (scheduled s (.host (.memWrite a n v))) = .fault .hostRace) ∧
    (ReportsError i { s with events := [] } →
      ReadPerformed s a n ∧
      (ReportsError i (afterHostWrite s a n v) → WritePerformed s a n v) ∧
      (¬ReportsError i (afterHostWrite s a n v) → TouchesRegions s i a n →
        step (scheduled s (.host (.memWrite a n v))) = .fault .hostRace))
end

