-- ==== Sys2Proof/Laws/Matrix.lean ====
section
/-! SUPPORT. Entries of matrices and folds of XOR (00_scope.md R9; 41_matrix_engine.md R111). -/
namespace Sys2Proof
namespace Machine

/-! ## Entries -/

theorem Mat.row_of {R C : Nat} (f : Nat → Nat → Byte) {r : Nat} (hr : r < R) :
    Mat.row (Mat.of R C f) r = (List.range C).map fun c => f r c := by
  simp [Mat.row, Mat.of, List.getD_eq_getElem?_getD, hr]

@[simp] theorem Mat.at_of {R C : Nat} (f : Nat → Nat → Byte) {r c : Nat} (hr : r < R) (hc : c < C) :
    Mat.at (Mat.of R C f) r c = f r c := by
  simp [Mat.at, Mat.row_of f hr, List.getD_eq_getElem?_getD, hc]

@[simp] theorem Mat.length_of (R C : Nat) (f : Nat → Nat → Byte) : (Mat.of R C f).length = R := by simp [Mat.of]

/-- Two matrices built entry by entry are equal iff their entries are. -/
theorem Mat.of_congr {R C : Nat} {f g : Nat → Nat → Byte} (h : ∀ r c, r < R → c < C → f r c = g r c) :
    Mat.of R C f = Mat.of R C g := by
  unfold Mat.of
  refine List.map_congr_left fun r hr => List.map_congr_left fun c hc => ?_
  exact h r c (List.mem_range.1 hr) (List.mem_range.1 hc)

/-- The first `k` rows of a matrix. -/
theorem Mat.take_of {R C k : Nat} (f : Nat → Nat → Byte) (hk : k ≤ R) : (Mat.of R C f).take k = Mat.of k C f := by
  simp [Mat.of, ← List.map_take, List.take_range, Nat.min_eq_left hk]

/-- The entry of a product (R111). -/
theorem matMul_at (t : Tables) {R T C : Nat} (A B : Mat) {i j : Nat} (hi : i < R) (hj : j < C) :
    Mat.at (matMul t R T C A B) i j = xorSum T fun k => gfMul t (Mat.at A i k) (Mat.at B k j) := by
  simp [matMul, hi, hj]

/-- A stored entry of GEN reads as the matrix that was stored (R39). -/
theorem State.genAt_of {s : State} {R C : Nat} {f : Nat → Nat → Byte} (h : s.gen = Mat.of R C f) {r c : Nat}
    (hr : r < R) (hc : c < C) : s.genAt r c = f r c := by
  simp [State.genAt, h, Mat.of, hr, hc]

/-! ## XOR sums -/

theorem xorSum_congr {n : Nat} {f g : Nat → Byte} (h : ∀ i, i < n → f i = g i) : xorSum n f = xorSum n g := by
  induction n with
  | zero => rfl
  | succ n ih =>
    simp only [xorSum]
    rw [ih fun i hi => h i (Nat.lt_succ_of_lt hi), h n (Nat.lt_succ_self n)]

@[simp] theorem xorSum_zero (n : Nat) : xorSum n (fun _ => 0#8) = 0#8 := by
  induction n with
  | zero => rfl
  | succ n ih => simp only [xorSum, ih]; decide

theorem xorSum_xor (n : Nat) (f g : Nat → Byte) : xorSum n (fun i => f i ^^^ g i) = xorSum n f ^^^ xorSum n g := by
  induction n with
  | zero => simp [xorSum]
  | succ n ih =>
    simp only [xorSum, ih]
    ac_rfl

/-- Only the term at `k` is not zero. -/
theorem xorSum_single {n k : Nat} (hk : k < n) {f : Nat → Byte} (h : ∀ i, i < n → i ≠ k → f i = 0) :
    xorSum n f = f k := by
  induction n with
  | zero => omega
  | succ n ih =>
    simp only [xorSum]
    by_cases hkn : k = n
    · subst hkn
      rw [xorSum_congr (g := fun _ => 0#8) fun i hi => h i (Nat.lt_succ_of_lt hi) (Nat.ne_of_lt hi)]
      simp
    · rw [ih (by omega) fun i hi => h i (Nat.lt_succ_of_lt hi), h n (Nat.lt_succ_self n) (Ne.symm hkn)]
      simp

/-- The order of two sums does not matter (R116). -/
theorem xorSum_comm (n m : Nat) (f : Nat → Nat → Byte) :
    xorSum n (fun i => xorSum m fun j => f i j) = xorSum m fun j => xorSum n fun i => f i j := by
  induction n with
  | zero => simp [xorSum]
  | succ n ih => simp only [xorSum, xorSum_xor, ih]

/-! ## Products with zero and sums -/

@[simp] theorem gfMul_zero_left (t : Tables) (a : Byte) : gfMul t 0#8 a = 0#8 := by simp [gfMul]
@[simp] theorem gfMul_zero_right (t : Tables) (a : Byte) : gfMul t a 0#8 = 0#8 := by simp [gfMul]

end Machine
end Sys2Proof
end

