-- ==== Sys2Proof/Laws/Memory.lean ====
section
/-! SUPPORT. The laws of data memory: read after write, what a write leaves alone, and that every operation keeps the
canonical form. -/
namespace Sys2Proof
namespace Machine

@[simp] theorem Memory.byte?_nil (a : Nat) : Memory.byte? [] a = none := rfl

theorem Memory.byte?_cons (b : Nat) (v : Byte) (m : Memory) (a : Nat) :
    Memory.byte? ((b, v) :: m) a = if a = b then some v else Memory.byte? m a := rfl

/-! ## One byte -/

@[simp] theorem Memory.byte?_set_same (m : Memory) (a : Nat) (v : Byte) : Memory.byte? (Memory.set m a v) a = some v := by
  induction m with
  | nil => simp [Memory.set, Memory.byte?]
  | cons c m ih =>
    obtain ⟨b, w⟩ := c
    simp only [Memory.set]
    split
    · simp [Memory.byte?]
    · split
      · simp [Memory.byte?]
      · simp [Memory.byte?, *]

theorem Memory.byte?_set_other (m : Memory) {a x : Nat} (v : Byte) (h : x ≠ a) :
    Memory.byte? (Memory.set m a v) x = Memory.byte? m x := by
  induction m with
  | nil => simp [Memory.set, Memory.byte?, h]
  | cons c m ih =>
    obtain ⟨b, w⟩ := c
    simp only [Memory.set]
    split
    · simp [Memory.byte?, h]
    · split
      · subst_vars; simp [Memory.byte?, h]
      · simp [Memory.byte?, ih]

theorem Memory.byte?_set (m : Memory) (a x : Nat) (v : Byte) :
    Memory.byte? (Memory.set m a v) x = if x = a then some v else Memory.byte? m x := by
  split
  · subst_vars; simp
  · exact Memory.byte?_set_other m v ‹_›

/-! ## Many bytes -/

@[simp] theorem Memory.setAll_nil (m : Memory) : Memory.setAll m [] = m := rfl

@[simp] theorem Memory.setAll_cons (m : Memory) (c : Host.Cell) (cs : List Host.Cell) :
    Memory.setAll m (c :: cs) = Memory.setAll (Memory.set m c.1 c.2) cs := rfl

/-- An address that none of the written cells has reads as before. -/
theorem Memory.byte?_setAll_other (cs : List Host.Cell) (m : Memory) {x : Nat} (h : ∀ c ∈ cs, c.1 ≠ x) :
    Memory.byte? (Memory.setAll m cs) x = Memory.byte? m x := by
  induction cs generalizing m with
  | nil => rfl
  | cons c cs ih =>
    rw [Memory.setAll_cons, ih _ fun d hd => h d (List.mem_cons_of_mem _ hd)]
    exact Memory.byte?_set_other m _ (h c List.mem_cons_self).symm

/-- A written address reads as the cell written there, when all cells for that address agree. -/
theorem Memory.byte?_setAll_of_mem (cs : List Host.Cell) (m : Memory) {x : Nat} {v : Byte} (hv : (x, v) ∈ cs)
    (h : ∀ w, (x, w) ∈ cs → w = v) : Memory.byte? (Memory.setAll m cs) x = some v := by
  induction cs generalizing m with
  | nil => simp at hv
  | cons c cs ih =>
    rw [Memory.setAll_cons]
    by_cases hx : (x, v) ∈ cs
    · exact ih _ hx fun w hw => h w (List.mem_cons_of_mem _ hw)
    · have hc : c = (x, v) := by
        rcases List.mem_cons.1 hv with e | e
        · exact e.symm
        · exact absurd e hx
      subst hc
      rw [Memory.byte?_setAll_other cs _ ?_]
      · simp
      · rintro ⟨a, w⟩ hd rfl
        exact hx (h w (List.mem_cons_of_mem _ hd) ▸ hd)

/-! ## Forgetting a region -/

theorem Memory.byte?_forget (m : Memory) (r : Region) (x : Nat) :
    Memory.byte? (Memory.forget m r) x = if r.has x then none else Memory.byte? m x := by
  unfold Memory.forget
  induction m with
  | nil => simp
  | cons c m ih =>
    obtain ⟨b, w⟩ := c
    by_cases hb : r.has b = true
    · rw [List.filter_cons_of_neg (by simp [hb]), ih, Memory.byte?_cons]
      by_cases hx : r.has x = true
      · simp [hx]
      · have : x ≠ b := by rintro rfl; exact hx hb
        simp [hx, this]
    · rw [List.filter_cons_of_pos (by simp [hb]), Memory.byte?_cons, Memory.byte?_cons, ih]
      by_cases hx : x = b
      · subst hx; simp [hb]
      · simp [hx]

/-! ## The canonical form -/

/-- `lo` is below every address of a canonical list above it. -/
theorem Memory.wfAbove_weaken {lo lo' : Nat} {m : Memory} (h : lo ≤ lo')
    (hm : Memory.wfAbove (some lo') m = true) : Memory.wfAbove (some lo) m = true := by
  cases m with
  | nil => rfl
  | cons c m =>
    obtain ⟨b, w⟩ := c
    simp only [Memory.wfAbove, Bool.and_eq_true, decide_eq_true_eq] at hm ⊢
    exact ⟨by omega, hm.2⟩

theorem Memory.wfAbove_none {lo : Nat} {m : Memory} (hm : Memory.wfAbove (some lo) m = true) : Memory.wf m = true := by
  cases m with
  | nil => rfl
  | cons c m =>
    obtain ⟨b, w⟩ := c
    simp only [Memory.wf, Memory.wfAbove, Bool.and_eq_true] at hm ⊢
    exact ⟨trivial, hm.2⟩

/-- The lower bound as a proposition. -/
def Memory.Above (lo : Option Nat) (a : Nat) : Prop := ∀ l, lo = some l → l < a

theorem Memory.wfAbove_cons (lo : Option Nat) (b : Nat) (w : Byte) (m : Memory) :
    Memory.wfAbove lo ((b, w) :: m) = true ↔ Memory.Above lo b ∧ Memory.wfAbove (some b) m = true := by
  cases lo <;> simp [Memory.wfAbove, Memory.Above]

theorem Memory.wfAbove_set {lo : Option Nat} {m : Memory} {a : Nat} (v : Byte) (ha : Memory.Above lo a)
    (hm : Memory.wfAbove lo m = true) : Memory.wfAbove lo (Memory.set m a v) = true := by
  induction m generalizing lo with
  | nil => exact (Memory.wfAbove_cons lo a v []).2 ⟨ha, rfl⟩
  | cons c m ih =>
    obtain ⟨b, w⟩ := c
    rw [Memory.wfAbove_cons] at hm
    simp only [Memory.set]
    split
    · rw [Memory.wfAbove_cons, Memory.wfAbove_cons]
      exact ⟨ha, fun l hl => by injection hl with e; omega, hm.2⟩
    · split
      · subst_vars; rw [Memory.wfAbove_cons]; exact ⟨ha, hm.2⟩
      · rw [Memory.wfAbove_cons]
        exact ⟨hm.1, ih (fun l hl => by injection hl with e; omega) hm.2⟩

/-- A write keeps the canonical form. -/
theorem Memory.wf_set {m : Memory} (a : Nat) (v : Byte) (hm : Memory.wf m = true) : Memory.wf (Memory.set m a v) = true :=
  Memory.wfAbove_set v (fun _ h => by simp at h) hm

/-- Many writes keep the canonical form. -/
theorem Memory.wf_setAll (cs : List Host.Cell) {m : Memory} (hm : Memory.wf m = true) :
    Memory.wf (Memory.setAll m cs) = true := by
  induction cs generalizing m with
  | nil => exact hm
  | cons c cs ih => exact ih (Memory.wf_set _ _ hm)

theorem Memory.wfAbove_filter (p : Host.Cell → Bool) {lo : Option Nat} {m : Memory}
    (hm : Memory.wfAbove lo m = true) : Memory.wfAbove lo (m.filter p) = true := by
  induction m generalizing lo with
  | nil => rfl
  | cons c m ih =>
    obtain ⟨b, w⟩ := c
    rw [Memory.wfAbove_cons] at hm
    by_cases hp : p (b, w) = true
    · rw [List.filter_cons_of_pos hp, Memory.wfAbove_cons]; exact ⟨hm.1, ih hm.2⟩
    · rw [List.filter_cons_of_neg hp]
      apply ih
      cases lo with
      | none => exact Memory.wfAbove_none hm.2
      | some l => exact Memory.wfAbove_weaken (Nat.le_of_lt (hm.1 l rfl)) hm.2

/-- Forgetting a region keeps the canonical form. -/
theorem Memory.wf_forget (r : Region) {m : Memory} (hm : Memory.wf m = true) : Memory.wf (Memory.forget m r) = true :=
  Memory.wfAbove_filter _ hm

/-- Memory after reset is canonical. -/
theorem Memory.wf_reset : Memory.wf State.reset.dmem = true := rfl

/-! ## Equal memories are equal data -/

/-- A canonical list reads as unwritten at and below its bound. -/
theorem Memory.byte?_of_wfAbove {lo a : Nat} {m : Memory} (hm : Memory.wfAbove (some lo) m = true) (ha : a ≤ lo) :
    Memory.byte? m a = none := by
  induction m generalizing lo with
  | nil => rfl
  | cons c m ih =>
    obtain ⟨b, w⟩ := c
    rw [Memory.wfAbove_cons] at hm
    have hb : lo < b := hm.1 lo rfl
    rw [Memory.byte?_cons, if_neg (by omega)]
    exact ih hm.2 (by omega)

theorem Memory.ext_of_wfAbove {lo : Option Nat} {m n : Memory} (hm : Memory.wfAbove lo m = true)
    (hn : Memory.wfAbove lo n = true) (h : ∀ a, Memory.byte? m a = Memory.byte? n a) : m = n := by
  induction m generalizing lo n with
  | nil =>
    cases n with
    | nil => rfl
    | cons c n => have := h c.1; simp [Memory.byte?] at this
  | cons c m ih =>
    obtain ⟨b, w⟩ := c
    cases n with
    | nil => have := h b; simp [Memory.byte?] at this
    | cons d n =>
      obtain ⟨b', w'⟩ := d
      rw [Memory.wfAbove_cons] at hm hn
      have hbb : b = b' := by
        rcases Nat.lt_trichotomy b b' with hlt | heq | hgt
        · have := h b
          rw [Memory.byte?_cons, Memory.byte?_cons, if_pos rfl, if_neg (by omega),
            Memory.byte?_of_wfAbove hn.2 (by omega)] at this
          simp at this
        · exact heq
        · have := h b'
          rw [Memory.byte?_cons, Memory.byte?_cons, if_neg (by omega), if_pos rfl,
            Memory.byte?_of_wfAbove hm.2 (by omega)] at this
          simp at this
      subst hbb
      have hw : w = w' := by simpa [Memory.byte?_cons] using h b
      subst hw
      rw [ih hm.2 hn.2 fun a => ?_]
      have := h a
      rw [Memory.byte?_cons, Memory.byte?_cons] at this
      by_cases ha : a = b
      · subst ha
        rw [Memory.byte?_of_wfAbove hm.2 (Nat.le_refl a), Memory.byte?_of_wfAbove hn.2 (Nat.le_refl a)]
      · simpa [ha] using this

/-- Two canonical memories that read alike are the same list. -/
theorem Memory.ext {m n : Memory} (hm : Memory.wf m = true) (hn : Memory.wf n = true)
    (h : ∀ a, Memory.byte? m a = Memory.byte? n a) : m = n :=
  Memory.ext_of_wfAbove hm hn h

/-! ## The address space -/

theorem Memory.inside_set {m : Memory} {n a : Nat} (v : Byte) (ha : a < n) (hm : Memory.inside m n = true) :
    Memory.inside (Memory.set m a v) n = true := by
  induction m with
  | nil => simp [Memory.set, Memory.inside, ha]
  | cons c m ih =>
    obtain ⟨b, w⟩ := c
    simp only [Memory.inside, List.all_cons, Bool.and_eq_true, decide_eq_true_eq] at hm ih
    simp only [Memory.set]
    split
    · simpa [Memory.inside, ha] using hm
    · split
      · simpa [Memory.inside, ha] using hm.2
      · simpa [Memory.inside, hm.1] using ih hm.2

theorem Memory.inside_setAll {n : Nat} (cs : List Host.Cell) {m : Memory} (hc : ∀ c ∈ cs, c.1 < n)
    (hm : Memory.inside m n = true) : Memory.inside (Memory.setAll m cs) n = true := by
  induction cs generalizing m with
  | nil => exact hm
  | cons c cs ih =>
    exact ih (fun d hd => hc d (List.mem_cons_of_mem _ hd)) (Memory.inside_set _ (hc c List.mem_cons_self) hm)

theorem Memory.inside_forget {n : Nat} (r : Region) {m : Memory} (hm : Memory.inside m n = true) :
    Memory.inside (Memory.forget m r) n = true := by
  simp only [Memory.inside, Memory.forget, List.all_eq_true, List.mem_filter] at hm ⊢
  exact fun c hc => hm c hc.1

end Machine
end Sys2Proof
end

