-- ==== Sys2Proof/Laws/Regions.lean ====
section
/-! SUPPORT. Regions as sets of addresses (00_scope.md R14), and the addresses of matrix images (41_matrix_engine.md
R110). -/
namespace Sys2Proof
namespace Machine

@[simp] theorem Region.has_iff (r : Region) (a : Nat) : r.has a = true ↔ r.base ≤ a ∧ a < r.base + r.len := by
  simp [Region.has]

@[simp] theorem Region.inRange_iff (r : Region) (b : Build) : r.inRange b = true ↔ r.base + r.len ≤ b.memBytes := by
  simp [Region.inRange]

/-- Two regions overlap iff some address belongs to both. -/
theorem Region.overlaps_iff (r q : Region) : r.overlaps q = true ↔ ∃ a, r.has a = true ∧ q.has a = true := by
  simp only [Region.overlaps, decide_eq_true_eq, Region.has_iff]
  constructor
  · intro h
    exact ⟨max r.base q.base, by omega⟩
  · rintro ⟨a, h⟩
    omega

theorem Region.overlaps_comm (r q : Region) : r.overlaps q = q.overlaps r := by
  rw [Bool.eq_iff_iff, Region.overlaps_iff, Region.overlaps_iff]
  simp only [and_comm]

/-- Some two different regions of the list overlap, as a statement about pairs. -/
theorem anyTwoOverlap_iff (rs : List Region) :
    anyTwoOverlap rs = true ↔ ¬rs.Pairwise fun r q => r.overlaps q = false := by
  induction rs with
  | nil => simp [anyTwoOverlap]
  | cons r rs ih =>
    simp only [anyTwoOverlap, Bool.or_eq_true, List.any_eq_true, List.pairwise_cons, ih, not_and_or, not_forall,
      Bool.not_eq_false]
    simp

/-- The hazard of R57 is absent iff every two write regions and every write and protected region are disjoint. -/
theorem overlapHazard_eq_false_iff (ws ps : List Region) :
    overlapHazard ws ps = false ↔
      (ws.Pairwise fun r q => r.overlaps q = false) ∧ ∀ w ∈ ws, ∀ p ∈ ps, w.overlaps p = false := by
  have h := anyTwoOverlap_iff ws
  unfold overlapHazard
  rw [Bool.or_eq_false_iff, ← Bool.not_eq_true, h, not_not]
  simp

/-- The addresses of a matrix image (R110). -/
theorem mem_matAddrs {base : Word} {R C a : Nat} :
    a ∈ matAddrs base R C ↔ ∃ r c, r < R ∧ c < C ∧ a = base.toNat + r * C + c := by
  simp only [matAddrs, List.mem_flatMap, List.mem_map, List.mem_range]
  constructor
  · rintro ⟨r, hr, c, hc, rfl⟩; exact ⟨r, c, hr, hc, rfl⟩
  · rintro ⟨r, c, hr, hc, rfl⟩; exact ⟨r, hr, c, hc, rfl⟩

/-- The cells of a matrix image (R110). -/
theorem mem_matCells {base : Word} {R C : Nat} {f : Nat → Nat → Byte} {x : Host.Cell} :
    x ∈ matCells base R C f ↔ ∃ r c, r < R ∧ c < C ∧ x = (base.toNat + r * C + c, f r c) := by
  simp only [matCells, List.mem_flatMap, List.mem_map, List.mem_range]
  constructor
  · rintro ⟨r, hr, c, hc, rfl⟩; exact ⟨r, c, hr, hc, rfl⟩
  · rintro ⟨r, c, hr, hc, rfl⟩; exact ⟨r, hr, c, hc, rfl⟩

/-- Row-major offsets are inside the image. -/
theorem rowMajor_lt {R C r c : Nat} (hr : r < R) (hc : c < C) : r * C + c < R * C := by
  have : (r + 1) * C ≤ R * C := Nat.mul_le_mul_right C hr
  rw [Nat.succ_mul] at this
  omega

/-- Row-major offsets name one element each. -/
theorem rowMajor_inj {C r c r' c' : Nat} (hc : c < C) (hc' : c' < C) (h : r * C + c = r' * C + c') : r = r' ∧ c = c' := by
  have hC : 0 < C := by omega
  have e : (r * C + c) / C = (r' * C + c') / C := by rw [h]
  have hr : r = r' := by
    rwa [Nat.mul_comm r, Nat.mul_comm r', Nat.mul_add_div hC, Nat.mul_add_div hC, Nat.div_eq_of_lt hc,
      Nat.div_eq_of_lt hc', Nat.add_zero, Nat.add_zero] at e
  subst hr
  exact ⟨rfl, by omega⟩

/-- Every address of the region is the address of an element (R110). -/
theorem rowMajor_surj {R C x : Nat} (h : x < R * C) : ∃ r c, r < R ∧ c < C ∧ x = r * C + c := by
  have hC : 0 < C := by
    rcases Nat.eq_zero_or_pos C with rfl | h'
    · simp at h
    · exact h'
  refine ⟨x / C, x % C, ?_, Nat.mod_lt _ hC, ?_⟩
  · rwa [Nat.div_lt_iff_lt_mul hC]
  · rw [Nat.mul_comm]; exact (Nat.div_add_mod x C).symm

end Machine
end Sys2Proof
end

