-- ==== Sys2Proof/Laws/State.lean ====
section
/-! SUPPORT. What each named update of the state leaves in each field, so that no later proof unfolds a record update. -/
namespace Sys2Proof
namespace Machine

variable (s : State)

/-! ## `accept` -/
@[simp] theorem State.accept_build (w : Word) : (s.accept w).build = s.build := rfl
@[simp] theorem State.accept_irqEn (w : Word) : (s.accept w).irqEn = s.irqEn := rfl
@[simp] theorem State.accept_status (w : Word) : (s.accept w).status = s.status.accepted := rfl
@[simp] theorem State.accept_result (w : Word) : (s.accept w).result = s.result := rfl
@[simp] theorem State.accept_ctx (w : Word) : (s.accept w).ctx = s.ctx := rfl
@[simp] theorem State.accept_blockSize (w : Word) : (s.accept w).blockSize = s.blockSize := rfl
@[simp] theorem State.accept_maBase (w : Word) : (s.accept w).maBase = s.maBase := rfl
@[simp] theorem State.accept_mbBase (w : Word) : (s.accept w).mbBase = s.mbBase := rfl
@[simp] theorem State.accept_mcBase (w : Word) : (s.accept w).mcBase = s.mcBase := rfl
@[simp] theorem State.accept_dimA (w : Word) : (s.accept w).dimA = s.dimA := rfl
@[simp] theorem State.accept_dimB (w : Word) : (s.accept w).dimB = s.dimB := rfl
@[simp] theorem State.accept_erase (w : Word) : (s.accept w).erase = s.erase := rfl
@[simp] theorem State.accept_shardBase (w : Word) : (s.accept w).shardBase = s.shardBase := rfl
@[simp] theorem State.accept_runCmd (w : Word) : (s.accept w).runCmd = some w := rfl
@[simp] theorem State.accept_tables (w : Word) : (s.accept w).tables = s.tables := rfl
@[simp] theorem State.accept_gen (w : Word) : (s.accept w).gen = s.gen := rfl
@[simp] theorem State.accept_dmem (w : Word) : (s.accept w).dmem = s.dmem := rfl
@[simp] theorem State.accept_rst (w : Word) : (s.accept w).rst = s.rst := rfl
@[simp] theorem State.accept_resp (w : Word) : (s.accept w).resp = s.resp := rfl
@[simp] theorem State.accept_events (w : Word) : (s.accept w).events = s.events := rfl
@[simp] theorem State.accept_freeCtr (w : Word) : (s.accept w).freeCtr = s.freeCtr := rfl

/-! ## `complete` -/
@[simp] theorem State.complete_build (c : ErrCode) (k : ErrCause) : (s.complete c k).build = s.build := rfl
@[simp] theorem State.complete_irqEn (c : ErrCode) (k : ErrCause) : (s.complete c k).irqEn = s.irqEn := rfl
@[simp] theorem State.complete_status (c : ErrCode) (k : ErrCause) : (s.complete c k).status = s.status.completed c k := rfl
@[simp] theorem State.complete_result (c : ErrCode) (k : ErrCause) : (s.complete c k).result = s.result := rfl
@[simp] theorem State.complete_ctx (c : ErrCode) (k : ErrCause) : (s.complete c k).ctx = s.ctx := rfl
@[simp] theorem State.complete_blockSize (c : ErrCode) (k : ErrCause) : (s.complete c k).blockSize = s.blockSize := rfl
@[simp] theorem State.complete_maBase (c : ErrCode) (k : ErrCause) : (s.complete c k).maBase = s.maBase := rfl
@[simp] theorem State.complete_mbBase (c : ErrCode) (k : ErrCause) : (s.complete c k).mbBase = s.mbBase := rfl
@[simp] theorem State.complete_mcBase (c : ErrCode) (k : ErrCause) : (s.complete c k).mcBase = s.mcBase := rfl
@[simp] theorem State.complete_dimA (c : ErrCode) (k : ErrCause) : (s.complete c k).dimA = s.dimA := rfl
@[simp] theorem State.complete_dimB (c : ErrCode) (k : ErrCause) : (s.complete c k).dimB = s.dimB := rfl
@[simp] theorem State.complete_erase (c : ErrCode) (k : ErrCause) : (s.complete c k).erase = s.erase := rfl
@[simp] theorem State.complete_shardBase (c : ErrCode) (k : ErrCause) : (s.complete c k).shardBase = s.shardBase := rfl
@[simp] theorem State.complete_runCmd (c : ErrCode) (k : ErrCause) : (s.complete c k).runCmd = none := rfl
@[simp] theorem State.complete_tables (c : ErrCode) (k : ErrCause) : (s.complete c k).tables = s.tables := rfl
@[simp] theorem State.complete_gen (c : ErrCode) (k : ErrCause) : (s.complete c k).gen = s.gen := rfl
@[simp] theorem State.complete_dmem (c : ErrCode) (k : ErrCause) : (s.complete c k).dmem = s.dmem := rfl
@[simp] theorem State.complete_rst (c : ErrCode) (k : ErrCause) : (s.complete c k).rst = s.rst := rfl
@[simp] theorem State.complete_resp (c : ErrCode) (k : ErrCause) : (s.complete c k).resp = s.resp := rfl
@[simp] theorem State.complete_events (c : ErrCode) (k : ErrCause) : (s.complete c k).events = s.events := rfl
@[simp] theorem State.complete_freeCtr (c : ErrCode) (k : ErrCause) : (s.complete c k).freeCtr = s.freeCtr := rfl

/-! ## `acknowledge` -/
@[simp] theorem State.acknowledge_build (v : Word) : (s.acknowledge v).build = s.build := rfl
@[simp] theorem State.acknowledge_irqEn (v : Word) : (s.acknowledge v).irqEn = s.irqEn := rfl
@[simp] theorem State.acknowledge_status (v : Word) : (s.acknowledge v).status = s.status.written v := rfl
@[simp] theorem State.acknowledge_result (v : Word) : (s.acknowledge v).result = s.result := rfl
@[simp] theorem State.acknowledge_ctx (v : Word) : (s.acknowledge v).ctx = s.ctx := rfl
@[simp] theorem State.acknowledge_blockSize (v : Word) : (s.acknowledge v).blockSize = s.blockSize := rfl
@[simp] theorem State.acknowledge_maBase (v : Word) : (s.acknowledge v).maBase = s.maBase := rfl
@[simp] theorem State.acknowledge_mbBase (v : Word) : (s.acknowledge v).mbBase = s.mbBase := rfl
@[simp] theorem State.acknowledge_mcBase (v : Word) : (s.acknowledge v).mcBase = s.mcBase := rfl
@[simp] theorem State.acknowledge_dimA (v : Word) : (s.acknowledge v).dimA = s.dimA := rfl
@[simp] theorem State.acknowledge_dimB (v : Word) : (s.acknowledge v).dimB = s.dimB := rfl
@[simp] theorem State.acknowledge_erase (v : Word) : (s.acknowledge v).erase = s.erase := rfl
@[simp] theorem State.acknowledge_shardBase (v : Word) : (s.acknowledge v).shardBase = s.shardBase := rfl
@[simp] theorem State.acknowledge_runCmd (v : Word) : (s.acknowledge v).runCmd = s.runCmd := rfl
@[simp] theorem State.acknowledge_tables (v : Word) : (s.acknowledge v).tables = s.tables := rfl
@[simp] theorem State.acknowledge_gen (v : Word) : (s.acknowledge v).gen = s.gen := rfl
@[simp] theorem State.acknowledge_dmem (v : Word) : (s.acknowledge v).dmem = s.dmem := rfl
@[simp] theorem State.acknowledge_rst (v : Word) : (s.acknowledge v).rst = s.rst := rfl
@[simp] theorem State.acknowledge_resp (v : Word) : (s.acknowledge v).resp = s.resp := rfl
@[simp] theorem State.acknowledge_events (v : Word) : (s.acknowledge v).events = s.events := rfl
@[simp] theorem State.acknowledge_freeCtr (v : Word) : (s.acknowledge v).freeCtr = s.freeCtr := rfl

/-! ## `dropWrite` -/
@[simp] theorem State.dropWrite_build : (s.dropWrite).build = s.build := rfl
@[simp] theorem State.dropWrite_irqEn : (s.dropWrite).irqEn = s.irqEn := rfl
@[simp] theorem State.dropWrite_status : (s.dropWrite).status = s.status.dropped := rfl
@[simp] theorem State.dropWrite_result : (s.dropWrite).result = s.result := rfl
@[simp] theorem State.dropWrite_ctx : (s.dropWrite).ctx = s.ctx := rfl
@[simp] theorem State.dropWrite_blockSize : (s.dropWrite).blockSize = s.blockSize := rfl
@[simp] theorem State.dropWrite_maBase : (s.dropWrite).maBase = s.maBase := rfl
@[simp] theorem State.dropWrite_mbBase : (s.dropWrite).mbBase = s.mbBase := rfl
@[simp] theorem State.dropWrite_mcBase : (s.dropWrite).mcBase = s.mcBase := rfl
@[simp] theorem State.dropWrite_dimA : (s.dropWrite).dimA = s.dimA := rfl
@[simp] theorem State.dropWrite_dimB : (s.dropWrite).dimB = s.dimB := rfl
@[simp] theorem State.dropWrite_erase : (s.dropWrite).erase = s.erase := rfl
@[simp] theorem State.dropWrite_shardBase : (s.dropWrite).shardBase = s.shardBase := rfl
@[simp] theorem State.dropWrite_runCmd : (s.dropWrite).runCmd = s.runCmd := rfl
@[simp] theorem State.dropWrite_tables : (s.dropWrite).tables = s.tables := rfl
@[simp] theorem State.dropWrite_gen : (s.dropWrite).gen = s.gen := rfl
@[simp] theorem State.dropWrite_dmem : (s.dropWrite).dmem = s.dmem := rfl
@[simp] theorem State.dropWrite_rst : (s.dropWrite).rst = s.rst := rfl
@[simp] theorem State.dropWrite_resp : (s.dropWrite).resp = s.resp := rfl
@[simp] theorem State.dropWrite_events : (s.dropWrite).events = s.events := rfl
@[simp] theorem State.dropWrite_freeCtr : (s.dropWrite).freeCtr = s.freeCtr := rfl

/-! ## `store` -/
@[simp] theorem State.store_build (cs : List Host.Cell) : (s.store cs).build = s.build := rfl
@[simp] theorem State.store_irqEn (cs : List Host.Cell) : (s.store cs).irqEn = s.irqEn := rfl
@[simp] theorem State.store_status (cs : List Host.Cell) : (s.store cs).status = s.status := rfl
@[simp] theorem State.store_result (cs : List Host.Cell) : (s.store cs).result = s.result := rfl
@[simp] theorem State.store_ctx (cs : List Host.Cell) : (s.store cs).ctx = s.ctx := rfl
@[simp] theorem State.store_blockSize (cs : List Host.Cell) : (s.store cs).blockSize = s.blockSize := rfl
@[simp] theorem State.store_maBase (cs : List Host.Cell) : (s.store cs).maBase = s.maBase := rfl
@[simp] theorem State.store_mbBase (cs : List Host.Cell) : (s.store cs).mbBase = s.mbBase := rfl
@[simp] theorem State.store_mcBase (cs : List Host.Cell) : (s.store cs).mcBase = s.mcBase := rfl
@[simp] theorem State.store_dimA (cs : List Host.Cell) : (s.store cs).dimA = s.dimA := rfl
@[simp] theorem State.store_dimB (cs : List Host.Cell) : (s.store cs).dimB = s.dimB := rfl
@[simp] theorem State.store_erase (cs : List Host.Cell) : (s.store cs).erase = s.erase := rfl
@[simp] theorem State.store_shardBase (cs : List Host.Cell) : (s.store cs).shardBase = s.shardBase := rfl
@[simp] theorem State.store_runCmd (cs : List Host.Cell) : (s.store cs).runCmd = s.runCmd := rfl
@[simp] theorem State.store_tables (cs : List Host.Cell) : (s.store cs).tables = s.tables := rfl
@[simp] theorem State.store_gen (cs : List Host.Cell) : (s.store cs).gen = s.gen := rfl
@[simp] theorem State.store_dmem (cs : List Host.Cell) : (s.store cs).dmem = Memory.setAll s.dmem cs := rfl
@[simp] theorem State.store_rst (cs : List Host.Cell) : (s.store cs).rst = s.rst := rfl
@[simp] theorem State.store_resp (cs : List Host.Cell) : (s.store cs).resp = s.resp := rfl
@[simp] theorem State.store_events (cs : List Host.Cell) : (s.store cs).events = s.events := rfl
@[simp] theorem State.store_freeCtr (cs : List Host.Cell) : (s.store cs).freeCtr = s.freeCtr := rfl

/-! ## `setResult` -/
@[simp] theorem State.setResult_build (v : Byte) : (s.setResult v).build = s.build := rfl
@[simp] theorem State.setResult_irqEn (v : Byte) : (s.setResult v).irqEn = s.irqEn := rfl
@[simp] theorem State.setResult_status (v : Byte) : (s.setResult v).status = s.status := rfl
@[simp] theorem State.setResult_result (v : Byte) : (s.setResult v).result = v := rfl
@[simp] theorem State.setResult_ctx (v : Byte) : (s.setResult v).ctx = s.ctx := rfl
@[simp] theorem State.setResult_blockSize (v : Byte) : (s.setResult v).blockSize = s.blockSize := rfl
@[simp] theorem State.setResult_maBase (v : Byte) : (s.setResult v).maBase = s.maBase := rfl
@[simp] theorem State.setResult_mbBase (v : Byte) : (s.setResult v).mbBase = s.mbBase := rfl
@[simp] theorem State.setResult_mcBase (v : Byte) : (s.setResult v).mcBase = s.mcBase := rfl
@[simp] theorem State.setResult_dimA (v : Byte) : (s.setResult v).dimA = s.dimA := rfl
@[simp] theorem State.setResult_dimB (v : Byte) : (s.setResult v).dimB = s.dimB := rfl
@[simp] theorem State.setResult_erase (v : Byte) : (s.setResult v).erase = s.erase := rfl
@[simp] theorem State.setResult_shardBase (v : Byte) : (s.setResult v).shardBase = s.shardBase := rfl
@[simp] theorem State.setResult_runCmd (v : Byte) : (s.setResult v).runCmd = s.runCmd := rfl
@[simp] theorem State.setResult_tables (v : Byte) : (s.setResult v).tables = s.tables := rfl
@[simp] theorem State.setResult_gen (v : Byte) : (s.setResult v).gen = s.gen := rfl
@[simp] theorem State.setResult_dmem (v : Byte) : (s.setResult v).dmem = s.dmem := rfl
@[simp] theorem State.setResult_rst (v : Byte) : (s.setResult v).rst = s.rst := rfl
@[simp] theorem State.setResult_resp (v : Byte) : (s.setResult v).resp = s.resp := rfl
@[simp] theorem State.setResult_events (v : Byte) : (s.setResult v).events = s.events := rfl
@[simp] theorem State.setResult_freeCtr (v : Byte) : (s.setResult v).freeCtr = s.freeCtr := rfl

/-! ## `withNewContext` -/
@[simp] theorem State.withNewContext_build (k m : Byte) : (s.withNewContext k m).build = s.build := rfl
@[simp] theorem State.withNewContext_irqEn (k m : Byte) : (s.withNewContext k m).irqEn = s.irqEn := rfl
@[simp] theorem State.withNewContext_status (k m : Byte) : (s.withNewContext k m).status = { s.status with ctxValid := true } := rfl
@[simp] theorem State.withNewContext_result (k m : Byte) : (s.withNewContext k m).result = s.result := rfl
@[simp] theorem State.withNewContext_ctx (k m : Byte) : (s.withNewContext k m).ctx = ⟨k, m⟩ := rfl
@[simp] theorem State.withNewContext_blockSize (k m : Byte) : (s.withNewContext k m).blockSize = s.blockSize := rfl
@[simp] theorem State.withNewContext_maBase (k m : Byte) : (s.withNewContext k m).maBase = s.maBase := rfl
@[simp] theorem State.withNewContext_mbBase (k m : Byte) : (s.withNewContext k m).mbBase = s.mbBase := rfl
@[simp] theorem State.withNewContext_mcBase (k m : Byte) : (s.withNewContext k m).mcBase = s.mcBase := rfl
@[simp] theorem State.withNewContext_dimA (k m : Byte) : (s.withNewContext k m).dimA = s.dimA := rfl
@[simp] theorem State.withNewContext_dimB (k m : Byte) : (s.withNewContext k m).dimB = s.dimB := rfl
@[simp] theorem State.withNewContext_erase (k m : Byte) : (s.withNewContext k m).erase = s.erase := rfl
@[simp] theorem State.withNewContext_shardBase (k m : Byte) : (s.withNewContext k m).shardBase = s.shardBase := rfl
@[simp] theorem State.withNewContext_runCmd (k m : Byte) : (s.withNewContext k m).runCmd = s.runCmd := rfl
@[simp] theorem State.withNewContext_tables (k m : Byte) : (s.withNewContext k m).tables = s.tables := rfl
@[simp] theorem State.withNewContext_gen (k m : Byte) : (s.withNewContext k m).gen = buildGen s.tables k.toNat m.toNat := rfl
@[simp] theorem State.withNewContext_dmem (k m : Byte) : (s.withNewContext k m).dmem = s.dmem := rfl
@[simp] theorem State.withNewContext_rst (k m : Byte) : (s.withNewContext k m).rst = s.rst := rfl
@[simp] theorem State.withNewContext_resp (k m : Byte) : (s.withNewContext k m).resp = s.resp := rfl
@[simp] theorem State.withNewContext_events (k m : Byte) : (s.withNewContext k m).events = s.events := rfl
@[simp] theorem State.withNewContext_freeCtr (k m : Byte) : (s.withNewContext k m).freeCtr = s.freeCtr := rfl

/-! ## `withoutContext` -/
@[simp] theorem State.withoutContext_build : (s.withoutContext).build = s.build := rfl
@[simp] theorem State.withoutContext_irqEn : (s.withoutContext).irqEn = s.irqEn := rfl
@[simp] theorem State.withoutContext_status : (s.withoutContext).status = { s.status with ctxValid := false } := rfl
@[simp] theorem State.withoutContext_result : (s.withoutContext).result = s.result := rfl
@[simp] theorem State.withoutContext_ctx : (s.withoutContext).ctx = ⟨0, 0⟩ := rfl
@[simp] theorem State.withoutContext_blockSize : (s.withoutContext).blockSize = s.blockSize := rfl
@[simp] theorem State.withoutContext_maBase : (s.withoutContext).maBase = s.maBase := rfl
@[simp] theorem State.withoutContext_mbBase : (s.withoutContext).mbBase = s.mbBase := rfl
@[simp] theorem State.withoutContext_mcBase : (s.withoutContext).mcBase = s.mcBase := rfl
@[simp] theorem State.withoutContext_dimA : (s.withoutContext).dimA = s.dimA := rfl
@[simp] theorem State.withoutContext_dimB : (s.withoutContext).dimB = s.dimB := rfl
@[simp] theorem State.withoutContext_erase : (s.withoutContext).erase = s.erase := rfl
@[simp] theorem State.withoutContext_shardBase : (s.withoutContext).shardBase = s.shardBase := rfl
@[simp] theorem State.withoutContext_runCmd : (s.withoutContext).runCmd = s.runCmd := rfl
@[simp] theorem State.withoutContext_tables : (s.withoutContext).tables = s.tables := rfl
@[simp] theorem State.withoutContext_gen : (s.withoutContext).gen = [] := rfl
@[simp] theorem State.withoutContext_dmem : (s.withoutContext).dmem = s.dmem := rfl
@[simp] theorem State.withoutContext_rst : (s.withoutContext).rst = s.rst := rfl
@[simp] theorem State.withoutContext_resp : (s.withoutContext).resp = s.resp := rfl
@[simp] theorem State.withoutContext_events : (s.withoutContext).events = s.events := rfl
@[simp] theorem State.withoutContext_freeCtr : (s.withoutContext).freeCtr = s.freeCtr + 1 := rfl

/-! ## `respond` -/
@[simp] theorem State.respond_build (r : BusResponse) : (s.respond r).build = s.build := rfl
@[simp] theorem State.respond_irqEn (r : BusResponse) : (s.respond r).irqEn = s.irqEn := rfl
@[simp] theorem State.respond_status (r : BusResponse) : (s.respond r).status = s.status := rfl
@[simp] theorem State.respond_result (r : BusResponse) : (s.respond r).result = s.result := rfl
@[simp] theorem State.respond_ctx (r : BusResponse) : (s.respond r).ctx = s.ctx := rfl
@[simp] theorem State.respond_blockSize (r : BusResponse) : (s.respond r).blockSize = s.blockSize := rfl
@[simp] theorem State.respond_maBase (r : BusResponse) : (s.respond r).maBase = s.maBase := rfl
@[simp] theorem State.respond_mbBase (r : BusResponse) : (s.respond r).mbBase = s.mbBase := rfl
@[simp] theorem State.respond_mcBase (r : BusResponse) : (s.respond r).mcBase = s.mcBase := rfl
@[simp] theorem State.respond_dimA (r : BusResponse) : (s.respond r).dimA = s.dimA := rfl
@[simp] theorem State.respond_dimB (r : BusResponse) : (s.respond r).dimB = s.dimB := rfl
@[simp] theorem State.respond_erase (r : BusResponse) : (s.respond r).erase = s.erase := rfl
@[simp] theorem State.respond_shardBase (r : BusResponse) : (s.respond r).shardBase = s.shardBase := rfl
@[simp] theorem State.respond_runCmd (r : BusResponse) : (s.respond r).runCmd = s.runCmd := rfl
@[simp] theorem State.respond_tables (r : BusResponse) : (s.respond r).tables = s.tables := rfl
@[simp] theorem State.respond_gen (r : BusResponse) : (s.respond r).gen = s.gen := rfl
@[simp] theorem State.respond_dmem (r : BusResponse) : (s.respond r).dmem = s.dmem := rfl
@[simp] theorem State.respond_rst (r : BusResponse) : (s.respond r).rst = s.rst := rfl
@[simp] theorem State.respond_resp (r : BusResponse) : (s.respond r).resp = r := rfl
@[simp] theorem State.respond_events (r : BusResponse) : (s.respond r).events = s.events := rfl
@[simp] theorem State.respond_freeCtr (r : BusResponse) : (s.respond r).freeCtr = s.freeCtr := rfl

/-! ## `assertReset` -/
@[simp] theorem State.assertReset_build : (s.assertReset).build = s.build := rfl
@[simp] theorem State.assertReset_irqEn : (s.assertReset).irqEn = false := rfl
@[simp] theorem State.assertReset_status : (s.assertReset).status = Status.reset := rfl
@[simp] theorem State.assertReset_result : (s.assertReset).result = 0 := rfl
@[simp] theorem State.assertReset_ctx : (s.assertReset).ctx = ⟨0, 0⟩ := rfl
@[simp] theorem State.assertReset_blockSize : (s.assertReset).blockSize = 0 := rfl
@[simp] theorem State.assertReset_maBase : (s.assertReset).maBase = 0 := rfl
@[simp] theorem State.assertReset_mbBase : (s.assertReset).mbBase = 0 := rfl
@[simp] theorem State.assertReset_mcBase : (s.assertReset).mcBase = 0 := rfl
@[simp] theorem State.assertReset_dimA : (s.assertReset).dimA = ⟨0, 0⟩ := rfl
@[simp] theorem State.assertReset_dimB : (s.assertReset).dimB = ⟨0, 0⟩ := rfl
@[simp] theorem State.assertReset_erase : (s.assertReset).erase = Vector.replicate 8 0 := rfl
@[simp] theorem State.assertReset_shardBase : (s.assertReset).shardBase = Vector.replicate 256 0 := rfl
@[simp] theorem State.assertReset_runCmd : (s.assertReset).runCmd = none := rfl
@[simp] theorem State.assertReset_tables : (s.assertReset).tables = ⟨[], []⟩ := rfl
@[simp] theorem State.assertReset_gen : (s.assertReset).gen = [] := rfl
@[simp] theorem State.assertReset_dmem : (s.assertReset).dmem = s.dmemAfterReset := rfl
@[simp] theorem State.assertReset_rst : (s.assertReset).rst = true := rfl
@[simp] theorem State.assertReset_resp : (s.assertReset).resp = .noResponse := rfl
@[simp] theorem State.assertReset_events : (s.assertReset).events = s.events := rfl
@[simp] theorem State.assertReset_freeCtr : (s.assertReset).freeCtr = s.freeCtr + 1 := rfl

/-! ## `releaseReset` -/
@[simp] theorem State.releaseReset_build : (s.releaseReset).build = s.build := rfl
@[simp] theorem State.releaseReset_irqEn : (s.releaseReset).irqEn = s.irqEn := rfl
@[simp] theorem State.releaseReset_status : (s.releaseReset).status = s.status := rfl
@[simp] theorem State.releaseReset_result : (s.releaseReset).result = s.result := rfl
@[simp] theorem State.releaseReset_ctx : (s.releaseReset).ctx = s.ctx := rfl
@[simp] theorem State.releaseReset_blockSize : (s.releaseReset).blockSize = s.blockSize := rfl
@[simp] theorem State.releaseReset_maBase : (s.releaseReset).maBase = s.maBase := rfl
@[simp] theorem State.releaseReset_mbBase : (s.releaseReset).mbBase = s.mbBase := rfl
@[simp] theorem State.releaseReset_mcBase : (s.releaseReset).mcBase = s.mcBase := rfl
@[simp] theorem State.releaseReset_dimA : (s.releaseReset).dimA = s.dimA := rfl
@[simp] theorem State.releaseReset_dimB : (s.releaseReset).dimB = s.dimB := rfl
@[simp] theorem State.releaseReset_erase : (s.releaseReset).erase = s.erase := rfl
@[simp] theorem State.releaseReset_shardBase : (s.releaseReset).shardBase = s.shardBase := rfl
@[simp] theorem State.releaseReset_runCmd : (s.releaseReset).runCmd = s.runCmd := rfl
@[simp] theorem State.releaseReset_tables : (s.releaseReset).tables = s.tables := rfl
@[simp] theorem State.releaseReset_gen : (s.releaseReset).gen = s.gen := rfl
@[simp] theorem State.releaseReset_dmem : (s.releaseReset).dmem = s.dmem := rfl
@[simp] theorem State.releaseReset_rst : (s.releaseReset).rst = false := rfl
@[simp] theorem State.releaseReset_resp : (s.releaseReset).resp = s.resp := rfl
@[simp] theorem State.releaseReset_events : (s.releaseReset).events = s.events := rfl
@[simp] theorem State.releaseReset_freeCtr : (s.releaseReset).freeCtr = s.freeCtr := rfl

/-! ## `withCommand` -/
@[simp] theorem State.withCommand_build (w : Word) : (s.withCommand w).build = s.build := rfl
@[simp] theorem State.withCommand_irqEn (w : Word) : (s.withCommand w).irqEn = s.irqEn := rfl
@[simp] theorem State.withCommand_status (w : Word) : (s.withCommand w).status = s.status.accepted := rfl
@[simp] theorem State.withCommand_result (w : Word) : (s.withCommand w).result = s.result := rfl
@[simp] theorem State.withCommand_ctx (w : Word) : (s.withCommand w).ctx = s.ctx := rfl
@[simp] theorem State.withCommand_blockSize (w : Word) : (s.withCommand w).blockSize = s.blockSize := rfl
@[simp] theorem State.withCommand_maBase (w : Word) : (s.withCommand w).maBase = s.maBase := rfl
@[simp] theorem State.withCommand_mbBase (w : Word) : (s.withCommand w).mbBase = s.mbBase := rfl
@[simp] theorem State.withCommand_mcBase (w : Word) : (s.withCommand w).mcBase = s.mcBase := rfl
@[simp] theorem State.withCommand_dimA (w : Word) : (s.withCommand w).dimA = s.dimA := rfl
@[simp] theorem State.withCommand_dimB (w : Word) : (s.withCommand w).dimB = s.dimB := rfl
@[simp] theorem State.withCommand_erase (w : Word) : (s.withCommand w).erase = s.erase := rfl
@[simp] theorem State.withCommand_shardBase (w : Word) : (s.withCommand w).shardBase = s.shardBase := rfl
@[simp] theorem State.withCommand_runCmd (w : Word) : (s.withCommand w).runCmd = some w := rfl
@[simp] theorem State.withCommand_tables (w : Word) : (s.withCommand w).tables = s.tables := rfl
@[simp] theorem State.withCommand_gen (w : Word) : (s.withCommand w).gen = s.gen := rfl
@[simp] theorem State.withCommand_dmem (w : Word) : (s.withCommand w).dmem = s.dmem := rfl
@[simp] theorem State.withCommand_rst (w : Word) : (s.withCommand w).rst = s.rst := rfl
@[simp] theorem State.withCommand_resp (w : Word) : (s.withCommand w).resp = s.resp := rfl
@[simp] theorem State.withCommand_events (w : Word) : (s.withCommand w).events = .complete :: s.events := rfl
@[simp] theorem State.withCommand_freeCtr (w : Word) : (s.withCommand w).freeCtr = s.freeCtr := rfl

variable (f : Status)

/-! ## `Status.accepted` -/
@[simp] theorem Status.accepted_busy : (f.accepted).busy = true := rfl
@[simp] theorem Status.accepted_done : (f.accepted).done = false := rfl
@[simp] theorem Status.accepted_err : (f.accepted).err = false := rfl
@[simp] theorem Status.accepted_overrun : (f.accepted).overrun = f.overrun := rfl
@[simp] theorem Status.accepted_initDone : (f.accepted).initDone = f.initDone := rfl
@[simp] theorem Status.accepted_ctxValid : (f.accepted).ctxValid = f.ctxValid := rfl
@[simp] theorem Status.accepted_errCode : (f.accepted).errCode = .noError := rfl
@[simp] theorem Status.accepted_errCause : (f.accepted).errCause = .noCause := rfl

/-! ## `Status.completed` -/
@[simp] theorem Status.completed_busy (c : ErrCode) (k : ErrCause) : (f.completed c k).busy = false := rfl
@[simp] theorem Status.completed_done (c : ErrCode) (k : ErrCause) : (f.completed c k).done = true := rfl
@[simp] theorem Status.completed_err (c : ErrCode) (k : ErrCause) : (f.completed c k).err = decide (c ≠ .noError) := rfl
@[simp] theorem Status.completed_overrun (c : ErrCode) (k : ErrCause) : (f.completed c k).overrun = f.overrun := rfl
@[simp] theorem Status.completed_initDone (c : ErrCode) (k : ErrCause) : (f.completed c k).initDone = f.initDone := rfl
@[simp] theorem Status.completed_ctxValid (c : ErrCode) (k : ErrCause) : (f.completed c k).ctxValid = f.ctxValid := rfl
@[simp] theorem Status.completed_errCode (c : ErrCode) (k : ErrCause) : (f.completed c k).errCode = c := rfl
@[simp] theorem Status.completed_errCause (c : ErrCode) (k : ErrCause) : (f.completed c k).errCause = k := rfl

/-! ## `Status.dropped` -/
@[simp] theorem Status.dropped_busy : (f.dropped).busy = f.busy := rfl
@[simp] theorem Status.dropped_done : (f.dropped).done = f.done := rfl
@[simp] theorem Status.dropped_err : (f.dropped).err = f.err := rfl
@[simp] theorem Status.dropped_overrun : (f.dropped).overrun = true := rfl
@[simp] theorem Status.dropped_initDone : (f.dropped).initDone = f.initDone := rfl
@[simp] theorem Status.dropped_ctxValid : (f.dropped).ctxValid = f.ctxValid := rfl
@[simp] theorem Status.dropped_errCode : (f.dropped).errCode = f.errCode := rfl
@[simp] theorem Status.dropped_errCause : (f.dropped).errCause = f.errCause := rfl

/-! ## `Status.written` -/
@[simp] theorem Status.written_busy (v : Word) : (f.written v).busy = f.busy := rfl
@[simp] theorem Status.written_done (v : Word) : (f.written v).done = (f.done && !v.getLsbD 1) := rfl
@[simp] theorem Status.written_err (v : Word) : (f.written v).err = f.err := rfl
@[simp] theorem Status.written_overrun (v : Word) : (f.written v).overrun = (f.overrun && !v.getLsbD 3) := rfl
@[simp] theorem Status.written_initDone (v : Word) : (f.written v).initDone = f.initDone := rfl
@[simp] theorem Status.written_ctxValid (v : Word) : (f.written v).ctxValid = f.ctxValid := rfl
@[simp] theorem Status.written_errCode (v : Word) : (f.written v).errCode = f.errCode := rfl
@[simp] theorem Status.written_errCause (v : Word) : (f.written v).errCause = f.errCause := rfl

end Machine
end Sys2Proof
end

