-- ==== Sys2Proof/Laws/Ops.lean ====
section
/-! SUPPORT. What each shared operation can do, said once (60_exceptions.md R172-R175). -/
namespace Sys2Proof
namespace Machine

/-! ## The complete step -/

/-- If the complete step answers a next state, the command either succeeded with effects `t0` or reported an error. -/
theorem State.finish_next {s t : State} {e : Ending} (h : s.finish e = .next t) :
    (∃ t0, e = .success t0 ∧ t = t0.complete .noError .noCause) ∨
    (∃ c k, e = .error c k ∧ t = s.complete c k) := by
  cases e with
  | success t0 => exact .inl ⟨t0, rfl, by simpa [State.finish, eq_comm] using h⟩
  | error c k => exact .inr ⟨c, k, rfl, by simpa [State.finish, eq_comm] using h⟩
  | modelFault f => simp [State.finish] at h

@[simp] theorem State.finish_success (s t : State) : s.finish (.success t) = .next (t.complete .noError .noCause) := rfl
@[simp] theorem State.finish_error (s : State) (c : ErrCode) (k : ErrCause) :
    s.finish (.error c k) = .next (s.complete c k) := rfl
@[simp] theorem State.finish_modelFault (s : State) (f : Fault) : s.finish (.modelFault f) = .fault f := rfl

theorem State.finish_not_refused (s : State) (e : Ending) (r : Refusal) : s.finish e ≠ .refused r := by
  cases e <;> simp [State.finish]

/-! ## The prologue and the checks -/

theorem State.afterInit_of_init {s : State} (h : s.status.initDone = true) (e : Ending) :
    s.afterInit e = s.finish e := by simp [State.afterInit, h]

theorem State.afterInit_of_not_init {s : State} (h : s.status.initDone = false) (e : Ending) :
    s.afterInit e = .next (s.complete .notInitialized .noCause) := by simp [State.afterInit, h]

/-- If a command behind the NotInitialized check answers a next state, INIT was missing, or it succeeded, or it reported
an error. -/
theorem State.afterInit_next {s t : State} {e : Ending} (h : s.afterInit e = .next t) :
    (s.status.initDone = false ∧ t = s.complete .notInitialized .noCause) ∨
    (s.status.initDone = true ∧ ∃ t0, e = .success t0 ∧ t = t0.complete .noError .noCause) ∨
    (s.status.initDone = true ∧ ∃ c k, e = .error c k ∧ t = s.complete c k) := by
  cases hi : s.status.initDone with
  | false => rw [State.afterInit_of_not_init hi] at h; injection h with h; exact .inl ⟨rfl, h.symm⟩
  | true =>
    rw [State.afterInit_of_init hi] at h
    rcases State.finish_next h with h | h
    · exact .inr (.inl ⟨rfl, h⟩)
    · exact .inr (.inr ⟨rfl, h⟩)

theorem State.afterInit_not_refused (s : State) (e : Ending) (r : Refusal) : s.afterInit e ≠ .refused r := by
  unfold State.afterInit
  split
  · exact State.finish_not_refused s e r
  · simp

theorem State.withContext_of_valid {s : State} (h : s.status.ctxValid = true) (e : Ending) : s.withContext e = e := by
  simp [State.withContext, h]

theorem State.withContext_of_not_valid {s : State} (h : s.status.ctxValid = false) (e : Ending) :
    s.withContext e = .error .noContext .noCause := by simp [State.withContext, h]

/-- The AddressError check: passed iff every region is in range. -/
theorem State.withRegions_of_inRange {s : State} {rs : List Region}
    (h : ∀ r ∈ rs, r.base + r.len ≤ s.build.memBytes) (e : Ending) : s.withRegions rs e = e := by
  have : rs.all (·.inRange s.build) = true := by simpa [List.all_eq_true] using h
  simp [State.withRegions, this]

theorem State.withRegions_of_not_inRange {s : State} {rs : List Region} {r : Region} (hr : r ∈ rs)
    (h : ¬r.base + r.len ≤ s.build.memBytes) (e : Ending) : s.withRegions rs e = .error .addressError .noCause := by
  have : ¬rs.all (·.inRange s.build) = true := by
    simp only [List.all_eq_true, Region.inRange_iff, not_forall]
    exact ⟨r, hr, h⟩
  simp [State.withRegions, this]

theorem withoutOverlap_of_clear {ws ps : List Region} (h : overlapHazard ws ps = false) (e : Ending) :
    withoutOverlap ws ps e = e := by simp [withoutOverlap, h]

theorem withoutOverlap_of_hazard {ws ps : List Region} (h : overlapHazard ws ps = true) (e : Ending) :
    withoutOverlap ws ps e = .modelFault .overlapHazard := by simp [withoutOverlap, h]

/-- The UninitRead verdict is passed iff every byte read is written. -/
theorem State.withWritten_of_written {s : State} {as : List Nat} (h : ∀ a ∈ as, Memory.byte? s.dmem a ≠ none)
    (e : Ending) : s.withWritten as e = e := by
  have : as.find? (fun a => (Memory.byte? s.dmem a).isNone) = none := by
    rw [List.find?_eq_none]
    intro a ha
    simpa using h a ha
  simp [State.withWritten, this]

/-- Otherwise the fault names an unwritten byte among those read. -/
theorem State.withWritten_of_unwritten {s : State} {as : List Nat} {a : Nat} (ha : a ∈ as)
    (h : Memory.byte? s.dmem a = none) (e : Ending) :
    ∃ b ∈ as, Memory.byte? s.dmem b = none ∧ s.withWritten as e = .modelFault (.uninitRead b) := by
  cases hf : as.find? (fun a => (Memory.byte? s.dmem a).isNone) with
  | none =>
    rw [List.find?_eq_none] at hf
    exact absurd (by simp [h]) (hf a ha)
  | some b =>
    refine ⟨b, List.mem_of_find?_eq_some hf, ?_, by simp [State.withWritten, hf]⟩
    have := List.find?_some hf
    simpa using this

/-! ## What a command's own pseudocode can end in -/

/-- The errors a command can report: never None, and with a cause only for ReconstructionImpossible (R171). -/
def Ending.ErrorsOk (e : Ending) : Prop :=
  ∀ c k, e = .error c k → c ≠ .noError ∧ (k ≠ .noCause → c = .reconstructionImpossible)

theorem Ending.errorsOk_success (t : State) : (Ending.success t).ErrorsOk := fun _ _ h => by simp at h
theorem Ending.errorsOk_modelFault (f : Fault) : (Ending.modelFault f).ErrorsOk := fun _ _ h => by simp at h
theorem Ending.errorsOk_error {c : ErrCode} {k : ErrCause} (hc : c ≠ .noError)
    (hk : k ≠ .noCause → c = .reconstructionImpossible) : (Ending.error c k).ErrorsOk := by
  intro c' k' h
  injection h with h1 h2
  subst h1 h2
  exact ⟨hc, hk⟩

theorem State.withContext_errorsOk {s : State} {e : Ending} (h : e.ErrorsOk) : (s.withContext e).ErrorsOk := by
  unfold State.withContext
  split
  · exact h
  · exact Ending.errorsOk_error (by simp) (by simp)

theorem State.withRegions_errorsOk {s : State} {rs : List Region} {e : Ending} (h : e.ErrorsOk) :
    (s.withRegions rs e).ErrorsOk := by
  unfold State.withRegions
  split
  · exact h
  · exact Ending.errorsOk_error (by simp) (by simp)

theorem withoutOverlap_errorsOk {ws ps : List Region} {e : Ending} (h : e.ErrorsOk) :
    (withoutOverlap ws ps e).ErrorsOk := by
  unfold withoutOverlap
  split
  · exact Ending.errorsOk_modelFault _
  · exact h

theorem State.withWritten_errorsOk {s : State} {as : List Nat} {e : Ending} (h : e.ErrorsOk) :
    (s.withWritten as e).ErrorsOk := by
  unfold State.withWritten
  split
  · exact Ending.errorsOk_modelFault _
  · exact h

/-- An ending that passes the context check. -/
theorem State.withContext_success {s t : State} {e : Ending} (h : s.withContext e = .success t) :
    s.status.ctxValid = true ∧ e = .success t := by
  unfold State.withContext at h
  split at h
  · exact ⟨‹_›, h⟩
  · simp at h

/-- An ending that passes the AddressError check. -/
theorem State.withRegions_success {s t : State} {rs : List Region} {e : Ending}
    (h : s.withRegions rs e = .success t) : (∀ r ∈ rs, r.base + r.len ≤ s.build.memBytes) ∧ e = .success t := by
  unfold State.withRegions at h
  split at h
  · rename_i hr
    exact ⟨by simpa [List.all_eq_true] using hr, h⟩
  · simp at h

/-- An ending that passes the overlap check. -/
theorem withoutOverlap_success {ws ps : List Region} {e : Ending} {t : State}
    (h : withoutOverlap ws ps e = .success t) : overlapHazard ws ps = false ∧ e = .success t := by
  unfold withoutOverlap at h
  split at h
  · simp at h
  · rename_i hc
    exact ⟨by simpa using hc, h⟩

/-- An ending that reads only written bytes. -/
theorem State.withWritten_success {s t : State} {as : List Nat} {e : Ending}
    (h : s.withWritten as e = .success t) : (∀ a ∈ as, Memory.byte? s.dmem a ≠ none) ∧ e = .success t := by
  unfold State.withWritten at h
  split at h
  · simp at h
  · rename_i hf
    rw [List.find?_eq_none] at hf
    exact ⟨fun a ha => by simpa using hf a ha, h⟩

end Machine
end Sys2Proof
end

