-- ==== Sys2Proof/Laws/Exec.lean ====
section
/-! SUPPORT. What a command can do, said once for all of them: where `exec` answers a next state, the command either
reported an error or had its own effect (60_exceptions.md R12, R172, R175). -/
namespace Sys2Proof
namespace Machine

/-- The regions are all in range (20_memory.md R56). -/
def AllInRange (s : State) (rs : List Region) : Prop := ∀ r ∈ rs, r.base + r.len ≤ s.build.memBytes

/-- `t` is `s` with the effects of the command `i` applied, and the checks of `i` before its effects hold in `s`. -/
def Effect (s : State) : Instr → State → Prop
  | .init, t => t = if s.status.initDone then s
      else { s with tables := initTables s.build.gfPoly, status := { s.status with initDone := true } }
  | .gfAdd a b, t => t = s.setResult (gfAdd a b)
  | .gfMul a b, t => t = s.setResult (gfMul s.tables a b)
  | .gfDiv a b, t => ∃ q, gfDiv s.tables a b = some q ∧ t = s.setResult q
  | .gfInv a, t => ∃ q, gfInv s.tables a = some q ∧ t = s.setResult q
  | .gfExp e, t => t = s.setResult (s.tables.expAt (e.toNat % 255))
  | .gfLog a, t => a ≠ 0 ∧ t = s.setResult (s.tables.logAt a)
  | .matMul, t => s.mulMismatch = false ∧ AllInRange s [s.mulA, s.mulB, s.mulC] ∧
      overlapHazard (writeRegions s .matMul) (protectedRegions s .matMul) = false ∧
      (∀ a ∈ s.mulReads, Memory.byte? s.dmem a ≠ none) ∧ t = s.store s.mulCells
  | .matInv, t => s.invMismatch = false ∧ AllInRange s [s.invA, s.invC] ∧
      (∀ a ∈ matAddrs s.maBase s.dimA.rows.toNat s.dimA.rows.toNat, Memory.byte? s.dmem a ≠ none) ∧
      ∃ X, s.invResult = some X ∧ t = s.store (s.invCells X)
  | .ctxCreate k m, t => s.status.ctxValid = false ∧ legalShape k m = true ∧ t = s.withNewContext k m
  | .ctxRelease, t => s.status.ctxValid = true ∧ t = s.withoutContext
  | .ctxGenstore, t => s.status.ctxValid = true ∧ AllInRange s [s.genRegion] ∧ t = s.store s.genCells
  | .rsEncode nd np, t => s.status.ctxValid = true ∧ s.dimsDisagree nd np = false ∧ AllInRange s s.shardRegions ∧
      overlapHazard (writeRegions s (.rsEncode nd np)) (protectedRegions s (.rsEncode nd np)) = false ∧
      (∀ a ∈ s.laneAddrs (List.range s.K), Memory.byte? s.dmem a ≠ none) ∧ t = s.store s.parityCells
  | .rsReconstruct nd np, t => s.status.ctxValid = true ∧ s.dimsDisagree nd np = false ∧
      AllInRange s s.shardRegions ∧ s.erasedShards.length ≤ s.M ∧
      ((s.erasedShards.length = 0 ∧ t = s) ∨
       (s.erasedShards.length ≠ 0 ∧ ∃ Sinv, gjInv s.tables s.survivorMat s.K = some Sinv ∧
        overlapHazard (writeRegions s (.rsReconstruct nd np)) (protectedRegions s (.rsReconstruct nd np)) = false ∧
        (∀ a ∈ s.laneAddrs s.survivors, Memory.byte? s.dmem a ≠ none) ∧ t = s.store (s.recoveredCells Sinv)))

/-! ## One ending per command -/

/-- The pseudocode of a command after the prologue, as its meaning writes it. INIT's goes without the NotInitialized
check. -/
def bodyOf (s : State) : Instr → Ending
  | .init => .success (if s.status.initDone then s
      else { s with tables := initTables s.build.gfPoly, status := { s.status with initDone := true } })
  | .gfAdd a b => .success (s.setResult (gfAdd a b))
  | .gfMul a b => .success (s.setResult (gfMul s.tables a b))
  | .gfDiv a b => s.quotient (gfDiv s.tables a b)
  | .gfInv a => s.quotient (gfInv s.tables a)
  | .gfExp e => .success (s.setResult (s.tables.expAt (e.toNat % 255)))
  | .gfLog a => if a = 0 then .error .domainError .noCause else .success (s.setResult (s.tables.logAt a))
  | .matMul => if s.mulMismatch then .error .dimensionMismatch .noCause
      else s.withRegions [s.mulA, s.mulB, s.mulC]
        (withoutOverlap (writeRegions s .matMul) (protectedRegions s .matMul)
          (s.withWritten s.mulReads (.success (s.store s.mulCells))))
  | .matInv => if s.invMismatch then .error .dimensionMismatch .noCause
      else s.withRegions [s.invA, s.invC]
        (s.withWritten (matAddrs s.maBase s.dimA.rows.toNat s.dimA.rows.toNat) (s.invEnding s.invResult))
  | .ctxCreate k m => if s.status.ctxValid then .error .contextInUse .noCause
      else if legalShape k m then .success (s.withNewContext k m) else .error .invalidParameters .noCause
  | .ctxRelease => s.withContext (.success s.withoutContext)
  | .ctxGenstore => s.withContext (s.withRegions [s.genRegion] (.success (s.store s.genCells)))
  | .rsEncode nd np => s.withContext (
      if s.dimsDisagree nd np then .error .dimensionMismatch .noCause
      else s.withRegions s.shardRegions
        (withoutOverlap (writeRegions s (.rsEncode nd np)) (protectedRegions s (.rsEncode nd np))
          (s.withWritten (s.laneAddrs (List.range s.K)) (.success (s.store s.parityCells)))))
  | .rsReconstruct nd np => s.withContext (
      if s.dimsDisagree nd np then .error .dimensionMismatch .noCause
      else s.withRegions s.shardRegions (
        if s.M < s.erasedShards.length then .error .reconstructionImpossible .tooManyErasures
        else if s.erasedShards.length = 0 then .success s
        else s.recoverEnding nd np (gjInv s.tables s.survivorMat s.K)))

/-- INIT is `finish` of its body. -/
theorem exec_init (s : State) : exec .init s = s.finish (bodyOf s .init) := rfl

/-- Every other command is its body behind the NotInitialized check (R173). -/
theorem exec_of_ne_init {i : Instr} (h : i ≠ .init) (s : State) : exec i s = s.afterInit (bodyOf s i) := by
  cases i <;> first | rfl | exact absurd rfl h

/-- The errors of every command are proper error codes (R170, R171). -/
theorem bodyOf_errorsOk (s : State) (i : Instr) : (bodyOf s i).ErrorsOk := by
  cases i with
  | init => exact Ending.errorsOk_success _
  | gfAdd a b => exact Ending.errorsOk_success _
  | gfMul a b => exact Ending.errorsOk_success _
  | gfDiv a b =>
    simp only [bodyOf, State.quotient]
    split
    · exact Ending.errorsOk_error (by simp) (by simp)
    · exact Ending.errorsOk_success _
  | gfInv a =>
    simp only [bodyOf, State.quotient]
    split
    · exact Ending.errorsOk_error (by simp) (by simp)
    · exact Ending.errorsOk_success _
  | gfExp e => exact Ending.errorsOk_success _
  | gfLog a =>
    simp only [bodyOf]
    split
    · exact Ending.errorsOk_error (by simp) (by simp)
    · exact Ending.errorsOk_success _
  | matMul =>
    simp only [bodyOf]
    split
    · exact Ending.errorsOk_error (by simp) (by simp)
    · exact State.withRegions_errorsOk (withoutOverlap_errorsOk (State.withWritten_errorsOk (Ending.errorsOk_success _)))
  | matInv =>
    simp only [bodyOf]
    split
    · exact Ending.errorsOk_error (by simp) (by simp)
    · refine State.withRegions_errorsOk (State.withWritten_errorsOk ?_)
      cases s.invResult with
      | none => exact Ending.errorsOk_error (by simp) (by simp)
      | some X => exact Ending.errorsOk_success _
  | ctxCreate k m =>
    simp only [bodyOf]
    split
    · exact Ending.errorsOk_error (by simp) (by simp)
    · split
      · exact Ending.errorsOk_success _
      · exact Ending.errorsOk_error (by simp) (by simp)
  | ctxRelease => exact State.withContext_errorsOk (Ending.errorsOk_success _)
  | ctxGenstore => exact State.withContext_errorsOk (State.withRegions_errorsOk (Ending.errorsOk_success _))
  | rsEncode nd np =>
    refine State.withContext_errorsOk ?_
    split
    · exact Ending.errorsOk_error (by simp) (by simp)
    · exact State.withRegions_errorsOk (withoutOverlap_errorsOk (State.withWritten_errorsOk (Ending.errorsOk_success _)))
  | rsReconstruct nd np =>
    refine State.withContext_errorsOk ?_
    split
    · exact Ending.errorsOk_error (by simp) (by simp)
    · refine State.withRegions_errorsOk ?_
      split
      · exact Ending.errorsOk_error (by simp) (by simp)
      · split
        · exact Ending.errorsOk_success _
        · cases gjInv s.tables s.survivorMat s.K with
          | none => exact Ending.errorsOk_error (by simp) (by simp)
          | some Sinv =>
            exact withoutOverlap_errorsOk (State.withWritten_errorsOk (Ending.errorsOk_success _))

/-- A command whose body succeeds has its effect. -/
theorem effect_of_bodyOf {s t : State} {i : Instr} (h : bodyOf s i = .success t) : Effect s i t := by
  cases i with
  | init => exact (Ending.success.inj h).symm
  | gfAdd a b => exact (Ending.success.inj h).symm
  | gfMul a b => exact (Ending.success.inj h).symm
  | gfDiv a b =>
    simp only [bodyOf] at h
    cases hq : gfDiv s.tables a b with
    | none => simp [hq, State.quotient] at h
    | some q => exact ⟨q, hq, by rw [hq] at h; exact (Ending.success.inj h).symm⟩
  | gfInv a =>
    simp only [bodyOf] at h
    cases hq : gfInv s.tables a with
    | none => simp [hq, State.quotient] at h
    | some q => exact ⟨q, hq, by rw [hq] at h; exact (Ending.success.inj h).symm⟩
  | gfExp e => exact (Ending.success.inj h).symm
  | gfLog a =>
    simp only [bodyOf] at h
    split at h
    · simp at h
    · exact ⟨‹_›, (Ending.success.inj h).symm⟩
  | matMul =>
    simp only [bodyOf] at h
    split at h
    · simp at h
    · rename_i hm
      obtain ⟨hr, h⟩ := State.withRegions_success h
      obtain ⟨ho, h⟩ := withoutOverlap_success h
      obtain ⟨hw, h⟩ := State.withWritten_success h
      exact ⟨by simpa using hm, hr, ho, hw, (Ending.success.inj h).symm⟩
  | matInv =>
    simp only [bodyOf] at h
    split at h
    · simp at h
    · rename_i hm
      obtain ⟨hr, h⟩ := State.withRegions_success h
      obtain ⟨hw, h⟩ := State.withWritten_success h
      cases hX : s.invResult with
      | none => simp [hX, State.invEnding] at h
      | some X => exact ⟨by simpa using hm, hr, hw, X, hX, by rw [hX] at h; exact (Ending.success.inj h).symm⟩
  | ctxCreate k m =>
    simp only [bodyOf] at h
    split at h
    · simp at h
    · rename_i hv
      split at h
      · exact ⟨by simpa using hv, ‹_›, (Ending.success.inj h).symm⟩
      · simp at h
  | ctxRelease =>
    obtain ⟨hv, h⟩ := State.withContext_success h
    exact ⟨hv, (Ending.success.inj h).symm⟩
  | ctxGenstore =>
    obtain ⟨hv, h⟩ := State.withContext_success h
    obtain ⟨hr, h⟩ := State.withRegions_success h
    exact ⟨hv, hr, (Ending.success.inj h).symm⟩
  | rsEncode nd np =>
    obtain ⟨hv, h⟩ := State.withContext_success h
    split at h
    · simp at h
    · rename_i hd
      obtain ⟨hr, h⟩ := State.withRegions_success h
      obtain ⟨ho, h⟩ := withoutOverlap_success h
      obtain ⟨hw, h⟩ := State.withWritten_success h
      exact ⟨hv, by simpa using hd, hr, ho, hw, (Ending.success.inj h).symm⟩
  | rsReconstruct nd np =>
    obtain ⟨hv, h⟩ := State.withContext_success h
    split at h
    · simp at h
    · rename_i hd
      obtain ⟨hr, h⟩ := State.withRegions_success h
      split at h
      · simp at h
      · rename_i hm
        refine ⟨hv, by simpa using hd, hr, by omega, ?_⟩
        split at h
        · exact .inl ⟨‹_›, (Ending.success.inj h).symm⟩
        · rename_i he
          cases hS : gjInv s.tables s.survivorMat s.K with
          | none => simp [hS, State.recoverEnding] at h
          | some Sinv =>
            rw [hS] at h
            obtain ⟨ho, h⟩ := withoutOverlap_success h
            obtain ⟨hw, h⟩ := State.withWritten_success h
            exact .inr ⟨he, Sinv, rfl, ho, hw, (Ending.success.inj h).symm⟩

/-! ## All commands -/

/-- What `exec` can do when it answers a next state. -/
theorem exec_next_cases {i : Instr} {s t : State} (h : exec i s = .next t) :
    (∃ c k, c ≠ .noError ∧ (k ≠ .noCause → c = .reconstructionImpossible) ∧ t = s.complete c k) ∨
    ((i ≠ .init → s.status.initDone = true) ∧ ∃ t0, Effect s i t0 ∧ t = t0.complete .noError .noCause) := by
  by_cases hi : i = .init
  · subst hi
    rw [exec_init] at h
    rcases State.finish_next h with ⟨t0, he, ht⟩ | ⟨c, k, he, ht⟩
    · exact .inr ⟨fun h => absurd rfl h, t0, effect_of_bodyOf he, ht⟩
    · obtain ⟨hc, hk⟩ := bodyOf_errorsOk s .init c k he
      exact .inl ⟨c, k, hc, hk, ht⟩
  · rw [exec_of_ne_init hi] at h
    rcases State.afterInit_next h with ⟨_, ht⟩ | ⟨hinit, t0, he, ht⟩ | ⟨_, c, k, he, ht⟩
    · exact .inl ⟨.notInitialized, .noCause, by simp, by simp, ht⟩
    · exact .inr ⟨fun _ => hinit, t0, effect_of_bodyOf he, ht⟩
    · obtain ⟨hc, hk⟩ := bodyOf_errorsOk s i c k he
      exact .inl ⟨c, k, hc, hk, ht⟩

/-- No command is without a meaning. -/
theorem exec_not_refused (i : Instr) (s : State) (r : Refusal) : exec i s ≠ .refused r := by
  by_cases hi : i = .init
  · subst hi; rw [exec_init]; exact State.finish_not_refused _ _ _
  · rw [exec_of_ne_init hi]; exact State.afterInit_not_refused _ _ _

end Machine
end Sys2Proof
end

