-- ==== Sys2Proof/Laws/HostPort.lean ====
section
/-! SUPPORT. What the host port and a step can do (10_state.md R22, 20_memory.md R52, R60, 60_exceptions.md R173): one
lemma per function, and the step's inversion. -/
namespace Sys2Proof
namespace Machine

/-! ## The complete step of a command word -/

theorem completeWord_of_ok {w : Word} {i : Instr} (h : decode w = .ok i) (s : State) : completeWord w s = exec i s := by
  simp [completeWord, h]

theorem completeWord_of_error {w : Word} {e : IllegalWord} (h : decode w = .error e) (s : State) :
    completeWord w s = .next (s.complete .illegalCommand .noCause) := by
  simp [completeWord, h]

theorem State.running_eq_some {s : State} {i : Instr} :
    s.running = some i ↔ ∃ w, s.runCmd = some w ∧ decode w = .ok i := by
  unfold State.running
  cases s.runCmd with
  | none => simp
  | some w => cases h : decode w <;> simp [h]

/-! ## The footprint -/

/-- A command passes its checks unless it answers a state with ERR = 1. -/
theorem passesChecks_eq_false {s : State} {i : Instr} :
    passesChecks s i = false ↔ ∃ t, exec i s = .next t ∧ t.status.err = true := by
  unfold passesChecks
  cases exec i s <;> simp

/-- A race, as a statement about addresses (20_memory.md R59, R60). -/
theorem State.races_iff {s : State} {a n : Nat} :
    s.races a n = true ↔ ∃ i, s.running = some i ∧ s.status.busy = true ∧ passesChecks s i = true ∧
      ∃ r ∈ touchedRegions s i, ∃ x, (a ≤ x ∧ x < a + n) ∧ r.base ≤ x ∧ x < r.base + r.len := by
  unfold State.races State.footprint
  cases hr : s.running with
  | none => simp
  | some i =>
    by_cases hb : (s.status.busy && passesChecks s i) = true
    · obtain ⟨h1, h2⟩ := Bool.and_eq_true_iff.1 hb
      simp only [hb, if_true, List.any_eq_true, Region.overlaps_iff, Region.has_iff, Option.some.injEq]
      constructor
      · exact fun h => ⟨i, rfl, h1, h2, h⟩
      · rintro ⟨_, rfl, _, _, h⟩; exact h
    · simp only [hb, Bool.false_eq_true, if_false, List.any_nil, false_iff]
      rintro ⟨j, hj, h1, h2, -⟩
      cases Option.some.inj hj
      exact hb (by rw [h1, h2]; rfl)

/-! ## Data-memory accesses -/

theorem memAccessLegal_iff {s : State} {a n : Nat} :
    memAccessLegal s a n = true ↔ (n = 1 ∨ n = 2 ∨ n = 4) ∧ a % n = 0 ∧ a + n ≤ s.build.memBytes := by
  simp [memAccessLegal, or_assoc, and_assoc]

/-- The bits of the word a host read returns. -/
theorem State.hostWord_getLsbD (s : State) (a n j : Nat) (hj : j < 32) :
    (s.hostWord a n).getLsbD j = (decide (j < 8 * n) && (s.hostByte a (j / 8)).getLsbD (j % 8)) := by
  induction n with
  | zero => simp [State.hostWord]
  | succ n ih =>
    simp only [State.hostWord, BitVec.getLsbD_xor, ih, BitVec.getLsbD_shiftLeft, zext32, BitVec.getLsbD_setWidth, hj,
      decide_true, Bool.true_and]
    rcases Nat.lt_trichotomy (j / 8) n with h | h | h
    · have h1 : j < 8 * n := by omega
      have h2 : j < 8 * (n + 1) := by omega
      simp [h1, h2]
    · have h1 : ¬j < 8 * n := by omega
      have h2 : j < 8 * (n + 1) := by omega
      have h3 : j - 8 * n = j % 8 := by omega
      have h4 : j % 8 < 32 := by omega
      simp [h1, h2, h3, h4, h]
    · have h1 : ¬j < 8 * n := by omega
      have h2 : ¬j < 8 * (n + 1) := by omega
      have h3 : 8 ≤ j - 8 * n := by omega
      have : (s.hostByte a n).getLsbD (j - 8 * n) = false := BitVec.getLsbD_of_ge _ _ h3
      simp [h1, h2, this]

/-- The `i`th byte of a word, as the host port and the statements write it. -/
theorem ofNat_div_eq_extract (v : Word) (i : Nat) : BitVec.ofNat 8 (v.toNat / 256 ^ i) = v.extractLsb' (8 * i) 8 := by
  apply BitVec.eq_of_toNat_eq
  rw [BitVec.toNat_ofNat, BitVec.extractLsb'_toNat, Nat.shiftRight_eq_div_pow, Nat.pow_mul]

/-- A host read of `n` bytes returns a value below `256^n`. -/
theorem State.hostWord_lt (s : State) (a n : Nat) : (s.hostWord a n).toNat < 256 ^ n := by
  rw [show (256 : Nat) = 2 ^ 8 from rfl, ← Nat.pow_mul]
  apply Nat.lt_pow_two_of_testBit
  intro j hj
  by_cases h : j < 32
  · have := s.hostWord_getLsbD a n j h
    rw [decide_eq_false (by omega), Bool.false_and] at this
    exact this
  · exact Nat.testBit_lt_two_pow (lt_of_lt_of_le (s.hostWord a n).isLt (Nat.pow_le_pow_right (by omega) (by omega)))

/-- Byte `i` of what a host read returns is the byte at `a + i` (20_memory.md R52). -/
theorem State.hostWord_byte (s : State) (a n i : Nat) (hn : n ≤ 4) (hi : i < n) :
    (s.hostWord a n).extractLsb' (8 * i) 8 = s.hostByte a i := by
  apply BitVec.eq_of_getLsbD_eq
  intro k hk
  have h1 : 8 * i + k < 8 * n := by omega
  have h2 : (8 * i + k) / 8 = i := by omega
  have h3 : (8 * i + k) % 8 = k := by omega
  simp [hk, State.hostWord_getLsbD s a n (8 * i + k) (by omega), h1, h2, h3]

theorem mem_hostCells {a n : Nat} {v : Word} {c : Host.Cell} :
    c ∈ hostCells a n v ↔ ∃ i, i < n ∧ c = (a + i, v.extractLsb' (8 * i) 8) := by
  simp only [hostCells, List.mem_map, List.mem_range]
  exact exists_congr fun i => and_congr_right fun _ => eq_comm

/-- A stored host write reads back byte by byte (20_memory.md R52). -/
theorem Memory.byte?_hostCells (m : Memory) {a n i : Nat} (v : Word) (hi : i < n) :
    Memory.byte? (Memory.setAll m (hostCells a n v)) (a + i) = some (v.extractLsb' (8 * i) 8) := by
  apply Memory.byte?_setAll_of_mem _ _ (mem_hostCells.2 ⟨i, hi, rfl⟩)
  intro w hw
  obtain ⟨j, _, h⟩ := mem_hostCells.1 hw
  obtain ⟨h1, h2⟩ := Prod.mk.inj h
  obtain rfl : i = j := by omega
  exact h2

/-- A stored host write leaves every other byte alone. -/
theorem Memory.byte?_hostCells_other (m : Memory) {a n x : Nat} (v : Word) (hx : ¬(a ≤ x ∧ x < a + n)) :
    Memory.byte? (Memory.setAll m (hostCells a n v)) x = Memory.byte? m x := by
  apply Memory.byte?_setAll_other
  intro c hc e
  obtain ⟨i, hi, rfl⟩ := mem_hostCells.1 hc
  exact hx ⟨by omega, by omega⟩

theorem hostMemRead_of_race {s : State} {a n : Nat} (hl : memAccessLegal s a n = true) (hr : s.races a n = true) :
    hostMemRead a n s = .fault .hostRace := by
  simp [hostMemRead, hl, hr]

theorem hostMemRead_of_clear {s : State} {a n : Nat} (hl : memAccessLegal s a n = true) (hr : s.races a n = false) :
    hostMemRead a n s = .next { s with resp := .data (s.hostWord a n), freeCtr := s.freeCtr + n } := by
  simp [hostMemRead, hl, hr]

theorem hostMemWrite_of_race {s : State} {a n : Nat} {v : Word} (hl : memAccessLegal s a n = true)
    (hr : s.races a n = true ∨ (s.store (hostCells a n v)).races a n = true) :
    hostMemWrite a n v s = .fault .hostRace := by
  simp [hostMemWrite, hl, hr]

theorem hostMemWrite_of_clear {s : State} {a n : Nat} {v : Word} (hl : memAccessLegal s a n = true)
    (hr : s.races a n = false) (hw : (s.store (hostCells a n v)).races a n = false) :
    hostMemWrite a n v s = .next ((s.store (hostCells a n v)).respond .written) := by
  simp [hostMemWrite, hl, hr, hw]

/-! ## The CSR window -/

/-- The number of a concatenation, high part first. -/
theorem toNat_append_eq {m n : Nat} (a : BitVec m) (b : BitVec n) : (a ++ b).toNat = a.toNat * 2 ^ n + b.toNat := by
  rw [BitVec.toNat_append, ← Nat.shiftLeft_add_eq_or_of_lt b.isLt, Nat.shiftLeft_eq]

/-- `PARAM` (10_state.md R24). -/
theorem paramWord_toNat (b : Build) : (paramWord b).toNat = b.gfPoly.toNat + 65536 * b.addrW.toNat := by
  simp only [paramWord, toNat_append_eq, show (0 : BitVec 10).toNat = 0 from rfl, show (0 : BitVec 7).toNat = 0 from rfl]
  omega

/-- `DIMA` and `DIMB` (10_state.md R34). -/
theorem Dim.word_toNat (d : Dim) : d.word.toNat = d.rows.toNat + 65536 * d.cols.toNat := by
  simp only [Dim.word, toNat_append_eq, show (0 : BitVec 7).toNat = 0 from rfl]
  omega

/-- Every register is found at its offset. -/
@[simp] theorem csrAt_csrOffset (r : Csr) : csrAt (csrOffset r) = some r := by
  cases r with
  | erase w => revert w; decide
  | shardBase i =>
    have h := i.isLt
    change csrAt (0x400 + 4 * i.val) = some (.shardBase i)
    unfold csrAt
    iterate 14 rw [if_neg (by omega)]
    rw [if_pos (by omega)]
    simp only [Option.some.injEq, Csr.shardBase.injEq]
    apply Fin.ext
    simp only [Fin.val_ofNat]
    omega
  | id | param | ctrl | status | cmd | result | ctx | blockSize | maBase | mbBase | mcBase | dimA | dimB => rfl

/-- Every offset fits the window and is a multiple of 4 (10_state.md R22). -/
theorem csrOffset_legal (r : Csr) : csrOffset r < 4096 ∧ csrOffset r % 4 = 0 := by
  cases r with
  | erase w => have := w.isLt; simp only [csrOffset]; omega
  | shardBase i => have := i.isLt; simp only [csrOffset]; omega
  | id | param | ctrl | status | cmd | result | ctx | blockSize | maBase | mbBase | mcBase | dimA | dimB =>
    decide

/-- An offset no register has is reserved. -/
theorem csrAt_eq_none {off : Nat} (h : ∀ r : Csr, csrOffset r ≠ off) (ha : off % 4 = 0) : csrAt off = none := by
  unfold csrAt
  repeat' rw [if_neg]
  · rintro ⟨h1, h2⟩
    exact h (.shardBase ⟨(off - 0x400) / 4, by omega⟩) (by simp only [csrOffset]; omega)
  · rintro ⟨h1, h2⟩
    exact h (.erase ⟨(off - 0x040) / 4, by omega⟩) (by simp only [csrOffset]; omega)
  · exact fun e => h .dimB e.symm
  · exact fun e => h .dimA e.symm
  · exact fun e => h .mcBase e.symm
  · exact fun e => h .mbBase e.symm
  · exact fun e => h .maBase e.symm
  · exact fun e => h .blockSize e.symm
  · exact fun e => h .ctx e.symm
  · exact fun e => h .result e.symm
  · exact fun e => h .cmd e.symm
  · exact fun e => h .status e.symm
  · exact fun e => h .ctrl e.symm
  · exact fun e => h .param e.symm
  · exact fun e => h .id e.symm

/-! ## The host's address map -/

/-- A bus address in the CSR window selects the register offset. -/
theorem busWindow_csr (b : Build) {off : Nat} (h : off < 4096) (csr : BitVec 12 → HostAccess) (mem : Nat → HostAccess) :
    busWindow b (Config.csrBase + off) csr mem = some (csr (BitVec.ofNat 12 off)) := by
  rw [busWindow, Config.csrBytes, if_pos ⟨by omega, by omega⟩, Nat.add_sub_cancel_left]

/-- A bus address in DMEM, outside the CSR window, selects the byte. -/
theorem busWindow_mem (b : Build) {a : Nat} (ha : a < b.memBytes)
    (hc : ¬(Config.csrBase ≤ Config.dmemBase + a ∧ Config.dmemBase + a < Config.csrBase + 4096))
    (csr : BitVec 12 → HostAccess) (mem : Nat → HostAccess) :
    busWindow b (Config.dmemBase + a) csr mem = some (mem a) := by
  rw [busWindow, Config.csrBytes, if_neg hc, if_pos ⟨by omega, by omega⟩, Nat.add_sub_cancel_left]

/-- What a bus access can answer: it is an access of one of the windows, or it does not concern the core. -/
theorem busAccess_cases (x : BusAccess) (s : State) :
    (∃ h, busTarget s.build x = some h ∧ busAccess x s = hostAccess h s) ∨
    (busTarget s.build x = none ∧ busAccess x s = .next (s.respond .noResponse)) := by
  unfold busAccess
  cases h : busTarget s.build x with
  | some a => exact .inl ⟨a, rfl, rfl⟩
  | none => exact .inr ⟨rfl, rfl⟩

/-! ## What a step can do -/

/-- What the core's turn can answer: nothing runs, an illegal word completes, or a command is executed. -/
theorem completeRunning_next_cases {s t : State} (h : completeRunning s = .next t) :
    (s.runCmd = none ∧ t = s) ∨
    (∃ w, s.runCmd = some w ∧ s.running = none ∧ t = s.complete .illegalCommand .noCause) ∨
    ∃ i, s.running = some i ∧ exec i s = .next t := by
  unfold completeRunning at h
  cases hc : s.runCmd with
  | none => simp only [hc] at h; exact .inl ⟨rfl, (Host.Outcome.next.inj h).symm⟩
  | some w =>
    simp only [hc] at h
    cases hd : decode w with
    | error e =>
      rw [completeWord_of_error hd] at h
      exact .inr (.inl ⟨w, rfl, by simp [State.running, hc, hd], (Host.Outcome.next.inj h).symm⟩)
    | ok i =>
      rw [completeWord_of_ok hd] at h
      exact .inr (.inr ⟨i, State.running_eq_some.2 ⟨w, hc, hd⟩, h⟩)

/-- What a step can do when it answers a next state: the core's turn, or the first event of the schedule. -/
theorem step_next_cases {s t : State} (h : step s = .next t) :
    (s.events = [] ∧ completeRunning s = .next t) ∨
    ∃ e es, s.events = e :: es ∧ stepEvent e { s with events := es } = .next t := by
  unfold step stepSchedule at h
  split at h
  · exact .inl ⟨‹_›, h⟩
  · exact .inr ⟨_, _, ‹_›, h⟩

end Machine

namespace Safety

open Machine

/-- What holds of `s` and is kept by every step holds of every state reached from `s`. -/
theorem Reaches.induct {s t : State} (P : State → Prop) (h : Reaches s t) (hs : P s)
    (hstep : ∀ t u, P t → Machine.step t = .next u → P u) : P t := by
  induction h with
  | here => exact hs
  | step _ hu ih => exact hstep _ _ ih hu

end Safety
end Sys2Proof
end

