-- ==== Sys2Proof/Tests/Slice0.lean ====
section
/-! SUPPORT. The model's own tests: words written out from the spec's encodings, ill-formed terms, the spec's test
vectors (95_test_vectors.md), and for every statement with hypotheses a state that meets them. -/

namespace Sys2Proof
namespace Tests

open Machine Safety Claims

set_option Elab.async false

/-! ## Helpers -/

/-- A field of the state an outcome answers. -/
def after {α : Type} (o : Host.Outcome State Fault Refusal) (f : State → α) : Option α :=
  match o with
  | .next t => some (f t)
  | .fault _ => none
  | .refused _ => none

/-- The model fault of an outcome. -/
def faultOf (o : Host.Outcome State Fault Refusal) : Option Fault :=
  match o with
  | .next _ => none
  | .fault f => some f
  | .refused _ => none

/-- The tables of 40_field_arithmetic.md R101, transcribed from the spec. -/
def lut : Tables where
  exp := [0x01, 0x02, 0x04, 0x08, 0x10, 0x20, 0x40, 0x80, 0x1D, 0x3A, 0x74, 0xE8, 0xCD, 0x87, 0x13, 0x26] ++
    [0x4C, 0x98, 0x2D, 0x5A, 0xB4, 0x75, 0xEA, 0xC9, 0x8F, 0x03, 0x06, 0x0C, 0x18, 0x30, 0x60, 0xC0] ++
    [0x9D, 0x27, 0x4E, 0x9C, 0x25, 0x4A, 0x94, 0x35, 0x6A, 0xD4, 0xB5, 0x77, 0xEE, 0xC1, 0x9F, 0x23] ++
    [0x46, 0x8C, 0x05, 0x0A, 0x14, 0x28, 0x50, 0xA0, 0x5D, 0xBA, 0x69, 0xD2, 0xB9, 0x6F, 0xDE, 0xA1] ++
    [0x5F, 0xBE, 0x61, 0xC2, 0x99, 0x2F, 0x5E, 0xBC, 0x65, 0xCA, 0x89, 0x0F, 0x1E, 0x3C, 0x78, 0xF0] ++
    [0xFD, 0xE7, 0xD3, 0xBB, 0x6B, 0xD6, 0xB1, 0x7F, 0xFE, 0xE1, 0xDF, 0xA3, 0x5B, 0xB6, 0x71, 0xE2] ++
    [0xD9, 0xAF, 0x43, 0x86, 0x11, 0x22, 0x44, 0x88, 0x0D, 0x1A, 0x34, 0x68, 0xD0, 0xBD, 0x67, 0xCE] ++
    [0x81, 0x1F, 0x3E, 0x7C, 0xF8, 0xED, 0xC7, 0x93, 0x3B, 0x76, 0xEC, 0xC5, 0x97, 0x33, 0x66, 0xCC] ++
    [0x85, 0x17, 0x2E, 0x5C, 0xB8, 0x6D, 0xDA, 0xA9, 0x4F, 0x9E, 0x21, 0x42, 0x84, 0x15, 0x2A, 0x54] ++
    [0xA8, 0x4D, 0x9A, 0x29, 0x52, 0xA4, 0x55, 0xAA, 0x49, 0x92, 0x39, 0x72, 0xE4, 0xD5, 0xB7, 0x73] ++
    [0xE6, 0xD1, 0xBF, 0x63, 0xC6, 0x91, 0x3F, 0x7E, 0xFC, 0xE5, 0xD7, 0xB3, 0x7B, 0xF6, 0xF1, 0xFF] ++
    [0xE3, 0xDB, 0xAB, 0x4B, 0x96, 0x31, 0x62, 0xC4, 0x95, 0x37, 0x6E, 0xDC, 0xA5, 0x57, 0xAE, 0x41] ++
    [0x82, 0x19, 0x32, 0x64, 0xC8, 0x8D, 0x07, 0x0E, 0x1C, 0x38, 0x70, 0xE0, 0xDD, 0xA7, 0x53, 0xA6] ++
    [0x51, 0xA2, 0x59, 0xB2, 0x79, 0xF2, 0xF9, 0xEF, 0xC3, 0x9B, 0x2B, 0x56, 0xAC, 0x45, 0x8A, 0x09] ++
    [0x12, 0x24, 0x48, 0x90, 0x3D, 0x7A, 0xF4, 0xF5, 0xF7, 0xF3, 0xFB, 0xEB, 0xCB, 0x8B, 0x0B, 0x16] ++
    [0x2C, 0x58, 0xB0, 0x7D, 0xFA, 0xE9, 0xCF, 0x83, 0x1B, 0x36, 0x6C, 0xD8, 0xAD, 0x47, 0x8E]
  log := [0, 1, 25, 2, 50, 26, 198, 3, 223, 51, 238, 27, 104, 199, 75, 4] ++
    [100, 224, 14, 52, 141, 239, 129, 28, 193, 105, 248, 200, 8, 76, 113, 5] ++
    [138, 101, 47, 225, 36, 15, 33, 53, 147, 142, 218, 240, 18, 130, 69, 29] ++
    [181, 194, 125, 106, 39, 249, 185, 201, 154, 9, 120, 77, 228, 114, 166, 6] ++
    [191, 139, 98, 102, 221, 48, 253, 226, 152, 37, 179, 16, 145, 34, 136, 54] ++
    [208, 148, 206, 143, 150, 219, 189, 241, 210, 19, 92, 131, 56, 70, 64, 30] ++
    [66, 182, 163, 195, 72, 126, 110, 107, 58, 40, 84, 250, 133, 186, 61, 202] ++
    [94, 155, 159, 10, 21, 121, 43, 78, 212, 229, 172, 115, 243, 167, 87, 7] ++
    [112, 192, 247, 140, 128, 99, 13, 103, 74, 222, 237, 49, 197, 254, 24, 227] ++
    [165, 153, 119, 38, 184, 180, 124, 17, 68, 146, 217, 35, 32, 137, 46, 55] ++
    [63, 209, 91, 149, 188, 207, 205, 144, 135, 151, 178, 220, 252, 190, 97, 242] ++
    [86, 211, 171, 20, 42, 93, 158, 132, 60, 57, 83, 71, 109, 65, 162, 31] ++
    [45, 67, 216, 183, 123, 164, 118, 196, 23, 73, 236, 127, 12, 111, 246, 108] ++
    [161, 59, 82, 41, 157, 85, 170, 251, 96, 134, 177, 187, 204, 62, 90, 203] ++
    [89, 95, 176, 156, 169, 160, 81, 11, 245, 22, 235, 122, 117, 44, 215, 79] ++
    [174, 213, 233, 230, 231, 173, 232, 116, 214, 244, 234, 168, 80, 88, 175]

/-- INIT has run on the core built with 0x11D: STATUS reads 0x10. -/
def ready : State := { State.reset with tables := lut, status := { Status.reset with initDone := true } }

/-- A busy core: the word `w` is running. -/
def busy (s : State) (w : Word) : State := s.accept w

/-- The `(2, 2)` stripe of 95_test_vectors.md 2.4: data `[10 20 30] [01 02 FF]` at 0x00 and 0x10, parity shards at 0x20
and 0x30. -/
def stripe : State :=
  { ready with
    status := { Status.reset with initDone := true, ctxValid := true }
    ctx := { k := 2, m := 2 }
    gen := [[1, 0], [0, 1], [3, 2], [2, 3]]
    blockSize := 3
    shardBase := (((State.reset.shardBase.set 0 0x00).set 1 0x10).set 2 0x20).set 3 0x30
    dmem := [(0x00, 0x10), (0x01, 0x20), (0x02, 0x30), (0x10, 0x01), (0x11, 0x02), (0x12, 0xFF)] }

/-- The same stripe, encoded (95_test_vectors.md 2.4, 2.5), with the shards of `e` (bits of ERASE0) erased. -/
def encoded (e : Word) : State :=
  { stripe with
    erase := State.reset.erase.set 0 e
    dmem := [(0x00, 0x10), (0x01, 0x20), (0x02, 0x30), (0x10, 0x01), (0x11, 0x02), (0x12, 0xFF),
      (0x20, 0x32), (0x21, 0x64), (0x22, 0xB3), (0x30, 0x23), (0x31, 0x46), (0x32, 0x7C)] }

/-- The matrix program of 95_test_vectors.md P4: `[[01 02], [03 04]]` at 0x100, `[[05], [06]]` at 0x110, results at
0x200. -/
def matrices : State :=
  { ready with
    dimA := { rows := 2, cols := 2 }
    dimB := { rows := 2, cols := 1 }
    maBase := 0x100
    mbBase := 0x110
    mcBase := 0x200
    dmem := [(0x100, 1), (0x101, 2), (0x102, 3), (0x103, 4), (0x110, 5), (0x111, 6)] }

/-! ## Decoding: words written out bit by bit, `RRRRRRRR BBBBBBBB AAAAAAAA OOOOOOOO` (30_encoding.md R71, R79) -/

theorem test_decode_init : decode 0b00000000000000000000000000000001 = .ok .init := by decide
theorem test_decode_gfAdd : decode 0b00000000110010100101001100000010 = .ok (.gfAdd 0x53 0xCA) := by decide
theorem test_decode_gfMul : decode 0b00000000110010100101001100000011 = .ok (.gfMul 0x53 0xCA) := by decide
theorem test_decode_gfDiv : decode 0b00000000000000000101001100000100 = .ok (.gfDiv 0x53 0x00) := by decide
theorem test_decode_gfInv : decode 0b00000000000000000101001100000101 = .ok (.gfInv 0x53) := by decide
theorem test_decode_gfExp : decode 0b00000000000000000000100000000110 = .ok (.gfExp 8) := by decide
theorem test_decode_gfLog : decode 0b00000000000000000001110100000111 = .ok (.gfLog 0x1D) := by decide
theorem test_decode_matMul : decode 0b00000000000000000000000000010000 = .ok .matMul := by decide
theorem test_decode_matInv : decode 0b00000000000000000000000000010001 = .ok .matInv := by decide
theorem test_decode_ctxCreate : decode 0b00000000000000100000010000100000 = .ok (.ctxCreate 4 2) := by decide
theorem test_decode_ctxRelease : decode 0b00000000000000000000000000100001 = .ok .ctxRelease := by decide
theorem test_decode_ctxGenstore : decode 0b00000000000000000000000000100010 = .ok .ctxGenstore := by decide
theorem test_decode_rsEncode : decode 0b00000000000000100000010000110000 = .ok (.rsEncode 4 2) := by decide
theorem test_decode_rsReconstruct : decode 0b00000000000000100000010000110001 = .ok (.rsReconstruct 4 2) := by decide

/-- The illegal words of 95_test_vectors.md 2.6. -/
theorem test_decode_illegal :
    decode 0x00000000 = .error .opcodeUndefined ∧ decode 0x000000FF = .error .opcodeUndefined ∧
    decode 0x00000008 = .error .opcodeUndefined ∧ decode 0x00000200 = .error .opcodeUndefined ∧
    decode 0x00010001 = .error .mustBeZero ∧ decode 0x00010005 = .error .mustBeZero ∧
    decode 0x01020430 = .error .rsvNonzero := by decide

/-- The host's numbering: a one-word command and a word the decoder refuses. -/
theorem test_decodeTableWord :
    decodeTableWord 32 0x00020420 = some (.ctxCreate 4 2) ∧ decodeTableWord 8 0x10 = some .matMul ∧
    decodeTableWord 32 0x01020430 = none := by decide

/-! ## Well-formedness: one ill-formed term for each check (R77, R91, R6) -/

theorem test_asm_unknown_mnemonic : (⟨"GF.SUB", [1, 2]⟩ : AsmCommand).wellFormed = false := by decide
theorem test_asm_missing_operand : (⟨"GF.ADD", [1]⟩ : AsmCommand).wellFormed = false := by decide
theorem test_asm_extra_operand : (⟨"GF.INV", [1, 2]⟩ : AsmCommand).wellFormed = false := by decide
theorem test_asm_operand_too_large : (⟨"GF.EXP", [256]⟩ : AsmCommand).wellFormed = false := by decide
theorem test_asm_good : assemble ⟨"CTX.CREATE", [4, 2]⟩ = some 0x00020420 := by decide
theorem test_build_polynomial_not_primitive : (⟨0x11B, 20⟩ : Build).wellFormed = false := by decide
theorem test_build_address_too_narrow : (⟨0x11D, 11⟩ : Build).wellFormed = false := by decide
theorem test_build_address_too_wide : (⟨0x11D, 33⟩ : Build).wellFormed = false := by decide
theorem test_build_default : Config.defaultBuild.wellFormed = true := by decide

/-! ## The spec's vectors -/

/-- The tables INIT fills are those of R101. -/
theorem test_tables_match_R101 : initTables 0x11D = lut := by decide +kernel

/-- From reset, INIT gives STATUS = 0x12 (R99). -/
theorem test_init : after (step (State.reset.withFetchWord 32 0x00000001)) (fun t => t.status.word) = some 0x12 := by
  decide +kernel
theorem test_gfAdd : after (exec (.gfAdd 0x53 0xCA) ready) (·.result) = some 0x99 := by decide +kernel
theorem test_gfMul : after (exec (.gfMul 0x53 0xCA) ready) (·.result) = some 0x8F := by decide +kernel
theorem test_gfMul_wraps_log_sum : after (exec (.gfMul 0xFF 0xFF) ready) (·.result) = some 0xE2 := by decide +kernel
theorem test_gfDiv : after (exec (.gfDiv 0x53 0xCA) ready) (·.result) = some 0x6D := by decide +kernel
theorem test_gfDiv_by_zero : after (exec (.gfDiv 0x00 0x00) ready) (fun t => t.status.word) = some 0x616 := by
  decide +kernel
theorem test_gfInv : after (exec (.gfInv 0x53) ready) (·.result) = some 0x8C := by decide +kernel
theorem test_gfExp_wraps : after (exec (.gfExp 255) ready) (·.result) = some 0x01 := by decide +kernel
theorem test_gfLog : after (exec (.gfLog 0xFF) ready) (·.result) = some 175 := by decide +kernel
theorem test_gfLog_zero : after (exec (.gfLog 0) ready) (fun t => t.status.word) = some 0xB16 := by decide +kernel
theorem test_gfMul_before_init : after (exec (.gfMul 3 2) State.reset) (fun t => t.status.word) = some 0x206 := by
  decide +kernel

/-- Other polynomials (95_test_vectors.md 2.1). -/
theorem test_other_polynomials :
    gfMul (initTables 0x12B) 0x53 0xCA = 0xDD ∧ (initTables 0x1F5).logAt 3 = 134 := by decide +kernel

theorem test_matMul :
    after (exec .matMul matrices) (fun t => (Memory.byte? t.dmem 0x200, Memory.byte? t.dmem 0x201)) =
      some (some 0x09, some 0x17) := by decide +kernel
/-- A is 2 x 3 with only four bytes written: the fault is at byte 0x104 (95_test_vectors.md 2.2). -/
theorem test_matMul_unwritten :
    faultOf (exec .matMul { matrices with dimA := ⟨2, 3⟩, dimB := ⟨3, 1⟩ }) = some (.uninitRead 0x104) := by
  decide +kernel
theorem test_matInv_in_place :
    after (exec .matInv { matrices with mcBase := 0x100 }) (fun t => t.dmem.take 4) =
      some [(0x100, 0x02), (0x101, 0x01), (0x102, 0x8F), (0x103, 0x8E)] := by decide +kernel
theorem test_matInv_singular :
    after (exec .matInv { matrices with dmem := [(0x100, 2), (0x101, 4), (0x102, 1), (0x103, 2)] })
      (fun t => (t.status.word, t.dmem.length)) = some (0x716, 4) := by decide +kernel
theorem test_ctxCreate :
    after (exec (.ctxCreate 2 2) ready) (fun t => (t.status.word, t.csrValue .ctx, t.gen)) =
      some (0x32, 0x202, [[1, 0], [0, 1], [3, 2], [2, 3]]) := by decide +kernel
theorem test_ctxCreate_too_many : after (exec (.ctxCreate 200 57) ready) (fun t => t.status.word) = some 0x316 := by
  decide +kernel
theorem test_ctxRelease :
    after (exec .ctxRelease stripe) (fun t => (t.status.word, t.csrValue .ctx)) = some (0x12, 0) := by decide +kernel
theorem test_ctxGenstore :
    after (exec .ctxGenstore { stripe with mcBase := 0x300, dmem := [] }) (fun t => t.dmem) =
      some [(0x300, 1), (0x301, 0), (0x302, 0), (0x303, 1), (0x304, 3), (0x305, 2), (0x306, 2), (0x307, 3)] := by
  decide +kernel
theorem test_rsEncode :
    after (exec (.rsEncode 2 2) stripe) (fun t => t.dmem.drop 6) =
      some [(0x20, 0x32), (0x21, 0x64), (0x22, 0xB3), (0x30, 0x23), (0x31, 0x46), (0x32, 0x7C)] := by decide +kernel
theorem test_rsEncode_address :
    after (exec (.rsEncode 2 2) { stripe with shardBase := stripe.shardBase.set 3 0xFFFFE }) (fun t => t.status.word) =
      some 0xA36 := by decide +kernel
/-- Shards 1 and 3 are erased and hold other bytes; their encoded bytes come back (95_test_vectors.md 2.5). -/
theorem test_rsReconstruct :
    after (exec (.rsReconstruct 2 2) { encoded 0xA with dmem := stripe.dmem.take 3 ++ [(0x20, 0x32), (0x21, 0x64),
      (0x22, 0xB3), (0x30, 0xEE)] }) (fun t => t.dmem) = some (encoded 0).dmem := by decide +kernel
theorem test_rsReconstruct_too_many :
    after (exec (.rsReconstruct 2 2) (encoded 0x7)) (fun t => t.status.word) = some 0x1536 := by decide +kernel

/-! ## The handshake and the host port (95_test_vectors.md 2.6) -/

theorem test_cmd_while_busy :
    after (step (scheduled (busy ready 0x00CA5303) (writeAt 0x010 1))) (fun t => (t.status.word, t.runCmd)) =
      some (0x19, some 0x00CA5303) := by decide +kernel
theorem test_status_w1c :
    after (step (scheduled (ready.complete .dimensionMismatch .noCause) (writeAt 0x00C 0xA))) (fun t => t.status.word) =
      some 0x414 := by decide +kernel
theorem test_host_write_little_endian :
    after (step (scheduled State.reset (.host (.memWrite 0x100 4 0x04030201)))) (fun t => t.dmem) =
      some [(0x100, 1), (0x101, 2), (0x102, 3), (0x103, 4)] := by decide +kernel
theorem test_host_race :
    faultOf (step (scheduled (busy stripe 0x00020230) (.host (.memRead 0x11 1)))) = some .hostRace := by decide +kernel
theorem test_param : State.reset.csrValue .param = 0x0014011D := by decide +kernel
/-- Reset while RS.ENCODE runs: the parity shards become unwritten (R191). -/
theorem test_reset_while_busy :
    after (step (scheduled (busy { encoded 0 with erase := State.reset.erase } 0x00020230) .assertReset))
      (fun t => t.dmem) = some stripe.dmem := by decide +kernel

/-! ## Witnesses: for every statement with hypotheses, a state and operands that meet them -/

/-- A field of the next state, as an existence statement. -/
theorem next_of_after {α : Type} {o : Host.Outcome State Fault Refusal} {f : State → α} {v : α}
    (h : after o f = some v) : ∃ t, o = .next t ∧ f t = v := by
  cases o with
  | next t => exact ⟨t, rfl, by simpa [after] using h⟩
  | fault _ => simp [after] at h
  | refused _ => simp [after] at h

/-- `p`, checked on every number below `n`. -/
theorem forall_lt_of_all {n : Nat} {p : Nat → Bool} (h : (List.range n).all p = true) (i : Nat) (hi : i < n) :
    p i = true := List.all_eq_true.mp h i (List.mem_range.mpr hi)

theorem inRange_of {s : State} {r : Region} (h : Nat.ble (r.base + r.len) (2 ^ s.build.addrW.toNat) = true) :
    InRange s r := Nat.le_of_ble_eq_true h

theorem apart_of {r q : Region} (h : r.overlaps q = false) : Apart r q := by
  intro a ha
  have : r.overlaps q = true := (Region.overlaps_iff r q).mpr ⟨a, by simpa using ha⟩
  simp [h] at this

theorem not_apart_of {r q : Region} (h : r.overlaps q = true) : ¬Apart r q := by
  intro hd
  obtain ⟨a, ha⟩ := (Region.overlaps_iff r q).mp h
  exact hd a (by simpa using ha)

theorem written_of {s : State} {r : Region}
    (h : ((List.range r.len).all fun k => (Memory.byte? s.dmem (r.base + k)).isSome) = true) : Written s r := by
  intro a h1 h2 hn
  have := forall_lt_of_all h (a - r.base) (by omega)
  rw [Nat.add_sub_cancel' h1, hn] at this
  simp at this

theorem not_written_of {s : State} {r : Region} (a : Nat) (h : r.has a = true) (hn : Memory.byte? s.dmem a = none) :
    ¬Written s r := fun hw => hw a (Region.has_iff r a |>.mp h).1 (Region.has_iff r a |>.mp h).2 hn

/-- The command of a busy core has its word and its bus quiet: RS.ENCODE on the stripe. -/
theorem witness_StepRunsDecodedCommand :
    (busy stripe 0x00020230).runCmd = some 0x00020230 ∧ decode 0x00020230 = .ok (.rsEncode 2 2) ∧
    (busy stripe 0x00020230).events = [] ∧ (scheduled (busy stripe 0x00020230) .complete).events = [.complete] ∧
    0x00020230 < 2 ^ 32 ∧ decode (BitVec.ofNat 32 0x00020230) = .ok (.rsEncode 2 2) := by decide +kernel

/-- The clause of an illegal word: 0 is running, alone or with its complete step scheduled. -/
theorem witness_StepRunsDecodedCommand_illegal :
    (busy stripe 0).runCmd = some 0 ∧ decode 0 = .error .opcodeUndefined ∧ (busy stripe 0).events = [] ∧
    (scheduled (busy stripe 0) .complete).events = [.complete] := by decide +kernel

/-- Also RunningCommandCompletes. -/
theorem witness_RunningCommandCompletes :
    (busy ready 0x00CA5303).runCmd = some 0x00CA5303 ∧ (busy ready 0x00CA5303).events = [] := by decide +kernel

theorem witness_IdleCoreKeepsState : HandshakeOk stripe ∧ stripe.status.busy = false ∧ stripe.events = [] := by
  unfold HandshakeOk; decide +kernel

/-- A busy core that is reset, one under reset, and one that is released, with a read or the end of the schedule next. -/
theorem witness_AssertingResetSetsEveryRegister :
    (scheduled (busy stripe 0x00020230) .assertReset).events = [.assertReset] ∧
    { stripe with rst := true }.rst = true ∧
    { stripe with rst := true, events := [.releaseReset, readAt (specOffset .ctx)] }.events =
      [.releaseReset, readAt (specOffset .ctx)] ∧
    { busy stripe 0x00020230 with events := [.assertReset, .releaseReset] }.events = [.assertReset, .releaseReset] := by
  decide +kernel

/-- Released after a reset, the core answers: PARAM reads as at reset. -/
theorem test_reset_release :
    after (step { State.reset with rst := true, events := [.releaseReset, readAt 0x004] })
      (fun t => after (step t) (·.resp)) = some (some (.data 0x0014011D)) := by decide +kernel

/-- An idle core, a busy one with an illegal word, and one that runs RS.ENCODE. -/
theorem witness_ResetUnwritesOnlyAbortedWriteRegions :
    (∃ t, step (scheduled stripe .assertReset) = .next t ∧ t.rst = true) ∧ stripe.status.busy = false ∧
    (∃ t, step (scheduled (busy stripe 0) .assertReset) = .next t ∧ t.rst = true) ∧
    (busy stripe 0).status.busy = true ∧ (busy stripe 0).running = none ∧
    (∃ t, step (scheduled (busy stripe 0x00020230) .assertReset) = .next t ∧ t.rst = true) ∧
    (busy stripe 0x00020230).status.busy = true ∧ (busy stripe 0x00020230).running = some (.rsEncode 2 2) := by
  refine ⟨next_of_after ?_, ?_, next_of_after ?_, ?_, ?_, next_of_after ?_, ?_, ?_⟩ <;> decide +kernel

/-- Every host-port statement: the reset input is released; the core is idle or busy; the spec's ACK word clears DONE
(IrqFollowsDone), and a CTRL word with other bits set clears IRQ_EN. -/
theorem witness_hostPort :
    ready.rst = false ∧ ready.status.busy = false ∧ (busy ready 1).rst = false ∧ (busy ready 1).status.busy = true ∧
    (0xA : Word).getLsbD 1 = true ∧ (0xFFFFFFFE : Word).getLsbD 0 = false := by
  decide +kernel

/-- GF.LOG 0 and an illegal word. -/
theorem witness_ErrorsChangeOnlyStatus :
    (∃ t, completeWord 7 ready = .next t ∧ t.status.errCode = .domainError) ∧
    ∃ t, completeWord 0 ready = .next t ∧ t.status.errCode = .illegalCommand :=
  ⟨next_of_after (by decide +kernel), next_of_after (by decide +kernel)⟩

theorem witness_CompletionBeatsCmdWrite :
    ready.rst = false ∧ (busy ready 0x00CA5303).runCmd = some 0x00CA5303 ∧
    ∃ t, completeWord 0x00CA5303 { busy ready 0x00CA5303 with events := [] } = .next t ∧ t.result = 0x8F :=
  ⟨by decide +kernel, by decide +kernel, next_of_after (by decide +kernel)⟩

theorem witness_CommandsNeedInit : (.rsReconstruct 2 2 : Instr) ≠ .init ∧ State.reset.status.initDone = false := by
  decide +kernel

/-- Every statement over the legal polynomials, and the two sides of LegalPolynomialsArePrimitive. -/
theorem witness_legalPolynomials :
    0x1F5 ∈ Config.legalPolys ∧ (0x1F5 : BitVec 9).getLsbD 8 = true ∧
    (0x11B : BitVec 9).getLsbD 8 = true ∧ 0x11B ∉ Config.legalPolys := by decide

/-- Every statement about a field command, with zero and non-zero operands. -/
theorem witness_FieldReady : FieldReady ready ∧ (0 : Byte) = 0 ∧ (0xFF : Byte) ≠ 0 :=
  ⟨⟨rfl, by decide, test_tables_match_R101.symm⟩, rfl, by decide⟩

theorem witness_InitFillsTablesOnce : State.reset.status.initDone = false ∧ ready.status.initDone = true := by
  decide +kernel

/-- A step of a core that has run INIT, and that resets nothing. -/
theorem witness_OnlyResetUndoesInit :
    (∃ t, step (scheduled stripe .complete) = .next t ∧ t.rst = false) ∧ stripe.status.initDone = true ∧
    ∀ es, (scheduled stripe .complete).events ≠ .assertReset :: es :=
  ⟨next_of_after (by decide +kernel), by decide +kernel, fun es h => by simp [scheduled] at h⟩

/-- A field command, INIT and a context command. -/
theorem witness_RegisterCommandsFrame :
    isStoring (.gfMul 3 2) = false ∧ isField (.gfMul 3 2) = true ∧
    (∃ t, exec (.gfMul 3 2) ready = .next t ∧ t.status.done = true) ∧
    isStoring .init = false ∧ isField .init = false ∧ (∃ t, exec .init ready = .next t ∧ t.status.done = true) ∧
    isStoring .ctxRelease = false ∧ isField .ctxRelease = false ∧ Instr.ctxRelease ≠ .init ∧
    (∃ t, exec .ctxRelease stripe = .next t ∧ t.status.done = true) := by
  refine ⟨?_, ?_, next_of_after ?_, ?_, ?_, next_of_after ?_, ?_, ?_, ?_, next_of_after ?_⟩ <;> decide +kernel

theorem witness_StoringCommandsFrame :
    isStoring (.rsEncode 2 2) = true ∧ ∃ t, exec (.rsEncode 2 2) stripe = .next t ∧ t.status.err = false :=
  ⟨rfl, next_of_after (by decide +kernel)⟩

/-- INIT and GF.MUL without tables; CTX.CREATE, and MAT.MUL in a hazard, without a context. -/
theorem witness_UnspecifiedTablesAreNeverObserved :
    (State.reset.status.initDone = false ∧ (∃ t, exec .init State.reset = .next t ∧ t.status.err = false) ∧
      ∃ t, exec (.gfMul 3 2) State.reset = .next t ∧ t.status.err = true) ∧
    (ready.status.ctxValid = false ∧ ∃ t, exec (.ctxCreate 2 2) ready = .next t ∧ t.status.ctxValid = true) ∧
    (matrices.status.ctxValid = false ∧
      ∃ f, exec .matMul { matrices with mcBase := 0x100 } = .fault f) := by
  refine ⟨⟨?_, next_of_after ?_, next_of_after ?_⟩, ⟨?_, next_of_after ?_⟩, ?_, .overlapHazard, ?_⟩
  all_goals first | decide +kernel | rfl

/-! ### The matrix engine -/

theorem matrices_mulShapes : MulShapesOk matrices := by
  unfold MulShapesOk DimOk; decide +kernel

theorem witness_MatMulStoresProduct :
    matrices.status.initDone = true ∧ MulShapesOk matrices ∧
    InRange matrices matrices.mulA ∧ InRange matrices matrices.mulB ∧ InRange matrices matrices.mulC ∧
    Apart matrices.mulC matrices.mulA ∧ Apart matrices.mulC matrices.mulB ∧
    Written matrices matrices.mulA ∧ Written matrices matrices.mulB := by
  refine ⟨rfl, matrices_mulShapes, inRange_of ?_, inRange_of ?_, inRange_of ?_, apart_of ?_, apart_of ?_,
    written_of ?_, written_of ?_⟩ <;> decide +kernel

/-- The shape clause: the largest legal dimension is 256; 0, 257 and shapes that do not fit are refused. -/
theorem witness_MatMulChecksInOrder_shape :
    matrices.status.initDone = true ∧ DimOk 256 ∧ ¬DimOk 257 ∧ ¬DimOk 0 ∧
    ¬MulShapesOk { matrices with dimA := ⟨257, 2⟩ } ∧ ¬MulShapesOk { matrices with dimA := ⟨2, 3⟩ } := by
  unfold MulShapesOk DimOk; decide +kernel

/-- C ends one byte past the last address. -/
def mulPastEnd : State := { matrices with mcBase := 0xFFFFF }
/-- C ends at the last address. -/
def mulAtEnd : State := { matrices with mcBase := 0xFFFFE }
/-- C overlaps B's last byte. -/
def mulOverB : State := { matrices with mcBase := 0x111 }
/-- Nothing is written. -/
def mulUnwritten : State := { matrices with dmem := [] }

theorem witness_MatMulChecksInOrder_range :
    mulPastEnd.status.initDone = true ∧ MulShapesOk mulPastEnd ∧
    ¬(InRange mulPastEnd mulPastEnd.mulA ∧ InRange mulPastEnd mulPastEnd.mulB ∧ InRange mulPastEnd mulPastEnd.mulC) ∧
    InRange mulAtEnd mulAtEnd.mulC := by
  unfold MulShapesOk DimOk InRange; decide +kernel

theorem witness_MatMulChecksInOrder_overlap :
    mulOverB.status.initDone = true ∧ MulShapesOk mulOverB ∧ InRange mulOverB mulOverB.mulA ∧
    InRange mulOverB mulOverB.mulB ∧ InRange mulOverB mulOverB.mulC ∧
    ¬(Apart mulOverB.mulC mulOverB.mulA ∧ Apart mulOverB.mulC mulOverB.mulB) :=
  ⟨rfl, matrices_mulShapes, inRange_of (by decide +kernel), inRange_of (by decide +kernel),
    inRange_of (by decide +kernel), fun h => not_apart_of (by decide +kernel) h.2⟩

theorem witness_MatMulChecksInOrder_unwritten :
    mulUnwritten.status.initDone = true ∧ MulShapesOk mulUnwritten ∧ InRange mulUnwritten mulUnwritten.mulA ∧
    InRange mulUnwritten mulUnwritten.mulB ∧ InRange mulUnwritten mulUnwritten.mulC ∧
    Apart mulUnwritten.mulC mulUnwritten.mulA ∧ Apart mulUnwritten.mulC mulUnwritten.mulB ∧
    ¬(Written mulUnwritten mulUnwritten.mulA ∧ Written mulUnwritten mulUnwritten.mulB) :=
  ⟨rfl, matrices_mulShapes, inRange_of (by decide +kernel), inRange_of (by decide +kernel),
    inRange_of (by decide +kernel), apart_of (by decide +kernel), apart_of (by decide +kernel),
    fun h => not_written_of 0x100 (by decide +kernel) rfl h.1⟩

theorem witness_MatInvStoresInverse :
    (∃ X, gjInv matrices.tables (Mat.of 2 2 (matByte matrices matrices.maBase 2)) 2 = some X) ∧
    matrices.dimA.rows.toNat = 2 ∧ matrices.status.initDone = true ∧ InvShapeOk matrices ∧
    InRange matrices matrices.invA ∧ InRange matrices matrices.invC ∧ Written matrices matrices.invA := by
  refine ⟨⟨[[0x02, 0x01], [0x8F, 0x8E]], ?_⟩, rfl, rfl, ?_, inRange_of ?_, inRange_of ?_, written_of ?_⟩
  all_goals first | decide +kernel | (unfold InvShapeOk DimOk; decide +kernel)

/-- The singular operand of 95_test_vectors.md 2.2. -/
def singular : State := { matrices with dmem := [(0x100, 2), (0x101, 4), (0x102, 1), (0x103, 2)] }

/-- MAT.INV's result ends past the last address. -/
def invPastEnd : State := { matrices with mcBase := 0xFFFFD }
/-- MAT.INV's operand has two unwritten bytes. -/
def invUnwritten : State := { matrices with dmem := [(0x100, 1), (0x101, 2)] }

/-- A shape of 257 rows and one that is not square; a region out of range; an unwritten byte; a singular matrix. -/
theorem witness_MatInvChecksInOrder :
    (matrices.status.initDone = true ∧ ¬InvShapeOk { matrices with dimA := ⟨257, 257⟩ } ∧
      ¬InvShapeOk { matrices with dimA := ⟨2, 1⟩ }) ∧
    (InvShapeOk invPastEnd ∧ ¬(InRange invPastEnd invPastEnd.invA ∧ InRange invPastEnd invPastEnd.invC)) ∧
    (InvShapeOk invUnwritten ∧ InRange invUnwritten invUnwritten.invA ∧ InRange invUnwritten invUnwritten.invC ∧
      ¬Written invUnwritten invUnwritten.invA) ∧
    (InvShapeOk singular ∧ InRange singular singular.invA ∧ InRange singular singular.invC ∧
      Written singular singular.invA ∧ singular.dimA.rows.toNat = 2 ∧
      gjInv singular.tables (Mat.of 2 2 (matByte singular singular.maBase 2)) 2 = none) := by
  refine ⟨⟨rfl, ?_, ?_⟩, ⟨?_, ?_⟩, ⟨?_, inRange_of ?_, inRange_of ?_, not_written_of 0x102 ?_ ?_⟩, ?_, inRange_of ?_,
    inRange_of ?_, written_of ?_, rfl, ?_⟩
  all_goals first | decide +kernel | (unfold InvShapeOk DimOk; decide +kernel) | (unfold InRange; decide +kernel)

/-- An invertible matrix with its inverse, a singular one, and a pivot below the diagonal. -/
theorem witness_GaussJordanFindsTheInverse :
    0x11D ∈ Config.legalPolys ∧
    gjInv (initTables 0x11D) [[1, 2], [3, 4]] 2 = some [[0x02, 0x01], [0x8F, 0x8E]] ∧
    ProductIsIdentity (initTables 0x11D) 2 (Mat.at [[1, 2], [3, 4]]) (Mat.at [[0x02, 0x01], [0x8F, 0x8E]]) ∧
    gjInv (initTables 0x11D) [[2, 4], [1, 2]] 2 = none ∧ gjPivot [[0, 1], [1, 0]] 2 0 = some 1 := by
  refine ⟨by decide, by decide +kernel, ?_, by decide +kernel, by decide⟩
  have h : ∀ i < 2, ∀ j < 2, dot (initTables 0x11D) 2 (Mat.at [[1, 2], [3, 4]]) (Mat.at [[0x02, 0x01], [0x8F, 0x8E]]) i j =
    delta i j := by decide +kernel
  exact fun i j hi hj => h i hi j hj

/-! ### The generator and the context -/

/-- The shape boundaries, and a choice of `k = 2` rows. -/
theorem witness_GeneratorIsSystematicAndInvertible :
    LegalCounts 1 1 ∧ LegalCounts 1 255 ∧ LegalCounts 255 1 ∧ ¬LegalCounts 128 129 ∧ ¬LegalCounts 0 1 ∧ LegalCounts 2 2 ∧
    (∀ i, i < 2 → i + 2 < 2 + 2) ∧ ∀ i j, i < 2 → j < 2 → i + 2 = j + 2 → i = j := by
  refine ⟨?_, ?_, ?_, ?_, ?_, ?_, ?_, ?_⟩ <;> first | (unfold LegalCounts; omega) | omega

theorem witness_CtxCreateStoresGenerator :
    ready.status.initDone = true ∧ ready.status.ctxValid = false ∧ LegalCounts (255 : Byte).toNat (1 : Byte).toNat := by
  unfold LegalCounts; decide +kernel

/-- A live context and none; illegal counts. -/
theorem witness_ContextChecksComeFirst :
    stripe.status.initDone = true ∧ stripe.status.ctxValid = true ∧ ready.status.initDone = true ∧
    ready.status.ctxValid = false ∧ ¬LegalCounts (200 : Byte).toNat (57 : Byte).toNat := by
  unfold LegalCounts; decide +kernel

/-- Also CtxReleaseDestroysContext. -/
theorem witness_GenstoreCopiesGenerator :
    stripe.status.initDone = true ∧ stripe.status.ctxValid = true ∧ InRange stripe stripe.genRegion ∧
    { stripe with mcBase := 0xFFFF9 }.status.ctxValid = true ∧
    ¬InRange { stripe with mcBase := 0xFFFF9 } { stripe with mcBase := 0xFFFF9 }.genRegion := by
  unfold InRange; decide +kernel

/-- RS.ENCODE completes; the host writes CMD while CTX.RELEASE is running; CTX.CREATE over the context. -/
theorem witness_ContextIsImmutable :
    ((∃ t, step (busy stripe 0x00020230) = .next t ∧ t.status.done = true) ∧
      (busy stripe 0x00020230).status.ctxValid = true ∧ (∀ es, (busy stripe 0x00020230).events ≠ .assertReset :: es) ∧
      (busy stripe 0x00020230).running ≠ some .ctxRelease) ∧
    ((∃ t, step (scheduled (busy stripe 0x21) (writeAt 0x010 1)) = .next t ∧ t.status.overrun = true) ∧
      (busy stripe 0x21).status.ctxValid = true ∧ (busy stripe 0x21).running = some .ctxRelease ∧
      (∀ es, (scheduled (busy stripe 0x21) (writeAt 0x010 1)).events ≠ .assertReset :: es) ∧
      ¬CompletesNext (scheduled (busy stripe 0x21) (writeAt 0x010 1))) ∧
    (stripe.status.initDone = true ∧ stripe.status.ctxValid = true) := by
  refine ⟨⟨next_of_after (by decide +kernel), by decide +kernel, fun es h => ?_, by decide +kernel⟩,
    ⟨next_of_after (by decide +kernel), by decide +kernel, by decide +kernel, fun es h => ?_, fun h => ?_⟩, rfl, rfl⟩
  · simp [busy, State.accept, stripe, ready, State.reset] at h
  · simp [scheduled, writeAt] at h
  · simp [CompletesNext, scheduled, writeAt] at h

/-! ### Encode and reconstruct -/

/-- CodecReady, from a computation. -/
theorem codecReady_of {s : State} {nd np : Byte}
    (h : (s.status.initDone && s.status.ctxValid && decide (nd = s.ctx.k) && decide (np = s.ctx.m) &&
      decide (s.blockSize ≠ 0) && (List.range (s.K + s.M)).all fun i => (s.shardRegion i).inRange s.build) = true) :
    CodecReady s nd np := by
  simp only [Bool.and_eq_true, decide_eq_true_eq] at h
  obtain ⟨⟨⟨⟨⟨h1, h2⟩, h3⟩, h4⟩, h5⟩, h6⟩ := h
  exact ⟨h1, h2, h3, h4, h5, fun i hi => (Region.inRange_iff _ _).mp (forall_lt_of_all h6 i hi)⟩

/-- Shards `i` with `sel i` overlap no other shard, from a computation. -/
theorem clear_of {s : State} {sel : Nat → Bool}
    (h : ((List.range (s.K + s.M)).all fun i => (List.range (s.K + s.M)).all fun j =>
      !sel i || decide (i = j) || !(s.shardRegion i).overlaps (s.shardRegion j)) = true) (i j : Nat)
    (hi : i < s.K + s.M) (hs : sel i = true) (hj : j < s.K + s.M) (hij : i ≠ j) : ShardsDisjoint s i j := by
  have := forall_lt_of_all (forall_lt_of_all h i hi) j hj
  simp only [hs, hij, Bool.not_true, decide_false, Bool.false_or, Bool.not_eq_true'] at this
  exact apart_of this

theorem encodeClear_of {s : State}
    (h : ((List.range (s.K + s.M)).all fun i => (List.range (s.K + s.M)).all fun j =>
      !decide (s.K ≤ i) || decide (i = j) || !(s.shardRegion i).overlaps (s.shardRegion j)) = true) : EncodeClear s :=
  fun i j h1 h2 h3 h4 => clear_of (sel := fun i => decide (s.K ≤ i)) h i j h2 (by simpa using h1) h3 h4

theorem reconstructClear_of {s : State}
    (h : ((List.range (s.K + s.M)).all fun i => (List.range (s.K + s.M)).all fun j =>
      !s.erased i || decide (i = j) || !(s.shardRegion i).overlaps (s.shardRegion j)) = true) : ReconstructClear s :=
  fun i j h1 h2 h3 h4 => clear_of (sel := s.erased) h i j h1 h2 h3 h4

/-- Every shard `f i` below `n` is written, from a computation. -/
theorem shardsWritten_of {s : State} {n : Nat} {f : Nat → Nat}
    (h : ((List.range n).all fun i => (List.range (s.shardRegion (f i)).len).all fun k =>
      (Memory.byte? s.dmem ((s.shardRegion (f i)).base + k)).isSome) = true) (i : Nat) (hi : i < n) :
    Written s (s.shardRegion (f i)) := written_of (forall_lt_of_all h i hi)

theorem witness_EncodeStoresParity :
    CodecReady stripe 2 2 ∧ EncodeClear stripe ∧ ∀ d, d < stripe.K → Written stripe (stripe.shardRegion d) :=
  ⟨codecReady_of (by decide +kernel), encodeClear_of (by decide +kernel),
    shardsWritten_of (f := fun d => d) (by decide +kernel)⟩

/-- The stripe with parity shard 3 one byte past the end of DMEM. -/
def shardPastEnd : State := { stripe with shardBase := stripe.shardBase.set 3 0xFFFFE }
/-- The stripe with parity shard 2 over the last byte of data shard 1. -/
def parityOverData : State := { stripe with shardBase := stripe.shardBase.set 2 0x12 }
/-- The stripe with nothing written. -/
def stripeUnwritten : State := { stripe with dmem := [] }

/-- Wrong counts and a zero block size; a shard out of range; an overlap; an unwritten data byte. -/
theorem witness_CodecChecksInOrder :
    (stripe.status.initDone = true ∧ stripe.status.ctxValid = true ∧
      ¬((1 : Byte) = stripe.ctx.k ∧ (2 : Byte) = stripe.ctx.m ∧ stripe.blockSize ≠ 0) ∧
      ¬((2 : Byte) = stripe.ctx.k ∧ (2 : Byte) = stripe.ctx.m ∧ { stripe with blockSize := 0 }.blockSize ≠ 0)) ∧
    (shardPastEnd.status.initDone = true ∧ shardPastEnd.status.ctxValid = true ∧ (2 : Byte) = shardPastEnd.ctx.k ∧
      (2 : Byte) = shardPastEnd.ctx.m ∧ shardPastEnd.blockSize ≠ 0 ∧
      ∃ i, i < shardPastEnd.K + shardPastEnd.M ∧ ¬InRange shardPastEnd (shardPastEnd.shardRegion i)) ∧
    (CodecReady parityOverData 2 2 ∧ ¬EncodeClear parityOverData) ∧
    (CodecReady stripeUnwritten 2 2 ∧ EncodeClear stripeUnwritten ∧ 1 ≤ stripeUnwritten.M ∧
      ∃ d, d < stripeUnwritten.K ∧ ¬Written stripeUnwritten (stripeUnwritten.shardRegion d)) := by
  refine ⟨?_, ⟨rfl, rfl, rfl, rfl, by decide +kernel, 3, ?_, ?_⟩, ⟨codecReady_of ?_, fun h => ?_⟩, codecReady_of ?_,
    encodeClear_of ?_, ?_, 1, ?_, not_written_of 0x10 ?_ ?_⟩
  case refine_5 =>
    exact not_apart_of (by decide +kernel)
      (h 2 1 (by decide +kernel) (by decide +kernel) (by decide +kernel) (by decide))
  all_goals first | decide +kernel | (unfold InRange; decide +kernel)

theorem witness_ReconstructWithoutErasuresIsNoOp :
    CodecReady stripe 2 2 ∧ ∀ i, i < stripe.K + stripe.M → stripe.erased i = false :=
  ⟨codecReady_of (by decide +kernel),
    fun i hi => by simpa using forall_lt_of_all (p := fun i => !stripe.erased i) (by decide +kernel) i hi⟩

/-- Three erasures of a stripe with two parity shards: one more than the budget. -/
theorem witness_TooManyErasuresAreRefused :
    CodecReady (encoded 0x7) 2 2 ∧ (encoded 0x7).M < erasureCount (encoded 0x7) :=
  ⟨codecReady_of (by decide +kernel), by decide +kernel⟩

/-- Shards 1 and 3 erased: the whole budget. -/
theorem witness_ReconstructStoresRecoveredBytes :
    CodecReady (encoded 0xA) 2 2 ∧ 1 ≤ erasureCount (encoded 0xA) ∧ erasureCount (encoded 0xA) ≤ (encoded 0xA).M ∧
    (∃ X, gjInv (encoded 0xA).tables
      (Mat.of (encoded 0xA).K (encoded 0xA).K fun r c => (encoded 0xA).genAt ((encoded 0xA).survivor r) c)
      (encoded 0xA).K = some X) ∧
    ReconstructClear (encoded 0xA) ∧
    ∀ r, r < (encoded 0xA).K → Written (encoded 0xA) ((encoded 0xA).shardRegion ((encoded 0xA).survivor r)) :=
  ⟨codecReady_of (by decide +kernel), by decide +kernel, by decide +kernel,
    ⟨[[1, 0], [0x8F, 0x8E]], by decide +kernel⟩, reconstructClear_of (by decide +kernel),
    shardsWritten_of (by decide +kernel)⟩

/-- A state no run reaches: row 2 of GEN repeats row 0, so shards 0 and 2 do not determine the data. -/
def badGen : State := { encoded 0xA with gen := [[1, 0], [0, 1], [1, 0], [2, 3]] }

/-- Erased shard 3 lies over the last byte of survivor 2. -/
def erasedOverSurvivor : State := { encoded 0xA with shardBase := (encoded 0xA).shardBase.set 3 0x22 }
/-- Shards 1 and 3 are erased and no shard is written. -/
def survivorsUnwritten : State := { encoded 0xA with dmem := [] }

/-- A singular survivor matrix; an erased shard over a survivor; an unwritten survivor. -/
theorem witness_ReconstructFailsClosed :
    (CodecReady badGen 2 2 ∧ 1 ≤ erasureCount badGen ∧ erasureCount badGen ≤ badGen.M ∧
      gjInv badGen.tables (Mat.of badGen.K badGen.K fun r c => badGen.genAt (badGen.survivor r) c) badGen.K = none) ∧
    (CodecReady erasedOverSurvivor 2 2 ∧ 1 ≤ erasureCount erasedOverSurvivor ∧
      erasureCount erasedOverSurvivor ≤ erasedOverSurvivor.M ∧
      gjInv erasedOverSurvivor.tables (Mat.of erasedOverSurvivor.K erasedOverSurvivor.K fun r c =>
        erasedOverSurvivor.genAt (erasedOverSurvivor.survivor r) c) erasedOverSurvivor.K ≠ none ∧
      ¬ReconstructClear erasedOverSurvivor) ∧
    (CodecReady survivorsUnwritten 2 2 ∧ 1 ≤ erasureCount survivorsUnwritten ∧
      erasureCount survivorsUnwritten ≤ survivorsUnwritten.M ∧
      gjInv survivorsUnwritten.tables (Mat.of survivorsUnwritten.K survivorsUnwritten.K fun r c =>
        survivorsUnwritten.genAt (survivorsUnwritten.survivor r) c) survivorsUnwritten.K ≠ none ∧
      ReconstructClear survivorsUnwritten ∧
      ∃ r, r < survivorsUnwritten.K ∧
        ¬Written survivorsUnwritten (survivorsUnwritten.shardRegion (survivorsUnwritten.survivor r))) := by
  refine ⟨⟨codecReady_of ?_, ?_, ?_, ?_⟩, ⟨codecReady_of ?_, ?_, ?_, ?_, fun h => ?_⟩, codecReady_of ?_, ?_, ?_, ?_,
    reconstructClear_of ?_, 1, ?_, not_written_of 0x20 ?_ ?_⟩
  case refine_9 =>
    exact not_apart_of (by decide +kernel)
      (h 3 2 (by decide +kernel) (by decide +kernel) (by decide +kernel) (by decide))
  all_goals decide +kernel

/-- The invariant, from a computation, for a state on the stripe's context that has not completed a command. -/
theorem inv_of {s : State} (hp : s.build.gfPoly = 0x11D) (ht : s.tables = lut) (hr : s.rst = false)
    (h : (s.build.wellFormed && Memory.wf s.dmem && Memory.inside s.dmem s.build.memBytes) = true)
    (hs : s.status = stripe.status ∧ s.runCmd = none)
    (hc : legalShape s.ctx.k s.ctx.m = true ∧ s.gen = buildGen lut s.K s.M) : Inv s := by
  simp only [Bool.and_eq_true] at h
  have hl : initTables s.build.gfPoly = lut := by rw [hp]; exact test_tables_match_R101
  refine ⟨h.1.1, ⟨h.1.2, h.2⟩, ?_, ?_, fun _ => ht.trans hl.symm, ?_, fun hx => by simp [hr] at hx⟩
  · simp [HandshakeOk, hs, stripe, Status.reset]
  · simp [ErrorOk, hs, stripe, Status.reset]
  · refine ⟨fun _ => ⟨by simp [hs, stripe], hc.1, by rw [hl]; exact hc.2⟩, fun hx => by simp [hs, stripe] at hx⟩

/-- A step from a state with the invariant. -/
theorem witness_EveryStepKeepsInv :
    Inv (encoded 0xA) ∧ ∃ t, step (scheduled (encoded 0xA) (writeAt 0x010 1)) = .next t ∧ t.status.busy = true :=
  ⟨inv_of rfl rfl rfl (by decide +kernel) ⟨rfl, rfl⟩ (by decide +kernel), next_of_after (by decide +kernel)⟩

/-- Both parity shards erased. -/
theorem witness_ParityOnlyRecoveryEqualsEncode :
    Inv (encoded 0xC) ∧ CodecReady (encoded 0xC) 2 2 ∧
    (∀ i, i < (encoded 0xC).K → (encoded 0xC).erased i = false) ∧ 1 ≤ erasureCount (encoded 0xC) ∧
    ReconstructClear (encoded 0xC) ∧
    ∀ d, d < (encoded 0xC).K → Written (encoded 0xC) ((encoded 0xC).shardRegion d) :=
  ⟨inv_of rfl rfl rfl (by decide +kernel) ⟨rfl, rfl⟩ (by decide +kernel), codecReady_of (by decide +kernel),
    fun i hi => by simpa using forall_lt_of_all (p := fun i => !(encoded 0xC).erased i) (by decide +kernel) i hi,
    by decide +kernel, reconstructClear_of (by decide +kernel), shardsWritten_of (f := fun d => d) (by decide +kernel)⟩

/-- The stripe after RS.ENCODE. -/
def encodedDone : State := { encoded 0 with erase := State.reset.erase, status := { stripe.status with done := true } }

/-- Shards 1 and 3 are erased and lose their bytes. -/
def damaged : State :=
  { encodedDone with
    erase := State.reset.erase.set 0 0xA
    dmem := stripe.dmem.take 3 ++ [(0x20, 0x32), (0x21, 0x64), (0x22, 0xB3), (0x30, 0xEE)] }

theorem witness_EncodeEraseReconstructRoundTrip :
    Inv stripe ∧ exec (.rsEncode 2 2) stripe = .next encodedDone ∧ encodedDone.status.err = false ∧
    damaged.build = encodedDone.build ∧ damaged.status.initDone = encodedDone.status.initDone ∧
    damaged.status.ctxValid = encodedDone.status.ctxValid ∧ damaged.ctx = encodedDone.ctx ∧
    damaged.tables = encodedDone.tables ∧ damaged.gen = encodedDone.gen ∧ damaged.blockSize = encodedDone.blockSize ∧
    damaged.shardBase = encodedDone.shardBase ∧ erasureCount damaged ≤ damaged.M ∧ ReconstructClear damaged ∧
    ∀ i j, i < encodedDone.K + encodedDone.M → damaged.erased i = false → j < encodedDone.blockSize.toNat →
      shardByte? damaged i j = shardByte? encodedDone i j := by
  refine ⟨inv_of rfl rfl rfl (by decide +kernel) ⟨rfl, rfl⟩ (by decide +kernel), ?_, rfl, rfl, rfl, rfl, rfl, rfl,
    rfl, rfl, rfl, by decide +kernel, reconstructClear_of (by decide +kernel), ?_⟩
  · obtain ⟨t, h, rfl⟩ := next_of_after (f := id) (v := encodedDone)
      (show after (exec (.rsEncode 2 2) stripe) id = some encodedDone by decide +kernel)
    exact h
  · intro i j hi he hj
    have := forall_lt_of_all (n := 4) (p := fun i => damaged.erased i ||
      (List.range 3).all fun j => decide (shardByte? damaged i j = shardByte? encodedDone i j)) (by decide +kernel) i hi
    simp only [he, Bool.false_or] at this
    simpa using forall_lt_of_all this j hj

/-! ### The host port -/

/-- Reserved offsets (R22) beside the last register of each block, and accesses that are no CSR accesses. -/
theorem witness_CsrReadsFollowTheMap :
    (∀ r : Csr, specOffset r ≠ (0x034 : BitVec 12).toNat) ∧ (∀ r : Csr, specOffset r ≠ (0x060 : BitVec 12).toNat) ∧
    (∀ r : Csr, specOffset r ≠ (0x800 : BitVec 12).toNat) ∧ (0x800 : BitVec 12).toNat % 4 = 0 ∧
    ¬((4 = 4) ∧ (0x012 : BitVec 12).toNat % 4 = 0) ∧ ¬((2 = 4) ∧ (0x010 : BitVec 12).toNat % 4 = 0) := by
  refine ⟨fun r => ?_, fun r => ?_, fun r => ?_, by decide, by decide, by decide⟩ <;>
    (cases r <;> simp [specOffset] <;> omega)

/-- Whatever the windows' bases: an offset in the CSR window, a DMEM address outside it, an address outside both. -/
theorem witness_busWindows :
    0xFFC < 4096 ∧
    (∃ a, a < 2 ^ stripe.build.addrW.toNat ∧ ¬InCsrWindow (Config.dmemBase + a)) ∧
    ∃ addr, ¬InCsrWindow addr ∧
      ¬(Config.dmemBase ≤ addr ∧ addr < Config.dmemBase + 2 ^ stripe.build.addrW.toNat) := by
  have h : 4096 < 2 ^ stripe.build.addrW.toNat := by decide +kernel
  refine ⟨by decide, ?_, Config.csrBase + 4096 + Config.dmemBase + 2 ^ stripe.build.addrW.toNat, ?_, by omega⟩
  · by_cases hc : InCsrWindow Config.dmemBase
    · exact ⟨4096, h, fun h2 => by unfold InCsrWindow at *; omega⟩
    · exact ⟨0, by omega, hc⟩
  · unfold InCsrWindow; omega

theorem witness_OperandRegistersLockWhileBusy :
    isLocked .dimB = true ∧ isLocked (.shardBase 255) = true ∧ ready.rst = false ∧ ready.status.busy = false ∧
    (busy ready 1).rst = false ∧ (busy ready 1).status.busy = true := by decide +kernel

/-- The last word of DMEM on an idle core, a byte while an illegal word runs; illegal accesses. -/
theorem witness_HostMemoryIsLittleEndian :
    stripe.status.busy = false ∧ LegalAccess stripe 0xFFFFC 4 ∧
    (busy stripe 0).status.busy = true ∧ (busy stripe 0).running = none ∧ LegalAccess (busy stripe 0) 0 1 ∧
    ¬LegalAccess stripe 0 8 ∧ ¬LegalAccess stripe 2 4 ∧ ¬LegalAccess stripe 0x100000 1 := by
  unfold LegalAccess; decide +kernel

theorem reportsError_of {s : State} {i : Instr} (h : passesChecks s i = false) : ReportsError i s :=
  passesChecks_eq_false.1 h

theorem not_reportsError_of {s : State} {i : Instr} (h : passesChecks s i = true) : ¬ReportsError i s := by
  intro hr
  rw [passesChecks_eq_false.2 hr] at h
  exact Bool.false_ne_true h

theorem touchesRegions_iff {s : State} {i : Instr} {a n : Nat} :
    TouchesRegions s i a n ↔ ((touchedRegions s i).any (Region.mk a n).overlaps) = true := by
  simp [TouchesRegions, Region.overlaps_iff]

/-- RS.ENCODE runs and would succeed: the last byte of shard 3 is in its footprint and the byte after it is not. -/
theorem witness_HostAccessToFootprintIsRace_success :
    (busy stripe 0x00020230).status.busy = true ∧ (busy stripe 0x00020230).running = some (.rsEncode 2 2) ∧
    LegalAccess (busy stripe 0x00020230) 0x32 1 ∧ LegalAccess (busy stripe 0x00020230) 0x33 1 ∧
    ¬ReportsError (.rsEncode 2 2) { busy stripe 0x00020230 with events := [] } ∧
    TouchesRegions (busy stripe 0x00020230) (.rsEncode 2 2) 0x32 1 ∧
    ¬TouchesRegions (busy stripe 0x00020230) (.rsEncode 2 2) 0x33 1 := by
  refine ⟨rfl, by decide +kernel, ?_, ?_, not_reportsError_of (by decide +kernel), touchesRegions_iff.2 (by decide +kernel),
    fun h => ?_⟩
  · unfold LegalAccess; decide +kernel
  · unfold LegalAccess; decide +kernel
  · exact absurd (touchesRegions_iff.1 h) (by decide +kernel)

/-- MAT.INV runs and would end in UninitRead: its operand is in its footprint. -/
theorem witness_HostAccessToFootprintIsRace_modelFault :
    (busy invUnwritten 0x11).status.busy = true ∧ (busy invUnwritten 0x11).running = some .matInv ∧
    LegalAccess (busy invUnwritten 0x11) 0x100 1 ∧
    faultOf (exec .matInv (busy invUnwritten 0x11)) = some (.uninitRead 0x102) ∧
    ¬ReportsError .matInv { busy invUnwritten 0x11 with events := [] } ∧
    TouchesRegions (busy invUnwritten 0x11) .matInv 0x100 1 := by
  refine ⟨rfl, by decide +kernel, ?_, by decide +kernel, not_reportsError_of (by decide +kernel),
    touchesRegions_iff.2 (by decide +kernel)⟩
  unfold LegalAccess; decide +kernel

/-- MAT.INV runs on a singular operand: it stays singular after 02 is written at 0x103, and not after 03 is. -/
theorem witness_HostAccessToFootprintIsRace_error :
    (busy singular 0x11).status.busy = true ∧ (busy singular 0x11).running = some .matInv ∧
    LegalAccess (busy singular 0x11) 0x103 1 ∧ ReportsError .matInv { busy singular 0x11 with events := [] } ∧
    ReportsError .matInv (afterHostWrite (busy singular 0x11) 0x103 1 2) ∧
    ¬ReportsError .matInv (afterHostWrite (busy singular 0x11) 0x103 1 3) ∧
    TouchesRegions (busy singular 0x11) .matInv 0x103 1 := by
  refine ⟨rfl, by decide +kernel, ?_, reportsError_of (by decide +kernel), reportsError_of (by decide +kernel),
    not_reportsError_of (by decide +kernel), touchesRegions_iff.2 (by decide +kernel)⟩
  unfold LegalAccess; decide +kernel

end Tests
end Sys2Proof
end

section
/-! The host's CSR writes as exact next states (10_state.md R22, R27, R30, R44) and the register words after reset
(R42). -/
namespace Sys2Proof
namespace Machine

open Claims

/-! ## Register words after reset -/

/-- `PARAM` as the number R42 writes it. -/
theorem paramWord_eq_ofNat (b : Build) : paramWord b = BitVec.ofNat 32 (b.gfPoly.toNat + 65536 * b.addrW.toNat) := by
  rw [← paramWord_toNat, BitVec.ofNat_toNat, BitVec.setWidth_eq]

@[simp] theorem Status.word_reset : Status.reset.word = 0 := by decide

@[simp] theorem Dim.word_zero : (Dim.mk 0 0).word = 0 := by decide

/-- A core built with `b` whose registers hold their reset values reads as R42 lists it. -/
theorem State.csrValue_reset_of_build (b : Build) (r : Csr) :
    ({ State.reset with build := b } : State).csrValue r = resetWord b r := by
  cases r with
  | param => exact paramWord_eq_ofNat b
  | erase w => exact Vector.getElem_replicate w.isLt
  | shardBase i => exact Vector.getElem_replicate i.isLt
  | ctrl => exact (by decide : (0 : BitVec 31) ++ BitVec.ofBool false = 0)
  | status => exact Status.word_reset
  | ctx => exact (by decide : (0 : BitVec 16) ++ (0 : Byte) ++ (0 : Byte) = 0)
  | dimA | dimB => exact Dim.word_zero
  | id | cmd | result | blockSize | maBase | mbBase | mcBase => rfl

theorem State.csrValue_reset (r : Csr) : State.reset.csrValue r = resetWord Config.defaultBuild r :=
  State.csrValue_reset_of_build Config.defaultBuild r

/-! ## A host write to a register -/

/-- Out of reset, a 32-bit host write at a register's offset is that register's write (R22). -/
theorem hostCsrWrite_csrOffset {s : State} (hrst : s.rst = false) (r : Csr) (v : Word) :
    hostCsrWrite (BitVec.ofNat 12 (csrOffset r)) 4 v s = (s.csrStore v r).respond .written := by
  obtain ⟨hlt, halign⟩ := csrOffset_legal r
  have hoff : (BitVec.ofNat 12 (csrOffset r)).toNat = csrOffset r := Nat.mod_eq_of_lt hlt
  have hlegal : csrAccessLegal (BitVec.ofNat 12 (csrOffset r)) 4 = true := by simp [csrAccessLegal, hoff, halign]
  simp [hostCsrWrite, hrst, hlegal, hoff]

/-- The step of a scheduled register write (R22). -/
theorem step_writeAt_csrOffset {s : State} (hrst : s.rst = false) (r : Csr) (v : Word) :
    step (scheduled s (writeAt (csrOffset r) v)) =
      .next ((({ s with events := [] } : State).csrStore v r).respond .written) :=
  congrArg Host.Outcome.next (hostCsrWrite_csrOffset (s := { s with events := [] }) hrst r v)

/-- Write-1-to-clear, flag by flag (R27). -/
theorem Status.written_eq (f : Status) (v : Word) :
    f.written v = { f with
      done := if v.getLsbD 1 = true then false else f.done
      overrun := if v.getLsbD 3 = true then false else f.overrun } := by
  unfold Status.written
  cases v.getLsbD 1 <;> cases v.getLsbD 3 <;> simp

/-! ## The interrupt output -/

@[simp] theorem State.irq_respond (s : State) (r : BusResponse) : (s.respond r).irq = s.irq := rfl

theorem State.irq_eq_false_of_done {s : State} (h : s.status.done = false) : s.irq = false := by simp [State.irq, h]

theorem State.irq_eq_false_of_irqEn {s : State} (h : s.irqEn = false) : s.irq = false := by simp [State.irq, h]

/-- Acknowledging DONE drops `irq` (R44, R178). -/
theorem State.irq_acknowledge {v : Word} (s : State) (h : v.getLsbD 1 = true) : (s.acknowledge v).irq = false :=
  State.irq_eq_false_of_done (by simp [h])

/-- Acceptance clears DONE and with it `irq` (R30, R44). -/
@[simp] theorem State.irq_accept (s : State) (w : Word) : (s.accept w).irq = false := State.irq_eq_false_of_done rfl

theorem State.writeCmd_of_idle {s : State} (h : s.status.busy = false) (w : Word) : s.writeCmd w = s.accept w := by
  simp [State.writeCmd, h]

end Machine

namespace Proofs

open Machine Claims

/-- Settles O1: the register words by one lemma over all builds, the rest by reading the reset state. -/
theorem resetLeavesSpecValues : Obligations.ResetLeavesSpecValues := by
  refine ⟨State.csrValue_reset, State.csrValue_reset .id, ?_, rfl, rfl, Memory.byte?_nil⟩
  rw [State.csrValue_reset]
  rfl

/-- Settles O55: the write is `acknowledge`, whatever BUSY is. -/
theorem statusWriteClearsDoneAndOverrun : Obligations.StatusWriteClearsDoneAndOverrun := by
  intro s v hrst
  rw [← Status.written_eq]
  exact step_writeAt_csrOffset hrst .status v

/-- Settles O57: each of the three writes leaves DONE or IRQ_EN at 0. -/
theorem irqFollowsDone : Obligations.IrqFollowsDone := by
  refine ⟨fun _ => rfl, fun s v hrst => ⟨fun hdone => ?status, fun hidle => ?cmd, fun hen => ?ctrl⟩⟩
  case status =>
    exact ⟨_, step_writeAt_csrOffset hrst .status v, State.irq_acknowledge { s with events := [] } hdone⟩
  case cmd =>
    refine ⟨_, step_writeAt_csrOffset hrst .cmd v, ?_⟩
    rw [State.irq_respond, State.csrStore, State.writeCmd_of_idle (s := { s with events := [] }) hidle, State.irq_accept]
  case ctrl =>
    exact ⟨_, step_writeAt_csrOffset hrst .ctrl v, State.irq_eq_false_of_irqEn hen⟩

end Proofs
end Sys2Proof
end

section
/-! The decoder, case by case (30_encoding.md R74, R75): when it answers which command, when it refuses, and that the
words it accepts are the encodings. -/
namespace Sys2Proof

/-! ## What the decoder answers -/

/-- The must-be-zero fields of the opcode `op` are zero (R73, R75). -/
def OperandFieldsOk (op a b : Byte) : Prop :=
  (noOperandOpcode op = true → a = 0 ∧ b = 0) ∧ (oneOperandOpcode op = true → b = 0)

theorem not_operandFieldsOk_iff {op a b : Byte} :
    ¬OperandFieldsOk op a b ↔
      (noOperandOpcode op = true ∧ (a ≠ 0 ∨ b ≠ 0)) ∨ (oneOperandOpcode op = true ∧ b ≠ 0) := by
  unfold OperandFieldsOk
  tauto

/-- The decoder accepts a word on three conditions (R75). -/
theorem decode_eq_ok_iff {w : Word} {i : Instr} :
    decode w = .ok i ↔ instrOf (fieldOpcode w) (fieldA w) (fieldB w) = some i ∧ fieldRsv w = 0 ∧
      OperandFieldsOk (fieldOpcode w) (fieldA w) (fieldB w) := by
  unfold decode
  cases instrOf (fieldOpcode w) (fieldA w) (fieldB w) with
  | none => simp
  | some j =>
    simp only [ite_eq_iff, reduceCtorEq, and_false, false_or, Except.ok.injEq, Option.some.injEq, OperandFieldsOk, ne_eq]
    tauto

/-- The decoder refuses a word in the three cases of R74. -/
theorem exists_decode_eq_error_iff {w : Word} :
    (∃ e, decode w = .error e) ↔ instrOf (fieldOpcode w) (fieldA w) (fieldB w) = none ∨ fieldRsv w ≠ 0 ∨
      ¬OperandFieldsOk (fieldOpcode w) (fieldA w) (fieldB w) := by
  have hok : (∃ e, decode w = .error e) ↔ ¬∃ i, decode w = .ok i := by cases decode w <;> simp
  rw [hok]
  simp only [decode_eq_ok_iff, exists_and_right, ← Option.isSome_iff_exists, not_and_or, Option.not_isSome_iff_eq_none,
    ne_eq]

/-! ## Encode and decode -/

/-- A word is the packing of its fields when RSV is zero (R71). -/
theorem packWord_fields {w : Word} (hr : fieldRsv w = 0) : packWord (fieldB w) (fieldA w) (fieldOpcode w) = w := by
  have hr' : w.toNat / 16777216 = 0 := by rw [← fieldRsv_toNat, hr]; rfl
  apply BitVec.eq_of_toNat_eq
  rw [packWord_toNat, fieldOpcode_toNat, fieldA_toNat, fieldB_toNat]
  omega

theorem encode_toNat (i : Instr) : (encode i).toNat = Claims.specWord i := by
  cases i <;> simp only [encode, Claims.specWord, packWord_toNat] <;> bv_omega

theorem instrOf_encode (i : Instr) :
    instrOf (fieldOpcode (encode i)) (fieldA (encode i)) (fieldB (encode i)) = some i := by
  cases i <;> simp [encode, instrOf]

theorem fieldRsv_encode (i : Instr) : fieldRsv (encode i) = 0 := by
  cases i <;> exact fieldRsv_packWord _ _ _

theorem operandFieldsOk_encode (i : Instr) :
    OperandFieldsOk (fieldOpcode (encode i)) (fieldA (encode i)) (fieldB (encode i)) := by
  cases i <;> simp [encode, OperandFieldsOk, noOperandOpcode, oneOperandOpcode]

@[simp] theorem decode_encode (i : Instr) : decode (encode i) = .ok i :=
  decode_eq_ok_iff.2 ⟨instrOf_encode i, fieldRsv_encode i, operandFieldsOk_encode i⟩

/-- Row by row of the opcode map (R73): the table and its must-be-zero fields fix every field of the word. -/
theorem packWord_eq_encode_of_instrOf {op a b : Byte} {i : Instr} (hi : instrOf op a b = some i)
    (hok : OperandFieldsOk op a b) : packWord b a op = encode i := by
  unfold instrOf at hi
  iterate 14
    rcases ite_eq_iff.1 hi with ⟨rfl, hrow⟩ | ⟨-, hi⟩
    · cases hrow
      simp [OperandFieldsOk, noOperandOpcode, oneOperandOpcode] at hok
      simp [encode, hok]
  cases hi

/-- The decoder accepts no word but the encodings. -/
theorem encode_of_decode {w : Word} {i : Instr} (h : decode w = .ok i) : encode i = w := by
  obtain ⟨hi, hr, hok⟩ := decode_eq_ok_iff.1 h
  rw [← packWord_eq_encode_of_instrOf hi hok, packWord_fields hr]

/-! ## The illegal words as numbers -/

/-- The unassigned opcodes (R74 (a)). -/
theorem instrOf_eq_none_iff {op a b : Byte} :
    instrOf op a b = none ↔ op.toNat = 0x00 ∨ (0x08 ≤ op.toNat ∧ op.toNat ≤ 0x0F) ∨
      (0x12 ≤ op.toNat ∧ op.toNat ≤ 0x1F) ∨ (0x23 ≤ op.toNat ∧ op.toNat ≤ 0x2F) ∨ 0x32 ≤ op.toNat := by
  simp only [instrOf, ite_eq_iff, reduceCtorEq, and_false, false_or, and_true]
  bv_omega

theorem noOperandOpcode_iff {op : Byte} :
    noOperandOpcode op = true ↔
      op.toNat = 0x01 ∨ op.toNat = 0x10 ∨ op.toNat = 0x11 ∨ op.toNat = 0x21 ∨ op.toNat = 0x22 := by
  simp [noOperandOpcode, ← BitVec.toNat_inj]

theorem oneOperandOpcode_iff {op : Byte} :
    oneOperandOpcode op = true ↔ op.toNat = 0x05 ∨ op.toNat = 0x06 ∨ op.toNat = 0x07 := by
  simp [oneOperandOpcode, ← BitVec.toNat_inj]

/-- R74's cases on the word's bytes are the decoder's three conditions, denied. -/
theorem illegalBytes_iff {op a b r : Byte} :
    Claims.IllegalBytes op.toNat a.toNat b.toNat r.toNat ↔
      instrOf op a b = none ∨ r ≠ 0 ∨ ¬OperandFieldsOk op a b := by
  have hzero (x : Byte) : x = 0 ↔ x.toNat = 0 := BitVec.toNat_inj.symm
  simp only [Claims.IllegalBytes, not_operandFieldsOk_iff, instrOf_eq_none_iff, noOperandOpcode_iff,
    oneOperandOpcode_iff, ne_eq, hzero]

theorem exists_decode_eq_error_iff_illegalBytes (w : Word) :
    (∃ e, decode w = .error e) ↔
      Claims.IllegalBytes (w.toNat % 256) (w.toNat / 256 % 256) (w.toNat / 65536 % 256) (w.toNat / 16777216) := by
  rw [exists_decode_eq_error_iff, ← illegalBytes_iff, fieldOpcode_toNat, fieldA_toNat, fieldB_toNat, fieldRsv_toNat]

namespace Machine

open Claims

/-- A scheduled CMD write to an idle core is accepted, whatever its word (R30). -/
theorem step_cmdWrite_of_idle {s : State} (hrst : s.rst = false) (hidle : s.status.busy = false) (w : Word) :
    step (scheduled s (writeAt 0x010 w)) = .next ((({ s with events := [] } : State).accept w).respond .written) := by
  rw [← State.writeCmd_of_idle (s := { s with events := [] }) hidle w]
  exact step_writeAt_csrOffset hrst .cmd w

end Machine

namespace Proofs

open Machine Claims

/-- Settles O11: the word is read off the command's row of the table, and the decoder's three conditions leave no word
but that one. -/
theorem decodeAndEncodeAgree : Obligations.DecodeAndEncodeAgree :=
  ⟨fun i => ⟨encode_toNat i, decode_encode i⟩, fun _ _ => encode_of_decode⟩

/-- Settles O13: the decoder's refusals on the word's bytes, then the two steps of an illegal word. -/
theorem illegalWordsAreRejected : Obligations.IllegalWordsAreRejected := by
  refine ⟨rfl, fun w => ⟨exists_decode_eq_error_iff_illegalBytes w, fun s e herr => ⟨?complete, fun hrst hidle => ?accept⟩⟩⟩
  case complete => exact completeWord_of_error herr s
  case accept => exact step_cmdWrite_of_idle hrst hidle w

end Proofs
end Sys2Proof
end

section
/-! What keeps a live context (42_codec_context.md R135): no host access writes `CTX`, `GEN` or the tables, and of the
commands only CTX.RELEASE changes a live context. -/
namespace Sys2Proof
namespace Machine

open Claims

/-! ## What no host access changes -/

/-- The tables, the context and the flags that tell of them are the same. No host access writes any of these: INIT_DONE,
CTX_VALID and CTX are read-only to the host, and the tables and GEN are not visible to it (R26, R27, R31, R38, R39). -/
structure HostFrame (s t : State) : Prop where
  initDone : t.status.initDone = s.status.initDone
  ctxValid : t.status.ctxValid = s.status.ctxValid
  tables : t.tables = s.tables
  ctx : t.ctx = s.ctx
  gen : t.gen = s.gen

theorem HostFrame.refl (s : State) : HostFrame s s := ⟨rfl, rfl, rfl, rfl, rfl⟩

theorem HostFrame.respond {s t : State} (h : HostFrame s t) (r : BusResponse) : HostFrame s (t.respond r) :=
  ⟨h.initDone, h.ctxValid, h.tables, h.ctx, h.gen⟩

/-- An RW-L write has the frame of the write it locks, performed or dropped (R37). -/
theorem HostFrame.lockedWrite {s t : State} (h : HostFrame s t) : HostFrame s (s.lockedWrite t) := by
  unfold State.lockedWrite
  split
  · exact ⟨rfl, rfl, rfl, rfl, rfl⟩
  · exact h

theorem hostFrame_writeCmd (s : State) (v : Word) : HostFrame s (s.writeCmd v) := by
  unfold State.writeCmd
  split <;> exact ⟨rfl, rfl, rfl, rfl, rfl⟩

theorem hostFrame_csrStore (s : State) (v : Word) (r : Csr) : HostFrame s (s.csrStore v r) := by
  cases r with
  | id | param | result | ctx => exact .refl s
  | ctrl | status => exact ⟨rfl, rfl, rfl, rfl, rfl⟩
  | cmd => exact hostFrame_writeCmd s v
  | blockSize | maBase | mbBase | mcBase | dimA | dimB | erase | shardBase =>
    exact .lockedWrite ⟨rfl, rfl, rfl, rfl, rfl⟩

theorem hostFrame_hostCsrRead (off : BitVec 12) (n : Nat) (s : State) : HostFrame s (hostCsrRead off n s) := by
  unfold hostCsrRead
  split_ifs <;> exact (HostFrame.refl s).respond _

theorem hostFrame_hostCsrWrite (off : BitVec 12) (n : Nat) (v : Word) (s : State) :
    HostFrame s (hostCsrWrite off n v s) := by
  unfold hostCsrWrite
  split_ifs
  · exact (HostFrame.refl s).respond _
  · cases csrAt off.toNat with
    | none => exact (HostFrame.refl s).respond _
    | some r => exact (hostFrame_csrStore s v r).respond _
  · exact (HostFrame.refl s).respond _

theorem hostFrame_of_hostMemRead {a n : Nat} {s t : State} (h : hostMemRead a n s = .next t) : HostFrame s t := by
  unfold hostMemRead at h
  split_ifs at h <;> cases h <;> exact ⟨rfl, rfl, rfl, rfl, rfl⟩

theorem hostFrame_of_hostMemWrite {a n : Nat} {v : Word} {s t : State} (h : hostMemWrite a n v s = .next t) :
    HostFrame s t := by
  unfold hostMemWrite at h
  split_ifs at h <;> cases h <;> exact ⟨rfl, rfl, rfl, rfl, rfl⟩

theorem hostFrame_of_hostAccess {x : HostAccess} {s t : State} (h : hostAccess x s = .next t) : HostFrame s t := by
  cases x with
  | csrRead off n => cases h; exact hostFrame_hostCsrRead off n s
  | csrWrite off n v => cases h; exact hostFrame_hostCsrWrite off n v s
  | memRead a n => exact hostFrame_of_hostMemRead h
  | memWrite a n v => exact hostFrame_of_hostMemWrite h

theorem hostFrame_of_busAccess {x : BusAccess} {s t : State} (h : busAccess x s = .next t) : HostFrame s t := by
  rcases busAccess_cases x s with ⟨y, -, hy⟩ | ⟨-, hnone⟩
  · exact hostFrame_of_hostAccess (hy ▸ h)
  · rw [hnone] at h
    cases h
    exact (HostFrame.refl s).respond _

/-! ## The context -/

/-- CTX_VALID, CTX and GEN are the same. -/
structure SameContext (s t : State) : Prop where
  ctxValid : t.status.ctxValid = s.status.ctxValid
  ctx : t.ctx = s.ctx
  gen : t.gen = s.gen

theorem SameContext.refl (s : State) : SameContext s s := ⟨rfl, rfl, rfl⟩

theorem SameContext.trans {s t u : State} (h : SameContext s t) (h' : SameContext t u) : SameContext s u :=
  ⟨h'.ctxValid.trans h.ctxValid, h'.ctx.trans h.ctx, h'.gen.trans h.gen⟩

theorem SameContext.complete {s t : State} (h : SameContext s t) (c : ErrCode) (k : ErrCause) :
    SameContext s (t.complete c k) :=
  ⟨h.ctxValid, h.ctx, h.gen⟩

theorem HostFrame.sameContext {s t : State} (h : HostFrame s t) : SameContext s t := ⟨h.ctxValid, h.ctx, h.gen⟩

/-- On a live context, of the commands' effects only that of CTX.RELEASE is on the context: CTX.CREATE has none there. -/
theorem sameContext_of_effect {s t : State} {i : Instr} (h : Effect s i t) (hv : s.status.ctxValid = true)
    (hi : i ≠ .ctxRelease) : SameContext s t := by
  cases i with
  | init =>
    obtain rfl : t = _ := h
    split <;> exact ⟨rfl, rfl, rfl⟩
  | gfAdd | gfMul | gfExp =>
    obtain rfl : t = _ := h
    exact ⟨rfl, rfl, rfl⟩
  | gfDiv | gfInv =>
    obtain ⟨q, -, rfl⟩ := h
    exact ⟨rfl, rfl, rfl⟩
  | gfLog =>
    obtain ⟨-, rfl⟩ := h
    exact ⟨rfl, rfl, rfl⟩
  | matMul =>
    obtain ⟨-, -, -, -, rfl⟩ := h
    exact ⟨rfl, rfl, rfl⟩
  | matInv =>
    obtain ⟨-, -, -, X, -, rfl⟩ := h
    exact ⟨rfl, rfl, rfl⟩
  | ctxCreate =>
    obtain ⟨hnone, -⟩ := h
    exact absurd hv (by simp [hnone])
  | ctxRelease => exact absurd rfl hi
  | ctxGenstore =>
    obtain ⟨-, -, rfl⟩ := h
    exact ⟨rfl, rfl, rfl⟩
  | rsEncode =>
    obtain ⟨-, -, -, -, -, rfl⟩ := h
    exact ⟨rfl, rfl, rfl⟩
  | rsReconstruct =>
    obtain ⟨-, -, -, -, ⟨-, rfl⟩ | ⟨-, Sinv, -, -, -, rfl⟩⟩ := h
    · exact .refl _
    · exact ⟨rfl, rfl, rfl⟩

theorem sameContext_of_exec {s t : State} {i : Instr} (h : exec i s = .next t) (hv : s.status.ctxValid = true)
    (hi : i ≠ .ctxRelease) : SameContext s t := by
  rcases exec_next_cases h with ⟨c, k, -, -, rfl⟩ | ⟨-, t0, heff, rfl⟩
  · exact (SameContext.refl s).complete c k
  · exact (sameContext_of_effect heff hv hi).complete _ _

theorem sameContext_of_completeRunning {s t : State} (h : completeRunning s = .next t)
    (hv : s.status.ctxValid = true) (hrun : s.running ≠ some .ctxRelease) : SameContext s t := by
  rcases completeRunning_next_cases h with ⟨-, rfl⟩ | ⟨w, -, -, rfl⟩ | ⟨i, hi, hexec⟩
  · exact .refl _
  · exact (SameContext.refl s).complete _ _
  · exact sameContext_of_exec hexec hv fun he => hrun (he ▸ hi)

/-- A completion with a CMD write in the same cycle is the completion, then the write (R179). -/
theorem stepEvent_cmdWriteAtCompletion_next {w : Word} {s t : State}
    (h : stepEvent (.cmdWriteAtCompletion w) s = .next t) :
    ∃ u, completeRunning s = .next u ∧ t = hostCsrWrite cmdOffset 4 w u := by
  unfold stepEvent at h
  cases hu : completeRunning s with
  | next u => exact ⟨u, rfl, by simpa [hu, eq_comm] using h⟩
  | fault f => simp [hu] at h
  | refused r => simp [hu] at h

/-- R135 for one event. A host access keeps the context also while CTX.RELEASE is running. -/
theorem sameContext_of_stepEvent {e : Event} {s t : State} (h : stepEvent e s = .next t)
    (hv : s.status.ctxValid = true) (hreset : e ≠ .assertReset)
    (hrel : e = .complete ∨ (∃ w, e = .cmdWriteAtCompletion w) → s.running ≠ some .ctxRelease) : SameContext s t := by
  cases e with
  | host x => exact (hostFrame_of_hostAccess h).sameContext
  | bus x => exact (hostFrame_of_busAccess h).sameContext
  | complete => exact sameContext_of_completeRunning h hv (hrel (.inl rfl))
  | cmdWriteAtCompletion w =>
    obtain ⟨u, hu, rfl⟩ := stepEvent_cmdWriteAtCompletion_next h
    exact (sameContext_of_completeRunning hu hv (hrel (.inr ⟨w, rfl⟩))).trans
      (hostFrame_hostCsrWrite cmdOffset 4 w u).sameContext
  | assertReset => exact absurd rfl hreset
  | releaseReset => cases h; exact ⟨rfl, rfl, rfl⟩

/-- R135: the core's own turn or the first event of the schedule. -/
theorem sameContext_of_step {s t : State} (h : step s = .next t) (hv : s.status.ctxValid = true)
    (hreset : ∀ es, s.events ≠ .assertReset :: es) (hrel : CompletesNext s → s.running ≠ some .ctxRelease) :
    SameContext s t := by
  rcases step_next_cases h with ⟨hnil, hrun⟩ | ⟨e, es, hes, hev⟩
  · exact sameContext_of_completeRunning hrun hv (hrel (.inl hnil))
  · have hkeep : SameContext { s with events := es } t := by
      refine sameContext_of_stepEvent hev hv (fun he => hreset es (he ▸ hes)) fun hcompletes => hrel (.inr ?_)
      rcases hcompletes with rfl | ⟨w, rfl⟩
      · exact .inl ⟨es, hes⟩
      · exact .inr ⟨w, es, hes⟩
    exact ⟨hkeep.ctxValid, hkeep.ctx, hkeep.gen⟩

/-! ## A detected error -/

/-- Completion with an error code changes STATUS alone (R172, R175). -/
theorem State.complete_eq_withError (s : State) {c : ErrCode} (hc : c ≠ .noError) (k : ErrCause) :
    s.complete c k = withError s c k := by
  simp [State.complete, Status.completed, withError, hc]

theorem bodyOf_ctxCreate_of_valid {s : State} (hv : s.status.ctxValid = true) (k m : Byte) :
    bodyOf s (.ctxCreate k m) = .error .contextInUse .noCause := by
  simp [bodyOf, hv]

/-- CTX.CREATE refuses a live context, whatever its operands (R134, R174). -/
theorem exec_ctxCreate_of_valid {s : State} (hinit : s.status.initDone = true) (hv : s.status.ctxValid = true)
    (k m : Byte) : exec (.ctxCreate k m) s = .next (withError s .contextInUse .noCause) := by
  rw [exec_of_ne_init (by simp), State.afterInit_of_init hinit, bodyOf_ctxCreate_of_valid hv, State.finish_error,
    State.complete_eq_withError s (by simp)]

end Machine

namespace Proofs

open Machine Claims

/-- Settles O41: the step keeps the context, event by event, and CTX.CREATE checks CTX_VALID before its operands. -/
theorem contextIsImmutable : Obligations.ContextIsImmutable := by
  refine ⟨fun s t h hv hreset hrel => ?keeps, fun s k m hinit hv => exec_ctxCreate_of_valid hinit hv k m⟩
  case keeps =>
    have hkeep : SameContext s t := sameContext_of_step h hv hreset fun hnext hrun => hrel ⟨hrun, hnext⟩
    exact ⟨hkeep.ctxValid.trans hv, hkeep.ctx, hkeep.gen⟩

end Proofs
end Sys2Proof
end

section
/-! The checks that RS.ENCODE and RS.RECONSTRUCT share (43_encode_reconstruct.md R153, 20_memory.md R56), passed, and
what RS.RECONSTRUCT does after them (R156, R160). -/
namespace Sys2Proof
namespace Machine

open Claims

theorem erasedShards_length (s : State) : s.erasedShards.length = erasureCount s := rfl

section
variable {s : State} {nd np : Byte} (h : CodecReady s nd np)
include h

/-- `check_dims` passes (R153). -/
theorem dimsDisagree_of_codecReady : s.dimsDisagree nd np = false := by
  obtain ⟨-, -, hnd, hnp, hbs, -⟩ := h
  simpa [State.dimsDisagree, hnd, hnp] using hbs

/-- The AddressError check passes (R56). -/
theorem shardRegions_allInRange_of_codecReady : AllInRange s s.shardRegions := by
  obtain ⟨-, -, -, -, -, hrange⟩ := h
  intro r hr
  obtain ⟨i, hi, rfl⟩ := List.mem_map.1 hr
  exact hrange i (List.mem_range.1 hi)

/-- RS.RECONSTRUCT past the shared checks: the erasure budget (R160), the no-op without erasures (R157), recovery. -/
theorem exec_rsReconstruct_of_codecReady :
    exec (.rsReconstruct nd np) s = s.finish (
      if s.M < erasureCount s then .error .reconstructionImpossible .tooManyErasures
      else if erasureCount s = 0 then .success s
      else s.recoverEnding nd np (gjInv s.tables s.survivorMat s.K)) := by
  have hdims := dimsDisagree_of_codecReady h
  have hregions := shardRegions_allInRange_of_codecReady h
  obtain ⟨hinit, hvalid, -⟩ := h
  rw [exec_of_ne_init (by simp), State.afterInit_of_init hinit, bodyOf, State.withContext_of_valid hvalid, hdims,
    if_neg Bool.false_ne_true, State.withRegions_of_inRange hregions, erasedShards_length]

end

end Machine

namespace Proofs

open Machine Claims

/-- Settles O45: past the shared checks the erasure budget is the first check, and an error changes STATUS alone. -/
theorem tooManyErasuresAreRefused : Obligations.TooManyErasuresAreRefused := by
  intro s nd np hready hbudget
  rw [exec_rsReconstruct_of_codecReady hready, if_pos hbudget, State.finish_error, State.complete_eq_withError s (by simp)]

end Proofs
end Sys2Proof
end

section
/-! The completion of a command (60_exceptions.md R172, R175, R179): what STATUS and the rest of the state are after it,
and a CMD write in the cycle of a completion. -/
namespace Sys2Proof
namespace Machine

open Claims

/-! ## What a command leaves unchanged -/

theorem sameOperands_refl (s : State) : SameOperands s s := by simp [SameOperands]

/-- No command's effect writes an operand register, a pin or a port (R76). -/
theorem sameOperands_of_effect {s t : State} {i : Instr} (h : Effect s i t) : SameOperands s t := by
  cases i with
  | init =>
    obtain rfl : t = _ := h
    split <;> exact sameOperands_refl s
  | gfAdd | gfMul | gfExp =>
    obtain rfl : t = _ := h
    exact sameOperands_refl s
  | gfDiv | gfInv =>
    obtain ⟨q, -, rfl⟩ := h
    exact sameOperands_refl s
  | gfLog | ctxRelease =>
    obtain ⟨-, rfl⟩ := h
    exact sameOperands_refl s
  | ctxCreate | ctxGenstore =>
    obtain ⟨-, -, rfl⟩ := h
    exact sameOperands_refl s
  | matMul =>
    obtain ⟨-, -, -, -, rfl⟩ := h
    exact sameOperands_refl s
  | matInv =>
    obtain ⟨-, -, -, X, -, rfl⟩ := h
    exact sameOperands_refl s
  | rsEncode =>
    obtain ⟨-, -, -, -, -, rfl⟩ := h
    exact sameOperands_refl s
  | rsReconstruct =>
    obtain ⟨-, -, -, -, ⟨-, rfl⟩ | ⟨-, Sinv, -, -, -, rfl⟩⟩ := h
    · exact sameOperands_refl _
    · exact sameOperands_refl s

/-! ## What the complete step of a word can do -/

/-- A command word that answers a next state reports an error on the state as it was, or succeeds with effects that leave
every operand register, pin and port alone. -/
theorem completeWord_next_cases {w : Word} {s t : State} (h : completeWord w s = .next t) :
    (∃ c k, c ≠ .noError ∧ t = s.complete c k) ∨ ∃ t0, SameOperands s t0 ∧ t = t0.complete .noError .noCause := by
  cases hdec : decode w with
  | error e =>
    rw [completeWord_of_error hdec] at h
    exact .inl ⟨.illegalCommand, .noCause, by simp, (Host.Outcome.next.inj h).symm⟩
  | ok i =>
    rw [completeWord_of_ok hdec] at h
    rcases exec_next_cases h with ⟨c, k, hc, -, ht⟩ | ⟨-, t0, heff, ht⟩
    · exact .inl ⟨c, k, hc, ht⟩
    · exact .inr ⟨t0, sameOperands_of_effect heff, ht⟩

/-- A completion ends with BUSY = 0, whatever its code (R175). -/
theorem busy_of_completeWord {w : Word} {s t : State} (h : completeWord w s = .next t) : t.status.busy = false := by
  rcases completeWord_next_cases h with ⟨c, k, -, rfl⟩ | ⟨t0, -, rfl⟩ <;> rfl

/-- A completion leaves the reset input alone. -/
theorem rst_of_completeWord {w : Word} {s t : State} (h : completeWord w s = .next t) : t.rst = s.rst := by
  rcases completeWord_next_cases h with ⟨c, k, -, rfl⟩ | ⟨t0, hsame, rfl⟩
  · rfl
  · obtain ⟨-, -, -, -, -, -, -, -, -, -, hrst, -⟩ := hsame
    exact hrst

/-! ## `complete` and the interrupt output -/

/-- Completion sets DONE, so `irq` shows its mask (R44, R175). -/
@[simp] theorem State.irq_complete (s : State) (c : ErrCode) (k : ErrCause) : (s.complete c k).irq = s.irqEn := by
  simp [State.irq]

/-! ## A CMD write in the cycle of a completion -/

theorem completeRunning_of_runCmd {s : State} {w : Word} (h : s.runCmd = some w) :
    completeRunning s = completeWord w s := by
  simp [completeRunning, h]

/-- The write acts on the state that the completion answers (R179). -/
theorem stepEvent_cmdWriteAtCompletion_of_next {s t : State} (h : completeRunning s = .next t) (v : Word) :
    stepEvent (.cmdWriteAtCompletion v) s = .next (hostCsrWrite cmdOffset 4 v t) := by
  simp [stepEvent, h]

/-- A host write to an idle core's CMD register is accepted (R30). -/
theorem hostCsrWrite_cmdOffset_of_idle {s : State} (hrst : s.rst = false) (hidle : s.status.busy = false) (v : Word) :
    hostCsrWrite cmdOffset 4 v s = (s.accept v).respond .written := by
  rw [← State.writeCmd_of_idle hidle]
  exact hostCsrWrite_csrOffset hrst .cmd v

end Machine

namespace Proofs

open Machine Claims

/-- Settles O6: of the two ways a word completes, only the error has a code, and it completes the old state. -/
theorem errorsChangeOnlyStatus : Obligations.ErrorsChangeOnlyStatus := by
  intro w s t h herr
  rcases completeWord_next_cases h with ⟨c, k, hc, rfl⟩ | ⟨t0, -, rfl⟩
  · rw [State.complete_eq_withError s hc k]
    exact ⟨rfl, rfl⟩
  · exact absurd rfl herr

/-- Settles O5: the two endings and the record update are the definitions, and DONE is set when `irq` is read. -/
theorem completionWritesStatus : Obligations.CompletionWritesStatus :=
  fun s t code cause => ⟨State.finish_success s t, State.finish_error s code cause, rfl, State.irq_complete s code cause⟩

/-- Settles O10: the completion leaves the core idle and out of reset, so the write that follows it is accepted. -/
theorem completionBeatsCmdWrite : Obligations.CompletionBeatsCmdWrite := by
  intro s t w v hrst hrun hcomplete
  have hturn : completeRunning { s with events := [] } = .next t :=
    (completeRunning_of_runCmd (s := { s with events := [] }) hrun).trans hcomplete
  have ht : t.rst = false := (rst_of_completeWord hcomplete).trans hrst
  calc step (scheduled s (.cmdWriteAtCompletion v))
      _ = .next (hostCsrWrite cmdOffset 4 v t) := stepEvent_cmdWriteAtCompletion_of_next hturn v
      _ = .next { t.accept v with resp := .written } :=
          congrArg _ (hostCsrWrite_cmdOffset_of_idle ht (busy_of_completeWord hcomplete) v)

end Proofs
end Sys2Proof
end

section
/-! Where the storing commands store (20_memory.md R57): every stored byte lies in a write region, and every write region
lies in DMEM. -/
namespace Sys2Proof
namespace Machine

open Claims

/-! ## The cells a command writes -/

theorem matRegion_has_of_mem_matCells {base : Word} {R C : Nat} {f : Nat → Nat → Byte} {x : Host.Cell}
    (h : x ∈ matCells base R C f) : (matRegion base R C).has x.1 = true := by
  obtain ⟨r, c, hr, hc, rfl⟩ := mem_matCells.1 h
  have hlt := rowMajor_lt hr hc
  simp only [matRegion, Region.has_iff]
  omega

theorem State.mem_shardCells {s : State} {shards : List Nat} {f : Nat → Nat → Byte} {x : Host.Cell} :
    x ∈ s.shardCells shards f ↔
      ∃ i ∈ shards, ∃ j, j < s.blockSize.toNat ∧ x = (s.shardAt i + j, f i j) := by
  simp only [State.shardCells, List.mem_flatMap, List.mem_map, List.mem_range, eq_comm]

theorem State.shardRegion_has_of_mem_shardCells {s : State} {shards : List Nat} {f : Nat → Nat → Byte} {x : Host.Cell}
    (h : x ∈ s.shardCells shards f) : ∃ i ∈ shards, (s.shardRegion i).has x.1 = true := by
  obtain ⟨i, hi, j, hj, rfl⟩ := State.mem_shardCells.1 h
  exact ⟨i, hi, by simp [State.shardRegion, hj]⟩

theorem State.mem_erasedShards {s : State} {i : Nat} :
    i ∈ s.erasedShards ↔ i < s.K + s.M ∧ s.erased i = true := by
  simp [State.erasedShards]

theorem State.shardRegion_mem_shardRegions {s : State} {i : Nat} (h : i < s.K + s.M) :
    s.shardRegion i ∈ s.shardRegions :=
  List.mem_map.2 ⟨i, List.mem_range.2 h, rfl⟩

/-! ## One store per command -/

/-- `t` is `s` after bytes were stored inside the regions `rs`, which all lie in DMEM. -/
def StoresInto (s : State) (rs : List Region) (t : State) : Prop :=
  AllInRange s rs ∧ ∃ cs, t = s.store cs ∧ ∀ c ∈ cs, ∃ r ∈ rs, r.has c.1 = true

/-- A matrix image is stored into its region. -/
theorem storesInto_matCells {s : State} {base : Word} {R C : Nat} (f : Nat → Nat → Byte)
    (h : AllInRange s [matRegion base R C]) : StoresInto s [matRegion base R C] (s.store (matCells base R C f)) :=
  ⟨h, _, rfl, fun _ hc => ⟨_, List.mem_singleton_self _, matRegion_has_of_mem_matCells hc⟩⟩

/-- Shards are stored into their regions. -/
theorem storesInto_shardCells {s : State} {shards : List Nat} (f : Nat → Nat → Byte)
    (hall : AllInRange s s.shardRegions) (hlt : ∀ i ∈ shards, i < s.K + s.M) :
    StoresInto s (shards.map s.shardRegion) (s.store (s.shardCells shards f)) := by
  refine ⟨fun r hr => ?_, _, rfl, fun c hc => ?_⟩
  · obtain ⟨i, hi, rfl⟩ := List.mem_map.1 hr
    exact hall _ (State.shardRegion_mem_shardRegions (hlt i hi))
  · obtain ⟨i, hi, hhas⟩ := State.shardRegion_has_of_mem_shardCells hc
    exact ⟨_, List.mem_map_of_mem hi, hhas⟩

/-- The effect of a storing command is a store into its write regions. -/
theorem storesInto_of_effect {s t : State} {i : Instr} (hi : isStoring i = true) (h : Effect s i t) :
    StoresInto s (writeRegions s i) t := by
  cases i with
  | matMul =>
    obtain ⟨-, hall, -, -, rfl⟩ := h
    exact storesInto_matCells _ fun r hr => hall r (by simp_all [State.mulC])
  | matInv =>
    obtain ⟨-, hall, -, X, -, rfl⟩ := h
    exact storesInto_matCells _ fun r hr => hall r (by simp_all [State.invC])
  | ctxGenstore =>
    obtain ⟨-, hall, rfl⟩ := h
    exact storesInto_matCells _ hall
  | rsEncode =>
    obtain ⟨-, -, hall, -, -, rfl⟩ := h
    have hstore := storesInto_shardCells (shards := (List.range s.M).map (s.K + ·)) (fun i j => s.parity (i - s.K) j) hall
      (by simp)
    rwa [List.map_map] at hstore
  | rsReconstruct =>
    obtain ⟨-, -, hall, -, hend⟩ := h
    have hlt : ∀ i ∈ s.erasedShards, i < s.K + s.M := fun i hmem => (State.mem_erasedShards.1 hmem).1
    rcases hend with ⟨-, rfl⟩ | ⟨-, Sinv, -, -, -, rfl⟩
    · exact ⟨(storesInto_shardCells (fun _ _ => 0) hall hlt).1, [], rfl, by simp⟩
    · exact storesInto_shardCells _ hall hlt
  | init | gfAdd | gfMul | gfDiv | gfInv | gfExp | gfLog | ctxCreate | ctxRelease => cases hi

/-- A store inside regions leaves the bytes outside them alone. -/
theorem StoresInto.byte?_other {s t : State} {rs : List Region} (h : StoresInto s rs t) {a : Nat}
    (ha : ∀ r ∈ rs, ¬(r.base ≤ a ∧ a < r.base + r.len)) : Memory.byte? t.dmem a = Memory.byte? s.dmem a := by
  obtain ⟨-, cs, rfl, hcs⟩ := h
  refine Memory.byte?_setAll_other cs s.dmem fun c hc e => ?_
  obtain ⟨r, hr, hhas⟩ := hcs c hc
  exact ha r hr ((Region.has_iff r a).1 (e ▸ hhas))

end Machine
end Sys2Proof
end

section
/-! The invariant (10_state.md, 20_memory.md R50, 42_codec_context.md R134-R136, 70_reset_and_hazards.md R190): each
operation of the step keeps it, and so does the step. -/
namespace Sys2Proof
namespace Machine

open Claims Safety

/-! ## Updates of single fields -/

/-- The schedule is no part of the invariant. -/
theorem inv_withEvents {s : State} (h : Inv s) (es : List Event) : Inv { s with events := es } :=
  ⟨h.build, h.memory, h.handshake, h.error, h.tables, h.context, h.resetPin⟩

theorem inv_respond {s : State} (h : Inv s) (r : BusResponse) : Inv (s.respond r) :=
  ⟨h.build, h.memory, h.handshake, h.error, h.tables, h.context, h.resetPin⟩

theorem inv_releaseReset {s : State} (h : Inv s) : Inv s.releaseReset :=
  ⟨h.build, h.memory, h.handshake, h.error, h.tables, h.context, nofun⟩

theorem resetOk_of_released {s : State} (h : s.rst = false) : ResetOk s := fun hr => absurd hr (by simp [h])

/-- Only an idle core is under reset. -/
theorem rst_of_runCmd {s : State} {w : Word} (h : Inv s) (hw : s.runCmd = some w) : s.rst = false := by
  by_contra hr
  have hidle := (h.resetPin (by simpa using hr)).1
  rw [hw] at hidle
  cases hidle

/-- Stored bytes inside DMEM keep the invariant. -/
theorem inv_store {s : State} (h : Inv s) {cs : List Host.Cell} (hcs : ∀ c ∈ cs, c.1 < s.build.memBytes) :
    Inv (s.store cs) := by
  obtain ⟨hwf, hinside⟩ := h.memory
  exact ⟨h.build, ⟨Memory.wf_setAll cs hwf, Memory.inside_setAll cs hcs hinside⟩, h.handshake, h.error, h.tables,
    h.context, h.resetPin⟩

theorem inv_of_storesInto {s t : State} {rs : List Region} (h : Inv s) (hst : StoresInto s rs t) : Inv t := by
  obtain ⟨hall, cs, rfl, hcs⟩ := hst
  refine inv_store h fun c hc => ?_
  obtain ⟨r, hr, hhas⟩ := hcs c hc
  have hrange := hall r hr
  have hlt := ((Region.has_iff r c.1).1 hhas).2
  omega

theorem inv_setResult {s : State} (h : Inv s) (v : Byte) : Inv (s.setResult v) :=
  ⟨h.build, h.memory, h.handshake, h.error, h.tables, h.context, h.resetPin⟩

/-! ## The host's CSR writes (10_state.md R22-R37) -/

section
variable {s : State} (h : Inv s) (hrst : s.rst = false)
include h hrst

theorem inv_dropWrite : Inv s.dropWrite :=
  ⟨h.build, h.memory, h.handshake, h.error, h.tables, h.context, resetOk_of_released hrst⟩

/-- An acknowledgement only clears DONE and OVERRUN (R27). -/
theorem inv_acknowledge (v : Word) : Inv (s.acknowledge v) := by
  obtain ⟨hbusy, hrunning⟩ := h.handshake
  refine ⟨h.build, h.memory, ⟨hbusy, fun hb => ?_⟩, h.error, h.tables, h.context, resetOk_of_released hrst⟩
  obtain ⟨hdone, herr⟩ := hrunning hb
  exact ⟨by simp [hdone], herr⟩

theorem inv_accept (w : Word) : Inv (s.accept w) :=
  ⟨h.build, h.memory, ⟨rfl, fun _ => ⟨rfl, rfl⟩⟩, ⟨by simp, by simp⟩, h.tables, h.context, resetOk_of_released hrst⟩

theorem inv_writeCmd (w : Word) : Inv (s.writeCmd w) := by
  unfold State.writeCmd
  split
  · exact inv_dropWrite h hrst
  · exact inv_accept h hrst w

theorem inv_lockedWrite {t : State} (ht : Inv t) : Inv (s.lockedWrite t) := by
  unfold State.lockedWrite
  split
  · exact inv_dropWrite h hrst
  · exact ht

theorem inv_csrStore (v : Word) (r : Csr) : Inv (s.csrStore v r) := by
  cases r with
  | id | param | result | ctx => exact h
  | ctrl => exact ⟨h.build, h.memory, h.handshake, h.error, h.tables, h.context, resetOk_of_released hrst⟩
  | status => exact inv_acknowledge h hrst v
  | cmd => exact inv_writeCmd h hrst v
  | blockSize | maBase | mbBase | mcBase | dimA | dimB | erase | shardBase =>
    exact inv_lockedWrite h hrst ⟨h.build, h.memory, h.handshake, h.error, h.tables, h.context, h.resetPin⟩

/-! ## Completion (60_exceptions.md R175) -/

theorem inv_complete {c : ErrCode} {k : ErrCause} (hk : k ≠ .noCause → c = .reconstructionImpossible) :
    Inv (s.complete c k) :=
  ⟨h.build, h.memory, ⟨rfl, nofun⟩, ⟨by simp, hk⟩, h.tables, h.context, resetOk_of_released hrst⟩

/-- The first INIT fills the tables; there is no context yet (40_field_arithmetic.md R99). -/
theorem inv_initialized (hinit : s.status.initDone = false) :
    Inv { s with tables := initTables s.build.gfPoly, status := { s.status with initDone := true } } := by
  obtain ⟨hlive, hnone⟩ := h.context
  have hv : s.status.ctxValid = false := by
    by_contra hv
    simp [(hlive (by simpa using hv)).1] at hinit
  exact ⟨h.build, h.memory, h.handshake, h.error, fun _ => rfl, ⟨fun hv' => absurd hv' (by simp [hv]), hnone⟩,
    resetOk_of_released hrst⟩

/-- CTX.CREATE stores the matrix built from the tables of INIT (42_codec_context.md R134). -/
theorem inv_withNewContext {k m : Byte} (hinit : s.status.initDone = true) (hkm : legalShape k m = true) :
    Inv (s.withNewContext k m) := by
  have hgen : (s.withNewContext k m).gen = buildGen (initTables s.build.gfPoly) k.toNat m.toNat := by
    rw [State.withNewContext_gen, h.tables hinit]
  exact ⟨h.build, h.memory, h.handshake, h.error, h.tables, ⟨fun _ => ⟨hinit, hkm, hgen⟩, nofun⟩,
    resetOk_of_released hrst⟩

theorem inv_withoutContext : Inv s.withoutContext :=
  ⟨h.build, h.memory, h.handshake, h.error, h.tables, ⟨nofun, fun _ => ⟨rfl, rfl, rfl⟩⟩,
    resetOk_of_released hrst⟩

/-- A command's effect keeps the invariant. -/
theorem inv_effect {i : Instr} {t : State} (hinit : i ≠ .init → s.status.initDone = true) (heff : Effect s i t) :
    Inv t := by
  cases i with
  | init =>
    obtain rfl : t = _ := heff
    split
    · exact h
    · exact inv_initialized h hrst (by simp_all)
  | gfAdd | gfMul | gfExp =>
    obtain rfl : t = _ := heff
    exact inv_setResult h _
  | gfDiv | gfInv =>
    obtain ⟨q, -, rfl⟩ := heff
    exact inv_setResult h _
  | gfLog =>
    obtain ⟨-, rfl⟩ := heff
    exact inv_setResult h _
  | ctxCreate =>
    obtain ⟨-, hkm, rfl⟩ := heff
    exact inv_withNewContext h hrst (hinit (by simp)) hkm
  | ctxRelease =>
    obtain ⟨-, rfl⟩ := heff
    exact inv_withoutContext h hrst
  | matMul | matInv | ctxGenstore | rsEncode | rsReconstruct =>
    exact inv_of_storesInto h (storesInto_of_effect rfl heff)

theorem inv_of_exec {i : Instr} {t : State} (hexec : exec i s = .next t) : Inv t := by
  rcases exec_next_cases hexec with ⟨c, k, -, hk, rfl⟩ | ⟨hinit, t0, heff, rfl⟩
  · exact inv_complete h hrst hk
  · refine inv_complete (inv_effect h hrst hinit heff) ?_ (by simp)
    obtain ⟨-, -, -, -, -, -, -, -, -, -, hsame, -⟩ := sameOperands_of_effect heff
    exact hsame.trans hrst

end

/-! ## The core's turn and the host's accesses -/

theorem inv_of_completeRunning {s t : State} (h : Inv s) (hrun : completeRunning s = .next t) : Inv t := by
  rcases completeRunning_next_cases hrun with ⟨-, rfl⟩ | ⟨w, hw, -, rfl⟩ | ⟨i, hi, hexec⟩
  · exact h
  · exact inv_complete h (rst_of_runCmd h hw) (by simp)
  · obtain ⟨w, hw, -⟩ := State.running_eq_some.1 hi
    exact inv_of_exec h (rst_of_runCmd h hw) hexec

theorem inv_hostCsrRead {s : State} (h : Inv s) (off : BitVec 12) (n : Nat) : Inv (hostCsrRead off n s) := by
  unfold hostCsrRead
  split_ifs <;> exact inv_respond h _

theorem inv_hostCsrWrite {s : State} (h : Inv s) (off : BitVec 12) (n : Nat) (v : Word) :
    Inv (hostCsrWrite off n v s) := by
  unfold hostCsrWrite
  split_ifs with hrst
  · exact inv_respond h _
  · cases csrAt off.toNat with
    | none => exact inv_respond h _
    | some r => exact inv_respond (inv_csrStore h (by simpa using hrst) v r) _
  · exact inv_respond h _

theorem inv_of_hostMemRead {s t : State} {a n : Nat} (h : Inv s) (hread : hostMemRead a n s = .next t) : Inv t := by
  unfold hostMemRead at hread
  split_ifs at hread
  · cases hread
    exact ⟨h.build, h.memory, h.handshake, h.error, h.tables, h.context, h.resetPin⟩
  · cases hread
    exact inv_respond h _

theorem inv_of_hostMemWrite {s t : State} {a n : Nat} {v : Word} (h : Inv s) (hwrite : hostMemWrite a n v s = .next t) :
    Inv t := by
  unfold hostMemWrite at hwrite
  split_ifs at hwrite with hlegal
  · cases hwrite
    obtain ⟨-, -, hrange⟩ := memAccessLegal_iff.1 hlegal
    refine inv_respond (inv_store h fun c hc => ?_) _
    obtain ⟨i, hi, rfl⟩ := mem_hostCells.1 hc
    show a + i < s.build.memBytes
    omega
  · cases hwrite
    exact inv_respond h _

theorem inv_of_hostAccess {s t : State} {x : HostAccess} (h : Inv s) (hx : hostAccess x s = .next t) : Inv t := by
  cases x with
  | csrRead off n => cases hx; exact inv_hostCsrRead h off n
  | csrWrite off n v => cases hx; exact inv_hostCsrWrite h off n v
  | memRead a n => exact inv_of_hostMemRead h hx
  | memWrite a n v => exact inv_of_hostMemWrite h hx

theorem inv_of_busAccess {s t : State} {x : BusAccess} (h : Inv s) (hx : busAccess x s = .next t) : Inv t := by
  rcases busAccess_cases x s with ⟨y, -, hy⟩ | ⟨-, hnone⟩
  · exact inv_of_hostAccess h (hy ▸ hx)
  · rw [hnone] at hx
    cases hx
    exact inv_respond h _

/-! ## Reset (70_reset_and_hazards.md R190, R191) -/

theorem memoryOk_foldl_forget (rs : List Region) {m : Memory} {n : Nat} (hwf : Memory.wf m = true)
    (hin : Memory.inside m n = true) :
    Memory.wf (rs.foldl Memory.forget m) = true ∧ Memory.inside (rs.foldl Memory.forget m) n = true := by
  induction rs generalizing m with
  | nil => exact ⟨hwf, hin⟩
  | cons r rs ih => exact ih (Memory.wf_forget r hwf) (Memory.inside_forget r hin)

theorem inv_assertReset {s : State} (h : Inv s) : Inv s.assertReset := by
  obtain ⟨hwf, hin⟩ := h.memory
  exact ⟨h.build, memoryOk_foldl_forget _ hwf hin, ⟨rfl, nofun⟩, ⟨by simp [Status.reset], by simp [Status.reset]⟩,
    nofun, ⟨nofun, fun _ => ⟨rfl, rfl, rfl⟩⟩, fun _ => ⟨rfl, rfl, rfl⟩⟩

/-! ## Events and steps -/

theorem inv_of_stepEvent {s t : State} {e : Event} (h : Inv s) (he : stepEvent e s = .next t) : Inv t := by
  cases e with
  | host x => exact inv_of_hostAccess h he
  | bus x => exact inv_of_busAccess h he
  | complete => exact inv_of_completeRunning h he
  | cmdWriteAtCompletion w =>
    obtain ⟨u, hu, rfl⟩ := stepEvent_cmdWriteAtCompletion_next he
    exact inv_hostCsrWrite (inv_of_completeRunning h hu) _ _ _
  | assertReset => cases he; exact inv_assertReset h
  | releaseReset => cases he; exact inv_releaseReset h

theorem inv_reset : Inv State.reset :=
  ⟨by decide, ⟨rfl, rfl⟩, ⟨rfl, nofun⟩, ⟨by decide, by decide⟩, nofun,
    ⟨nofun, fun _ => ⟨rfl, rfl, rfl⟩⟩, nofun⟩

end Machine

namespace Proofs

open Machine Safety

/-- Settles O51: the core's own turn and every event keep the invariant, and the schedule is no part of it. -/
theorem everyStepKeepsInv : Obligations.EveryStepKeepsInv := by
  intro s t h hstep
  rcases step_next_cases hstep with ⟨-, hrun⟩ | ⟨e, es, -, hev⟩
  · exact inv_of_completeRunning h hrun
  · exact inv_of_stepEvent (inv_withEvents h es) hev

/-- Settles O50: no command, no tables and no context are left to be agreed with. -/
theorem invHoldsAtReset : Obligations.InvHoldsAtReset := inv_reset

end Proofs
end Sys2Proof
end

section
/-! The carry-less product (40_field_arithmetic.md R104) is linear, and multiplying by `ALPHA` is `xtime` (R92): a product
is the sum of the `xtime` powers of one factor that the bits of the other select. -/
namespace Sys2Proof
namespace Machine

/-! ## Linearity -/

/-- A word taken or not: the choice is linear in the condition. -/
theorem select_xor {n : Nat} (a b : Bool) (p : BitVec n) :
    (if (a ^^ b) = true then p else 0) = (if a = true then p else 0) ^^^ (if b = true then p else 0) := by
  cases a <;> cases b <;> simp

theorem xtime_xor (p : BitVec 9) (a b : Byte) : xtime p (a ^^^ b) = xtime p a ^^^ xtime p b := by
  simp only [xtime, BitVec.getLsbD_xor, select_xor, BitVec.setWidth_xor, BitVec.shiftLeft_xor_distrib]
  ac_rfl

@[simp] theorem xtime_zero (p : BitVec 9) : xtime p 0#8 = 0#8 := by simp [xtime]

@[simp] theorem iterate_xtime_zero (p : BitVec 9) (n : Nat) : (xtime p)^[n] 0#8 = 0#8 :=
  Function.iterate_fixed (xtime_zero p) n

theorem xtime_xorSum (p : BitVec 9) (n : Nat) (f : Nat → Byte) : xtime p (xorSum n f) = xorSum n fun i => xtime p (f i) := by
  induction n with
  | zero => exact xtime_zero p
  | succ n ih => simp only [xorSum, xtime_xor, ih]

theorem clreduce_xor (p : BitVec 9) (n : Nat) (r q : BitVec 16) :
    clreduce p n (r ^^^ q) = clreduce p n r ^^^ clreduce p n q := by
  induction n generalizing r q with
  | zero => rfl
  | succ n ih =>
    simp only [clreduce, BitVec.getLsbD_xor, select_xor, ← ih]
    congr 1
    ac_rfl

/-! ## Reduction of a shifted word -/

/-- A word with no bit above 7 is reduced already. -/
theorem clreduce_setWidth (p : BitVec 9) (n : Nat) (a : Byte) : clreduce p n (a.setWidth 16) = a.setWidth 16 := by
  induction n with
  | zero => rfl
  | succ n ih => simp [clreduce, ih]

/-- The reduction's lowest step is all that a shift by one adds. -/
theorem clreduce_shiftLeft_one (p : BitVec 9) {n : Nat} (hn : n < 8) (r : BitVec 16) :
    clreduce p (n + 1) (r <<< 1) = clreduce p 1 (clreduce p n r <<< 1) := by
  induction n generalizing r with
  | zero => rfl
  | succ n ih =>
    have hbit : (r <<< 1).getLsbD (8 + (n + 1)) = r.getLsbD (8 + n) := by
      have hlt : 8 + (n + 1) < 16 := by omega
      rw [BitVec.getLsbD_shiftLeft]
      simp [hlt]
    have hstep : (r <<< 1) ^^^ (if r.getLsbD (8 + n) = true then p.setWidth 16 <<< (n + 1) else 0) =
        (r ^^^ (if r.getLsbD (8 + n) = true then p.setWidth 16 <<< n else 0)) <<< 1 := by
      split <;> simp [BitVec.shiftLeft_xor_distrib, BitVec.shiftLeft_add]
    rw [clreduce, hbit, hstep, ih (by omega)]
    rfl

/-- The last step of the reduction is `xtime` on the low byte (R92, R104). -/
theorem clreduce_one_shiftLeft (p : BitVec 9) (y : BitVec 16) :
    (clreduce p 1 (y <<< 1)).setWidth 8 = xtime p (y.setWidth 8) := by
  have hbit : (y <<< 1).getLsbD 8 = (y.setWidth 8).getLsbD 7 := by simp
  simp only [clreduce, xtime, Nat.add_zero, hbit, BitVec.setWidth_xor]
  congr 1
  · apply BitVec.eq_of_getLsbD_eq
    intro i hi
    have h16 : i < 16 := by omega
    have h9 : i < 9 := by omega
    have hlow : i - 1 < 9 ∧ i - 1 < 8 := by omega
    rw [BitVec.getLsbD_setWidth, BitVec.getLsbD_setWidth, BitVec.getLsbD_shiftLeft, BitVec.getLsbD_shiftLeft]
    simp [h16, h9, hlow]
  · split
    · simp
    · simp

/-- The reduction of `a` times `ALPHA^n` is `xtime` iterated. -/
theorem clreduce_shiftLeft (p : BitVec 9) (a : Byte) {n : Nat} (hn : n < 8) :
    (clreduce p 8 (a.setWidth 16 <<< n)).setWidth 8 = (xtime p)^[n] a := by
  induction n with
  | zero => simp [clreduce_setWidth]
  | succ n ih =>
    have htop : (a.setWidth 16 <<< n).getLsbD 15 = false := by
      have hge : 8 ≤ 15 - n := by omega
      simp [BitVec.getLsbD_of_ge a _ hge]
    have hseven : clreduce p 8 (a.setWidth 16 <<< n) = clreduce p 7 (a.setWidth 16 <<< n) := by
      rw [clreduce, htop]
      simp
    rw [BitVec.shiftLeft_add, clreduce_shiftLeft_one p (by omega), clreduce_one_shiftLeft, ← hseven, ih (by omega),
      Function.iterate_succ_apply']

/-! ## The product -/

/-- The product modulo `p`, as the sum of the `xtime` powers of `a` that the bits of `b` select. -/
theorem clmulMod_eq_xorSum (p : BitVec 9) (a b : Byte) :
    clmulMod p a b = xorSum 8 fun i => if b.getLsbD i = true then (xtime p)^[i] a else 0 := by
  have hsum : ∀ n, n ≤ 8 → (clreduce p 8 (clmul a b n)).setWidth 8 =
      xorSum n fun i => if b.getLsbD i = true then (xtime p)^[i] a else 0 := by
    intro n hn
    induction n with
    | zero => simpa [clmul, xorSum] using congrArg (BitVec.setWidth 8) (clreduce_setWidth p 8 0)
    | succ n ih =>
      rw [clmul, clreduce_xor, BitVec.setWidth_xor, ih (by omega), xorSum]
      congr 1
      split
      · exact clreduce_shiftLeft p a (by omega)
      · simpa using congrArg (BitVec.setWidth 8) (clreduce_setWidth p 8 0)
  exact hsum 8 (Nat.le_refl 8)

/-- Multiplying a factor by `ALPHA` multiplies the product. -/
theorem clmulMod_xtime (p : BitVec 9) (a b : Byte) : clmulMod p (xtime p a) b = xtime p (clmulMod p a b) := by
  rw [clmulMod_eq_xorSum, clmulMod_eq_xorSum, xtime_xorSum]
  refine xorSum_congr fun i _ => ?_
  split
  · rw [← Function.iterate_succ_apply, Function.iterate_succ_apply']
  · exact (xtime_zero p).symm

theorem clmulMod_iterate_xtime (p : BitVec 9) (n : Nat) (a b : Byte) :
    clmulMod p ((xtime p)^[n] a) b = (xtime p)^[n] (clmulMod p a b) := by
  induction n with
  | zero => rfl
  | succ n ih => rw [Function.iterate_succ_apply', clmulMod_xtime, ih, Function.iterate_succ_apply']

/-- The product is additive in its second factor. -/
theorem clmulMod_xor_right (p : BitVec 9) (a b c : Byte) :
    clmulMod p a (b ^^^ c) = clmulMod p a b ^^^ clmulMod p a c := by
  simp only [clmulMod_eq_xorSum, ← xorSum_xor, BitVec.getLsbD_xor, select_xor]

@[simp] theorem clmulMod_zero_left (p : BitVec 9) (b : Byte) : clmulMod p 0#8 b = 0#8 := by
  simp [clmulMod_eq_xorSum]

@[simp] theorem clmulMod_zero_right (p : BitVec 9) (a : Byte) : clmulMod p a 0#8 = 0#8 := by
  simp [clmulMod_eq_xorSum]

/-- `xtime` on bytes: a shift, reduced by the low byte of the polynomial where bit 7 was set (R92). -/
theorem xtime_eq_shift_xor (p : BitVec 9) (v : Byte) :
    xtime p v = v <<< 1 ^^^ (if v.getLsbD 7 = true then p.setWidth 8 else 0) := by
  rw [xtime, BitVec.setWidth_xor]
  congr 1
  · apply BitVec.eq_of_getLsbD_eq
    intro i hi
    simp [hi]
  · split <;> simp

/-- Without a carry out of bit 7, `xtime` is a shift. -/
theorem xtime_of_msb_false (p : BitVec 9) {v : Byte} (h : v.getLsbD 7 = false) : xtime p v = v <<< 1 := by
  rw [xtime_eq_shift_xor, h]
  simp

/-- `ALPHA^n` is bit `n` below the degree. -/
theorem iterate_xtime_one (p : BitVec 9) {n : Nat} (hn : n < 8) : (xtime p)^[n] 1#8 = 1#8 <<< n := by
  induction n with
  | zero => rfl
  | succ n ih =>
    have hbit : (1#8 <<< n).getLsbD 7 = false := by
      have hne : 7 - n ≠ 0 := by omega
      simp [hne]
    rw [Function.iterate_succ_apply', ih (by omega), xtime_of_msb_false p hbit, BitVec.shiftLeft_add]

/-- A byte is the sum of its bits. -/
theorem xorSum_bits (b : Byte) : (xorSum 8 fun i => if b.getLsbD i = true then 1#8 <<< i else 0) = b := by
  revert b
  decide +kernel

@[simp] theorem clmulMod_one_left (p : BitVec 9) (b : Byte) : clmulMod p 1#8 b = b := by
  rw [clmulMod_eq_xorSum]
  exact (xorSum_congr fun i hi => by rw [iterate_xtime_one p hi]).trans (xorSum_bits b)

/-- The product with a power of `ALPHA` is `xtime` iterated. -/
theorem clmulMod_pow_left (p : BitVec 9) (n : Nat) (b : Byte) : clmulMod p ((xtime p)^[n] 1#8) b = (xtime p)^[n] b := by
  rw [clmulMod_iterate_xtime, clmulMod_one_left]

end Machine
end Sys2Proof
end

section
/-! The powers of `ALPHA` for a legal polynomial (40_field_arithmetic.md R91-R93): 255 different non-zero bytes that close a
cycle, which the tables of INIT list both ways. -/
namespace Sys2Proof
namespace Machine

open Claims

/-! ## Primitive polynomials (R91) -/

/-- Iterating `xtime` from 1 reaches 255 different non-zero values and then returns to 1. -/
def IsPrimitive (p : BitVec 9) : Prop :=
  (∀ i j, i < 255 → j < 255 → alphaPow p i = alphaPow p j → i = j) ∧
  (∀ i, i < 255 → alphaPow p i ≠ 0) ∧ alphaPow p 255 = 1

@[simp] theorem alphaPow_zero (p : BitVec 9) : alphaPow p 0 = 1#8 := rfl

theorem alphaPow_succ (p : BitVec 9) (n : Nat) : alphaPow p (n + 1) = xtime p (alphaPow p n) :=
  Function.iterate_succ_apply' _ _ _

theorem alphaPow_add (p : BitVec 9) (m n : Nat) : alphaPow p (m + n) = (xtime p)^[m] (alphaPow p n) :=
  Function.iterate_add_apply _ _ _ _

/-- A cycle of length 255 from 1 is shortest when it does not close after 255/3, 255/5 or 255/17 steps. -/
theorem isPrimitive_iff (p : BitVec 9) :
    IsPrimitive p ↔ alphaPow p 255 = 1 ∧ alphaPow p 85 ≠ 1 ∧ alphaPow p 51 ≠ 1 ∧ alphaPow p 15 ≠ 1 := by
  constructor
  · rintro ⟨hinj, -, hclose⟩
    have hne : ∀ n, n < 255 → n ≠ 0 → alphaPow p n ≠ 1 := fun n hn h0 h1 => h0 (hinj n 0 hn (by omega) h1)
    exact ⟨hclose, hne 85 (by omega) (by omega), hne 51 (by omega) (by omega), hne 15 (by omega) (by omega)⟩
  · rintro ⟨hclose, h85, h51, h15⟩
    have hdvd : Function.minimalPeriod (xtime p) 1#8 ∣ 255 := Function.IsPeriodicPt.minimalPeriod_dvd hclose
    have hprime : ∀ q m, q.Prime → m * q = 255 → alphaPow p m ≠ 1 → q ∣ Function.minimalPeriod (xtime p) 1#8 := by
      intro q m hq hmq hne
      by_contra hndvd
      have hm : Function.minimalPeriod (xtime p) 1#8 ∣ m :=
        ((Nat.Prime.coprime_iff_not_dvd hq).2 hndvd).symm.dvd_of_dvd_mul_right (hmq ▸ hdvd)
      exact hne (Function.isPeriodicPt_iff_minimalPeriod_dvd.2 hm)
    have hperiod : Function.minimalPeriod (xtime p) 1#8 = 255 := by
      have h3 := hprime 3 85 Nat.prime_three rfl h85
      have h5 := hprime 5 51 Nat.prime_five rfl h51
      have h17 := hprime 17 15 (by norm_num) rfl h15
      have h3_5 := Nat.Coprime.mul_dvd_of_dvd_of_dvd (by norm_num) h3 h5
      exact Nat.dvd_antisymm hdvd (Nat.Coprime.mul_dvd_of_dvd_of_dvd (by norm_num) h3_5 h17)
    refine ⟨fun i j hi hj hij => ?_, fun i hi h0 => ?_, hclose⟩
    · exact Function.iterate_injOn_Iio_minimalPeriod (hperiod ▸ hi) (hperiod ▸ hj) hij
    · have hzero : alphaPow p ((255 - i) + i) = 0 := by
        rw [alphaPow_add, h0]
        exact iterate_xtime_zero p _
      rw [Nat.sub_add_cancel (by omega), hclose] at hzero
      cases hzero

/-- `xtime` on numbers, for the evaluation of R91. -/
def xtimeNat (p v : Nat) : Nat := (2 * v ^^^ v / 128 * p) % 256

theorem xtime_toNat (p : BitVec 9) (v : Byte) : (xtime p v).toNat = xtimeNat p.toNat v.toNat := by
  have hbit : v.getLsbD 7 = decide (128 ≤ v.toNat) := BitVec.msb_eq_getLsbD_last v ▸ BitVec.msb_eq_decide v
  rw [xtime_eq_shift_xor, hbit, xtimeNat, BitVec.toNat_xor, Nat.xor_mod_two_pow (n := 8)]
  congr 1
  have hlt := v.isLt
  by_cases h : 128 ≤ v.toNat
  · have hone : v.toNat / 128 = 1 := by omega
    simp [h, hone]
  · have hzero : v.toNat / 128 = 0 := by omega
    simp [h, hzero]

theorem alphaPow_toNat (p : BitVec 9) (n : Nat) : (alphaPow p n).toNat = (xtimeNat p.toNat)^[n] 1 := by
  induction n with
  | zero => rfl
  | succ n ih => rw [alphaPow_succ, xtime_toNat, ih, Function.iterate_succ_apply']

theorem alphaPow_eq_one_iff (p : BitVec 9) (n : Nat) : alphaPow p n = 1 ↔ (xtimeNat p.toNat)^[n] 1 = 1 := by
  rw [← BitVec.toNat_inj, alphaPow_toNat]
  rfl

/-- The spec's own evaluation of R91: all polynomials with bit 8 set, each with its four powers of `ALPHA`. -/
theorem legalPolys_evaluation : ∀ q, q < 256 →
    (BitVec.ofNat 9 (256 + q) ∈ Config.legalPolys ↔
      (xtimeNat (256 + q))^[255] 1 = 1 ∧ (xtimeNat (256 + q))^[85] 1 ≠ 1 ∧ (xtimeNat (256 + q))^[51] 1 ≠ 1 ∧
      (xtimeNat (256 + q))^[15] 1 ≠ 1) := by
  decide +kernel

theorem mem_legalPolys_iff {p : BitVec 9} (hp : p.getLsbD 8 = true) : p ∈ Config.legalPolys ↔ IsPrimitive p := by
  have hge : 256 ≤ p.toNat := by
    have hmsb : p.msb = decide (256 ≤ p.toNat) := BitVec.msb_eq_decide p
    rw [BitVec.msb_eq_getLsbD_last, hp] at hmsb
    simpa using hmsb.symm
  have hlt := p.isLt
  have heval := legalPolys_evaluation (p.toNat - 256) (by omega)
  rw [Nat.add_sub_cancel' hge, BitVec.ofNat_toNat, BitVec.setWidth_eq] at heval
  rw [isPrimitive_iff, heval]
  simp only [ne_eq, alphaPow_eq_one_iff]

theorem isPrimitive_of_mem {p : BitVec 9} (hp : p ∈ Config.legalPolys) : IsPrimitive p := by
  have hbit : ∀ q ∈ Config.legalPolys, q.getLsbD 8 = true := by decide +kernel
  exact (mem_legalPolys_iff (hbit p hp)).1 hp

/-! ## The cycle of powers -/

section
variable {p : BitVec 9} (hp : p ∈ Config.legalPolys)
include hp

/-- Exponents count modulo 255. -/
theorem alphaPow_mod (n : Nat) : alphaPow p (n % 255) = alphaPow p n :=
  Function.IsPeriodicPt.iterate_mod_apply (isPrimitive_of_mem hp).2.2 n

theorem alphaPow_congr {m n : Nat} (h : m % 255 = n % 255) : alphaPow p m = alphaPow p n := by
  rw [← alphaPow_mod hp m, h, alphaPow_mod hp n]

theorem alphaPow_inj {i j : Nat} (hi : i < 255) (hj : j < 255) (h : alphaPow p i = alphaPow p j) : i = j :=
  (isPrimitive_of_mem hp).1 i j hi hj h

theorem alphaPow_ne_zero (n : Nat) : alphaPow p n ≠ 0#8 := by
  rw [← alphaPow_mod hp n]
  exact (isPrimitive_of_mem hp).2.1 _ (Nat.mod_lt _ (by omega))

/-- The 255 powers are all the non-zero bytes. -/
theorem exists_alphaPow_eq {a : Byte} (ha : a ≠ 0#8) : ∃ i, i < 255 ∧ alphaPow p i = a := by
  have hmaps : Set.MapsTo (fun i => (alphaPow p i).toNat) (Finset.range 255) (Finset.Icc 1 255) := fun i _ => by
    have hpos : (alphaPow p i).toNat ≠ 0 := fun h => alphaPow_ne_zero hp i (BitVec.eq_of_toNat_eq h)
    have hlt := (alphaPow p i).isLt
    simp only [Finset.coe_Icc, Set.mem_Icc]
    omega
  have hinj : Set.InjOn (fun i => (alphaPow p i).toNat) (Finset.range 255) := fun i hi j hj hij =>
    alphaPow_inj hp (by simpa using hi) (by simpa using hj) (BitVec.eq_of_toNat_eq hij)
  have ha' : a.toNat ∈ (Finset.Icc 1 255 : Finset Nat) := by
    have hpos : a.toNat ≠ 0 := fun h => ha (BitVec.eq_of_toNat_eq h)
    have hlt := a.isLt
    simp only [Finset.mem_Icc]
    omega
  obtain ⟨i, hi, hia⟩ := Finset.surjOn_of_injOn_of_card_le _ hmaps hinj (by simp) ha'
  exact ⟨i, by simpa using hi, BitVec.eq_of_toNat_eq hia⟩

end

/-! ## The tables of INIT (R92, R93) -/

@[simp] theorem expTable_length (p : BitVec 9) : (expTable p).length = 255 := List.length_iterate _ _ _

theorem expTable_getElem (p : BitVec 9) {i : Nat} (hi : i < (expTable p).length) : (expTable p)[i] = alphaPow p i :=
  List.getElem_iterate _ _ _ _ hi

/-- `LUT_EXP` lists the powers of `ALPHA`, for every polynomial. -/
theorem initTables_expAt (p : BitVec 9) {i : Nat} (hi : i < 255) : (initTables p).expAt i = alphaPow p i := by
  have hlen : i < (expTable p).length := by rwa [expTable_length]
  rw [Tables.expAt, initTables, List.getD_eq_getElem _ _ hlen, expTable_getElem]

/-- `LUT_LOG[a]` is the place of `a` in `LUT_EXP`. -/
theorem initTables_logAt (p : BitVec 9) {a : Byte} (ha : a ≠ 0#8) :
    (initTables p).logAt a = BitVec.ofNat 8 ((expTable p).idxOf a) := by
  have hpos : a.toNat ≠ 0 := fun h => ha (BitVec.eq_of_toNat_eq h)
  have hlt := a.isLt
  have hlen : a.toNat - 1 < (logTable (expTable p)).length := by
    rw [logTable, List.length_map, List.length_range]
    omega
  rw [Tables.logAt, initTables, List.getD_eq_getElem _ _ hlen]
  simp [logTable, Nat.sub_add_cancel (Nat.pos_of_ne_zero hpos)]

section
variable {p : BitVec 9} (hp : p ∈ Config.legalPolys)
include hp

theorem expTable_nodup : (expTable p).Nodup := by
  refine List.nodup_iff_injective_getElem.2 fun i j hij => Fin.ext ?_
  simp only [expTable_getElem] at hij
  exact alphaPow_inj hp (expTable_length p ▸ i.isLt) (expTable_length p ▸ j.isLt) hij

theorem idxOf_alphaPow {i : Nat} (hi : i < 255) : (expTable p).idxOf (alphaPow p i) = i := by
  have hlen : i < (expTable p).length := by rwa [expTable_length]
  rw [← expTable_getElem p hlen]
  exact (expTable_nodup hp).idxOf_getElem i hlen

theorem logAt_alphaPow {i : Nat} (hi : i < 255) : ((initTables p).logAt (alphaPow p i)).toNat = i := by
  rw [initTables_logAt p (alphaPow_ne_zero hp i), idxOf_alphaPow hp hi, BitVec.toNat_ofNat]
  omega

theorem logAt_lt {a : Byte} (ha : a ≠ 0#8) : ((initTables p).logAt a).toNat < 255 := by
  obtain ⟨i, hi, rfl⟩ := exists_alphaPow_eq hp ha
  rwa [logAt_alphaPow hp hi]

theorem alphaPow_logAt {a : Byte} (ha : a ≠ 0#8) : alphaPow p ((initTables p).logAt a).toNat = a := by
  obtain ⟨i, hi, rfl⟩ := exists_alphaPow_eq hp ha
  rw [logAt_alphaPow hp hi]

/-- `LUT_EXP` with its index reduced, as the field functions read it. -/
theorem expAt_mod (n : Nat) : (initTables p).expAt (n % 255) = alphaPow p n := by
  rw [initTables_expAt p (Nat.mod_lt _ (by omega)), alphaPow_mod hp]

end

end Machine

namespace Proofs

open Machine Claims

/-- Settles O16: primitivity is a test of four powers of `ALPHA`, which is evaluated for every polynomial. -/
theorem legalPolynomialsArePrimitive : Obligations.LegalPolynomialsArePrimitive :=
  ⟨rfl, fun _ hbit => mem_legalPolys_iff hbit⟩

/-- Settles O17: the table lists the powers of `ALPHA`, which for a primitive polynomial are the non-zero bytes. -/
theorem expTableIsFilledByXtime : Obligations.ExpTableIsFilledByXtime := by
  refine ⟨fun p => ⟨initTables_expAt p (by omega), fun i hi => ?next⟩,
    fun p hp => ⟨fun i hi => ?nonzero, fun b hb => ?permutation, ?closes⟩⟩
  case next =>
    rw [initTables_expAt p (by omega), initTables_expAt p (by omega), alphaPow_succ]
    exact xtime_eq_shift_xor p _
  case nonzero =>
    rw [initTables_expAt p hi]
    exact alphaPow_ne_zero hp i
  case permutation =>
    obtain ⟨i, hi, rfl⟩ := exists_alphaPow_eq hp hb
    refine ⟨i, hi, initTables_expAt p hi, fun j hj hij => ?_⟩
    rw [initTables_expAt p hj] at hij
    exact alphaPow_inj hp hj hi hij
  case closes =>
    rw [initTables_expAt p (by omega), ← alphaPow_succ]
    exact (isPrimitive_of_mem hp).2.2

/-- Settles O18: the log of a byte is its place in the exponent table, where every non-zero byte stands once. -/
theorem logTableInvertsExpTable : Obligations.LogTableInvertsExpTable := by
  intro p hp
  refine ⟨fun i hi => ?_, fun a ha => ⟨logAt_lt hp ha, ?_⟩⟩
  · rw [initTables_expAt p hi, logAt_alphaPow hp hi]
  · rw [initTables_expAt p (logAt_lt hp ha), alphaPow_logAt hp ha]

end Proofs
end Sys2Proof
end

section
/-! The field functions (40_field_arithmetic.md R98, R100, R104): on powers of `ALPHA` the tables add, subtract and multiply
exponents, from which the product, the quotient, the power and the field laws follow. -/
namespace Sys2Proof
namespace Machine

open Claims

theorem gfMul_comm (t : Tables) (a b : Byte) : gfMul t a b = gfMul t b a := by
  simp only [gfMul, or_comm, Nat.add_comm]

section
variable {p : BitVec 9} (hp : p ∈ Config.legalPolys)
include hp

/-! ## The product (R98, R104) -/

/-- Products add exponents. -/
theorem gfMul_alphaPow (i j : Nat) : gfMul (initTables p) (alphaPow p i) (alphaPow p j) = alphaPow p (i + j) := by
  have hne : ¬(alphaPow p i = 0 ∨ alphaPow p j = 0) := not_or.2 ⟨alphaPow_ne_zero hp i, alphaPow_ne_zero hp j⟩
  have hlog : ∀ n, ((initTables p).logAt (alphaPow p n)).toNat = n % 255 := fun n => by
    rw [← alphaPow_mod hp n, logAt_alphaPow hp (Nat.mod_lt _ (by omega))]
  rw [gfMul, if_neg hne, hlog, hlog, expAt_mod hp]
  exact alphaPow_congr hp (by omega)

theorem eq_zero_or_alphaPow (a : Byte) : a = 0#8 ∨ ∃ i, a = alphaPow p i := by
  rcases eq_or_ne a 0#8 with rfl | ha
  · exact .inl rfl
  · obtain ⟨i, -, hi⟩ := exists_alphaPow_eq hp ha
    exact .inr ⟨i, hi.symm⟩

/-- The tables multiply as polynomials do. -/
theorem gfMul_eq_clmulMod (a b : Byte) : gfMul (initTables p) a b = clmulMod p a b := by
  rcases eq_zero_or_alphaPow hp a with rfl | ⟨i, rfl⟩
  · rw [gfMul_zero_left, clmulMod_zero_left]
  · rcases eq_zero_or_alphaPow hp b with rfl | ⟨j, rfl⟩
    · rw [gfMul_zero_right, clmulMod_zero_right]
    · rw [gfMul_alphaPow hp, alphaPow_add]
      exact (clmulMod_pow_left p i _).symm

/-! ## The laws (R100) -/

theorem gfMul_assoc (a b c : Byte) :
    gfMul (initTables p) (gfMul (initTables p) a b) c = gfMul (initTables p) a (gfMul (initTables p) b c) := by
  rcases eq_zero_or_alphaPow hp a with rfl | ⟨i, rfl⟩
  · simp only [gfMul_zero_left]
  rcases eq_zero_or_alphaPow hp b with rfl | ⟨j, rfl⟩
  · simp only [gfMul_zero_left, gfMul_zero_right]
  rcases eq_zero_or_alphaPow hp c with rfl | ⟨k, rfl⟩
  · simp only [gfMul_zero_right]
  simp only [gfMul_alphaPow hp, Nat.add_assoc]

theorem gfMul_one_left (a : Byte) : gfMul (initTables p) 1#8 a = a := by
  rw [gfMul_eq_clmulMod hp, clmulMod_one_left]

theorem gfMul_one_right (a : Byte) : gfMul (initTables p) a 1#8 = a := by
  rw [gfMul_comm _, gfMul_one_left hp]

theorem gfMul_xor_right (a b c : Byte) :
    gfMul (initTables p) a (b ^^^ c) = gfMul (initTables p) a b ^^^ gfMul (initTables p) a c := by
  simp only [gfMul_eq_clmulMod hp, clmulMod_xor_right]

/-! ## The quotient (R98) -/

/-- Quotients subtract exponents: the quotient is the byte whose product with the divisor is the dividend. -/
theorem exists_gfDiv_eq (a : Byte) {b : Byte} (hb : b ≠ 0) :
    ∃ q, gfDiv (initTables p) a b = some q ∧ gfMul (initTables p) q b = a := by
  rw [gfDiv, if_neg hb]
  split_ifs with ha
  · subst ha
    exact ⟨0, rfl, gfMul_zero_left _ b⟩
  · have hla := logAt_lt hp ha
    have hlb := logAt_lt hp hb
    refine ⟨_, rfl, ?_⟩
    rw [initTables_expAt p (by omega)]
    conv_lhs => rw [← alphaPow_logAt hp hb, gfMul_alphaPow hp, alphaPow_logAt hp hb]
    exact (alphaPow_congr hp (by omega)).trans (alphaPow_logAt hp ha)

theorem exists_gfInv_eq {b : Byte} (hb : b ≠ 0) :
    ∃ q, gfInv (initTables p) b = some q ∧ gfMul (initTables p) q b = 1 :=
  exists_gfDiv_eq hp 1 hb

/-- A quotient is the product with the inverse. -/
theorem gfDiv_eq_gfMul (a : Byte) {b q : Byte} (hb : b ≠ 0) (hq : gfMul (initTables p) q b = 1) :
    gfDiv (initTables p) a b = some (gfMul (initTables p) a q) := by
  obtain ⟨r, hr, rfl⟩ := exists_gfDiv_eq hp a hb
  rw [hr, gfMul_assoc hp, gfMul_comm _ b, hq]
  exact congrArg some (gfMul_one_right hp r).symm

/-! ## The power (R98) -/

theorem gfPow_succ (x : Byte) (c : Nat) :
    gfPow (initTables p) x (c + 1) = gfMul (initTables p) x (gfPow (initTables p) x c) := by
  rcases eq_or_ne x 0 with rfl | hx
  · simp [gfPow]
  · rcases Nat.eq_zero_or_pos c with rfl | hc
    · rw [gfPow, if_neg (by omega), if_neg hx, Nat.mul_one, expAt_mod hp, alphaPow_logAt hp hx]
      exact (gfMul_one_right hp x).symm
    · have hpow : ∀ n, 0 < n →
          gfPow (initTables p) x n = alphaPow p (((initTables p).logAt x).toNat * n) := fun n hn => by
        rw [gfPow, if_neg (by omega), if_neg hx, expAt_mod hp]
      rw [hpow _ (by omega), hpow _ hc]
      conv_rhs => rw [← alphaPow_logAt hp hx, gfMul_alphaPow hp, alphaPow_logAt hp hx]
      congr 1
      rw [Nat.mul_succ, Nat.add_comm]

end

/-! ## How a command ends (60_exceptions.md R172-R175) -/

theorem State.complete_noError (s : State) : s.complete .noError .noCause = withSuccess s := rfl

/-- A command behind the NotInitialized check that succeeds (R173, R175). -/
theorem exec_of_success {s t : State} {i : Instr} (hi : i ≠ .init) (hinit : s.status.initDone = true)
    (h : bodyOf s i = .success t) : exec i s = .next (withSuccess t) := by
  rw [exec_of_ne_init hi, State.afterInit_of_init hinit, h, State.finish_success, State.complete_noError]

/-- A command behind the NotInitialized check that reports an error (R172, R173). -/
theorem exec_of_error {s : State} {i : Instr} {c : ErrCode} {k : ErrCause} (hi : i ≠ .init)
    (hinit : s.status.initDone = true) (h : bodyOf s i = .error c k) : exec i s = .next (withError s c k) := by
  rw [exec_of_ne_init hi, State.afterInit_of_init hinit, h, State.finish_error,
    State.complete_eq_withError s (bodyOf_errorsOk s i c k h).1]

/-- A command behind the NotInitialized check that ends in a model fault. -/
theorem exec_of_modelFault {s : State} {i : Instr} {f : Fault} (hi : i ≠ .init) (hinit : s.status.initDone = true)
    (h : bodyOf s i = .modelFault f) : exec i s = .fault f := by
  rw [exec_of_ne_init hi, State.afterInit_of_init hinit, h, State.finish_modelFault]

/-- A command that stores a byte in RESULT. -/
theorem exec_of_setResult {s : State} {i : Instr} {v : Byte} (hi : i ≠ .init) (hinit : s.status.initDone = true)
    (h : bodyOf s i = .success (s.setResult v)) : exec i s = .next (withResult s v) :=
  exec_of_success hi hinit h

end Machine

namespace Proofs

open Machine Claims

/-- Settles O19: both products of powers of `ALPHA` iterate `xtime`. -/
theorem tableProductIsCarrylessProduct : Obligations.TableProductIsCarrylessProduct :=
  fun _ hp => gfMul_eq_clmulMod hp

/-- Settles O20: associativity adds exponents, distributivity comes from the carry-less product. -/
theorem fieldLawsHold : Obligations.FieldLawsHold := by
  intro p hp a b c
  refine ⟨gfMul_comm _ a b, gfMul_assoc hp a b c, gfMul_one_left hp a, gfMul_zero_right _ a,
    gfMul_xor_right hp a b c, fun hb => ?_⟩
  obtain ⟨q, hq, hqb⟩ := exists_gfInv_eq hp hb
  exact ⟨q, hq, gfMul_comm _ b q ▸ hqb, gfDiv_eq_gfMul hp a hb hqb⟩

/-- Settles O21: INIT's one ending, with and without tables. -/
theorem initFillsTablesOnce : Obligations.InitFillsTablesOnce := by
  intro s
  refine ⟨fun hinit => ?_, fun hinit => ?_⟩ <;> rw [exec_init, bodyOf, hinit] <;> rfl

/-- Settles O15: the prologue's check comes before the body. -/
theorem commandsNeedInit : Obligations.CommandsNeedInit := by
  intro i s hi hinit
  rw [exec_of_ne_init hi, State.afterInit_of_not_init hinit, State.complete_eq_withError s (by simp)]

/-- Settles O23: the body stores the XOR. -/
theorem gfAddStoresXor : Obligations.GfAddStoresXor :=
  fun _ _ _ hinit => exec_of_setResult (by simp) hinit rfl

/-- Settles O24: the body stores the tables' product, which is the polynomials' product. -/
theorem gfMulStoresProduct : Obligations.GfMulStoresProduct := by
  rintro s a b ⟨hinit, hp, htables⟩
  rw [← gfMul_eq_clmulMod hp, ← htables]
  exact exec_of_setResult (by simp) hinit rfl

/-- Settles O25: the quotient exists unless the divisor is zero. -/
theorem gfDivAndInvStoreQuotient : Obligations.GfDivAndInvStoreQuotient := by
  rintro s a b ⟨hinit, hp, htables⟩
  refine ⟨?zero, fun hb => ?div, fun hb => ?inv⟩
  case zero =>
    rintro rfl
    exact ⟨exec_of_error (by simp) hinit rfl, exec_of_error (by simp) hinit rfl⟩
  case div =>
    obtain ⟨q, hq, hqb⟩ := exists_gfDiv_eq hp a hb
    rw [gfMul_eq_clmulMod hp] at hqb
    exact ⟨q, hqb, exec_of_setResult (by simp) hinit (by rw [bodyOf, htables, hq]; rfl)⟩
  case inv =>
    obtain ⟨q, hq, hqb⟩ := exists_gfInv_eq hp hb
    rw [gfMul_eq_clmulMod hp] at hqb
    exact ⟨q, hqb, exec_of_setResult (by simp) hinit (by rw [bodyOf, htables, hq]; rfl)⟩

/-- Settles O26: the exponent table lists the powers, and the log of a non-zero byte is its exponent. -/
theorem gfExpAndLogAreInverse : Obligations.GfExpAndLogAreInverse := by
  rintro s a ⟨hinit, hp, htables⟩
  refine ⟨?exp, ?zero, fun ha => ?log⟩
  case exp =>
    rw [← expAt_mod hp, ← htables]
    exact exec_of_setResult (by simp) hinit rfl
  case zero =>
    rintro rfl
    exact exec_of_error (by simp) hinit rfl
  case log =>
    refine ⟨s.tables.logAt a, ?_, ?_, exec_of_setResult (by simp) hinit (if_neg ha)⟩
    · have hlt := logAt_lt hp ha
      rw [htables]
      omega
    · rw [htables, alphaPow_logAt hp ha]

end Proofs
end Sys2Proof
end

section
/-! The field of 256 elements (40_field_arithmetic.md R100) as a Mathlib field, for the linear algebra of the matrix engine and
the generator: the bytes with the tables' operations are a model of it. -/
namespace Sys2Proof
namespace Machine

open Claims

/-! ## Bytes as field elements -/

/-- `e` reads the bytes as elements of a field whose product is the product of the tables `t`. -/
structure FieldModel (t : Tables) {F : Type} [Field F] (e : Byte → F) : Prop where
  inj : Function.Injective e
  zero : e 0#8 = 0
  one : e 1#8 = 1
  xor : ∀ a b, e (a ^^^ b) = e a + e b
  mul : ∀ a b, e (gfMul t a b) = e a * e b
  pow : ∀ x c, e (gfPow t x c) = e x ^ c
  inv : ∀ a, a ≠ 0#8 → ∃ f, gfDiv t 1 a = some f ∧ e f * e a = 1

/-- The bytes as a type of their own, since the ring operations of `BitVec` are those of the integers modulo 256. -/
def Gf (_ : BitVec 9) : Type := Byte

theorem gfMul_getD_gfInv {p : BitVec 9} (hp : p ∈ Config.legalPolys) {a : Byte} (ha : a ≠ 0) :
    gfMul (initTables p) a ((gfInv (initTables p) a).getD 0#8) = 1#8 := by
  obtain ⟨q, hq, hqa⟩ := exists_gfInv_eq hp ha
  rw [hq, gfMul_comm]
  exact hqa

/-- The field of a legal polynomial (R98, R100). -/
@[reducible] def Gf.field {p : BitVec 9} (hp : p ∈ Config.legalPolys) : Field (Gf p) :=
  letI : Add (Gf p) := ⟨gfAdd⟩
  letI : Mul (Gf p) := ⟨gfMul (initTables p)⟩
  letI : Neg (Gf p) := ⟨id⟩
  letI : Inv (Gf p) := ⟨fun a => (gfInv (initTables p) a).getD 0#8⟩
  letI : Zero (Gf p) := ⟨0#8⟩
  letI : One (Gf p) := ⟨1#8⟩
  Field.ofMinimalAxioms (Gf p) BitVec.xor_assoc (fun _ => BitVec.zero_xor) (fun _ => BitVec.xor_self) (gfMul_assoc hp)
    (gfMul_comm _) (gfMul_one_left hp) (fun _ => gfMul_getD_gfInv hp) rfl (gfMul_xor_right hp)
    ⟨0#8, 1#8, show (0#8 : Byte) ≠ 1#8 by decide⟩

theorem exists_fieldModel {p : BitVec 9} (hp : p ∈ Config.legalPolys) :
    ∃ (F : Type) (_ : Field F) (e : Byte → F), FieldModel (initTables p) e := by
  let _ := Gf.field hp
  have hpow : ∀ (x : Gf p) (c : Nat), x ^ c = gfPow (initTables p) x c := by
    intro x c
    induction c with
    | zero => exact pow_zero x
    | succ c ih => exact (pow_succ' x c).trans ((congrArg (x * ·) ih).trans (gfPow_succ hp x c).symm)
  exact ⟨Gf p, inferInstance, fun a => a,
    { inj := fun _ _ h => h
      zero := rfl
      one := rfl
      xor := fun _ _ => rfl
      mul := fun _ _ => rfl
      pow := fun x c => (hpow x c).symm
      inv := fun a ha => exists_gfDiv_eq hp 1 ha }⟩

section
variable {t : Tables} {F : Type} [Field F] {e : Byte → F} (he : FieldModel t e)
include he

/-- Every element is its own negative. -/
theorem FieldModel.add_self (a : Byte) : e a + e a = 0 := by
  rw [← he.xor, BitVec.xor_self, he.zero]

theorem FieldModel.gfMul_one (a : Byte) : gfMul t a 1#8 = a :=
  he.inj (by rw [he.mul, he.one, mul_one])

theorem FieldModel.map_xorSum (n : Nat) (f : Nat → Byte) : e (xorSum n f) = ∑ i ∈ Finset.range n, e (f i) := by
  induction n with
  | zero => exact he.zero
  | succ n ih => rw [xorSum, he.xor, ih, Finset.sum_range_succ]

theorem FieldModel.map_delta (r c : Nat) : e (delta r c) = if r = c then 1 else 0 := by
  unfold delta
  split
  · exact he.one
  · exact he.zero

/-! ## Matrices over the field -/

end

/-- The `n x n` matrix of field elements whose bytes are `A r c`. -/
def entries {F : Type} (e : Byte → F) (n : Nat) (A : Nat → Nat → Byte) : Matrix (Fin n) (Fin n) F :=
  Matrix.of fun i j => e (A i j)

@[simp] theorem entries_apply {F : Type} (e : Byte → F) {n : Nat} (A : Nat → Nat → Byte) (i j : Fin n) :
    entries e n A i j = e (A i j) := rfl

theorem entries_congr {F : Type} (e : Byte → F) {n : Nat} {A B : Nat → Nat → Byte}
    (h : ∀ i j, i < n → j < n → A i j = B i j) : entries e n A = entries e n B := by
  ext i j
  simp [h i j i.isLt j.isLt]

section
variable {t : Tables} {F : Type} [Field F] {e : Byte → F} (he : FieldModel t e)
include he

theorem entries_mul (n : Nat) (A B : Nat → Nat → Byte) : entries e n A * entries e n B = entries e n (dot t n A B) := by
  ext i j
  rw [Matrix.mul_apply, entries_apply, dot, he.map_xorSum, ← Fin.sum_univ_eq_sum_range]
  exact Finset.sum_congr rfl fun x _ => (he.mul _ _).symm

theorem entries_delta (n : Nat) : entries e n delta = 1 := by
  ext i j
  simp [he.map_delta, Matrix.one_apply, Fin.ext_iff]

/-- `A X = I` as an equation of matrices (41_matrix_engine.md R114). -/
theorem productIsIdentity_iff {n : Nat} {A X : Nat → Nat → Byte} :
    ProductIsIdentity t n A X ↔ entries e n A * entries e n X = 1 := by
  rw [entries_mul he, ← entries_delta he n]
  constructor
  · exact fun h => entries_congr e h
  · intro h i j hi hj
    exact he.inj (congrFun (congrFun h ⟨i, hi⟩) ⟨j, hj⟩)

end

end Machine
end Sys2Proof
end

section
/-! Gauss-Jordan elimination (41_matrix_engine.md R113). Each pass keeps the solutions of the augmented system and makes one
more column a column of the identity; so a finished run has solved `A X = I`, and a run without a pivot has found a kernel. -/
namespace Sys2Proof
namespace Machine

open Claims

/-! ## Shapes and entries -/

/-- The matrix has `R` rows of `C` entries. -/
def Mat.HasShape (W : Mat) (R C : Nat) : Prop := W.length = R ∧ ∀ r, r < R → (Mat.row W r).length = C

theorem Mat.hasShape_of (R C : Nat) (f : Nat → Nat → Byte) : Mat.HasShape (Mat.of R C f) R C :=
  ⟨Mat.length_of R C f, fun r hr => by simp [Mat.row_of f hr]⟩

theorem Mat.row_set {W : Mat} {p : Nat} (hp : p < W.length) (x : List Byte) (r : Nat) :
    Mat.row (List.set W p x) r = if r = p then x else Mat.row W r := by
  unfold Mat.row
  rw [List.getD_eq_getElem?_getD, List.getElem?_set]
  by_cases h : r = p
  · simp [h, hp]
  · simp [h, Ne.symm h]

theorem Mat.row_gjSwap {W : Mat} {p q : Nat} (hp : p < W.length) (hq : q < W.length) (r : Nat) :
    Mat.row (gjSwap W p q) r = Mat.row W (if r = q then p else if r = p then q else r) := by
  rw [gjSwap, Mat.row_set (by simpa using hq), Mat.row_set hp]
  split_ifs <;> rfl

theorem Mat.row_gjScale (t : Tables) (f : Byte) {W : Mat} {col : Nat} (hcol : col < W.length) (r : Nat) :
    Mat.row (gjScale t f W col) r = if r = col then (Mat.row W r).map (gfMul t f) else Mat.row W r := by
  rw [gjScale, Mat.row_set hcol]
  split_ifs with h
  · rw [h]
  · rfl

theorem Mat.row_gjEliminate (t : Tables) {W : Mat} {n r : Nat} (col : Nat) (hr : r < n) :
    Mat.row (gjEliminate t W n col) r =
      if r = col ∨ Mat.at W r col = 0 then Mat.row W r
      else List.zipWith (fun x y => x ^^^ gfMul t (Mat.at W r col) y) (Mat.row W r) (Mat.row W col) := by
  simp [Mat.row, Mat.at, gjEliminate, List.getD_eq_getElem?_getD, hr]

section
variable {W : Mat} {n m : Nat} (h : Mat.HasShape W n m)
include h

theorem Mat.hasShape_gjSwap {p q : Nat} (hp : p < n) (hq : q < n) : Mat.HasShape (gjSwap W p q) n m := by
  obtain ⟨hlen, hrow⟩ := h
  refine ⟨by simpa [gjSwap] using hlen, fun r hr => ?_⟩
  rw [Mat.row_gjSwap (hlen ▸ hp) (hlen ▸ hq)]
  exact hrow _ (by split_ifs <;> assumption)

theorem Mat.hasShape_gjScale (t : Tables) (f : Byte) {col : Nat} (hcol : col < n) :
    Mat.HasShape (gjScale t f W col) n m := by
  obtain ⟨hlen, hrow⟩ := h
  refine ⟨by simpa [gjScale] using hlen, fun r hr => ?_⟩
  rw [Mat.row_gjScale t f (hlen ▸ hcol)]
  split_ifs
  · rw [List.length_map, hrow r hr]
  · exact hrow r hr

theorem Mat.hasShape_gjEliminate (t : Tables) {col : Nat} (hcol : col < n) :
    Mat.HasShape (gjEliminate t W n col) n m := by
  obtain ⟨-, hrow⟩ := h
  refine ⟨by simp [gjEliminate], fun r hr => ?_⟩
  rw [Mat.row_gjEliminate t col hr]
  split_ifs
  · exact hrow r hr
  · rw [List.length_zipWith, hrow r hr, hrow col hcol, Nat.min_self]

theorem Mat.at_gjSwap {p q : Nat} (hp : p < n) (hq : q < n) (r c : Nat) :
    Mat.at (gjSwap W p q) r c = Mat.at W (if r = q then p else if r = p then q else r) c := by
  rw [Mat.at, Mat.row_gjSwap (h.1 ▸ hp) (h.1 ▸ hq), Mat.at]

theorem Mat.at_gjScale (t : Tables) (f : Byte) {col r c : Nat} (hcol : col < n) (hr : r < n) (hc : c < m) :
    Mat.at (gjScale t f W col) r c = if r = col then gfMul t f (Mat.at W r c) else Mat.at W r c := by
  rw [Mat.at, Mat.row_gjScale t f (h.1 ▸ hcol)]
  split_ifs
  · have hlen : c < (Mat.row W r).length := by rwa [h.2 r hr]
    simp [Mat.at, List.getD_eq_getElem?_getD, hlen]
  · rfl

/-- The elimination adds a multiple of the pivot row, which is 0 where the row's entry is 0. -/
theorem Mat.at_gjEliminate (t : Tables) {col r c : Nat} (hcol : col < n) (hr : r < n) (hc : c < m) :
    Mat.at (gjEliminate t W n col) r c =
      if r = col then Mat.at W r c else Mat.at W r c ^^^ gfMul t (Mat.at W r col) (Mat.at W col c) := by
  rw [Mat.at, Mat.row_gjEliminate t col hr]
  by_cases hrc : r = col
  · simp [hrc, Mat.at]
  · by_cases hzero : Mat.at W r col = 0
    · rw [if_pos (.inr hzero), if_neg hrc, hzero]
      simp [Mat.at]
    · have hlen : c < (Mat.row W r).length := by rwa [h.2 r hr]
      have hlen' : c < (Mat.row W col).length := by rwa [h.2 col hcol]
      rw [if_neg (not_or.2 ⟨hrc, hzero⟩), if_neg hrc]
      simp [Mat.at, List.getD_eq_getElem?_getD, hlen, hlen']

end

/-- The pivot is the first row from `col` on whose entry is not 0 (R113). -/
theorem gjPivot_eq_some {W : Mat} {n col q : Nat} (h : gjPivot W n col = some q) :
    q < n ∧ col ≤ q ∧ Mat.at W q col ≠ 0 := by
  have hmem := List.mem_of_find?_eq_some h
  have hprop := List.find?_some h
  simp only [Bool.and_eq_true, decide_eq_true_eq] at hprop
  exact ⟨List.mem_range.1 hmem, hprop⟩

theorem gjPivot_eq_none {W : Mat} {n col : Nat} (h : gjPivot W n col = none) {r : Nat} (hcr : col ≤ r) (hr : r < n) :
    Mat.at W r col = 0 := by
  have hnot := List.find?_eq_none.1 h r (List.mem_range.2 hr)
  simpa [hcr] using hnot

/-! ## Solutions of the augmented system -/

/-- Row `r` of `[L | R] (x, y)`. -/
def augDot {F : Type} [Field F] (e : Byte → F) (n : Nat) (W : Mat) (x y : Nat → F) (r : Nat) : F :=
  ∑ c ∈ Finset.range n, e (Mat.at W r c) * x c + ∑ c ∈ Finset.range n, e (Mat.at W r (n + c)) * y c

/-- A row that is a combination of two rows has their combination as its product. -/
theorem augDot_combination {F : Type} [Field F] {e : Byte → F} {n : Nat} {W W' : Mat} {r r₁ r₂ : Nat} (a b : F)
    (h : ∀ c, c < 2 * n → e (Mat.at W' r c) = a * e (Mat.at W r₁ c) + b * e (Mat.at W r₂ c)) (x y : Nat → F) :
    augDot e n W' x y r = a * augDot e n W x y r₁ + b * augDot e n W x y r₂ := by
  have hsum : ∀ (k : Nat) (z : Nat → F), k ≤ n →
      ∑ c ∈ Finset.range n, e (Mat.at W' r (k + c)) * z c =
        a * ∑ c ∈ Finset.range n, e (Mat.at W r₁ (k + c)) * z c +
        b * ∑ c ∈ Finset.range n, e (Mat.at W r₂ (k + c)) * z c := by
    intro k z hk
    rw [Finset.mul_sum, Finset.mul_sum, ← Finset.sum_add_distrib]
    refine Finset.sum_congr rfl fun c hc => ?_
    rw [h (k + c) (by have := Finset.mem_range.1 hc; omega)]
    ring
  have hleft := hsum 0 x (Nat.zero_le n)
  simp only [Nat.zero_add] at hleft
  rw [augDot, augDot, augDot, hleft, hsum n y (Nat.le_refl n)]
  ring

/-- After the columns before `col`: the rows keep the augmented shape, every solution of `W` solves the system `W₀` that
the run began with, and the columns done are those of the identity. -/
structure GjState {F : Type} [Field F] (e : Byte → F) (n : Nat) (W₀ W : Mat) (col : Nat) : Prop where
  shape : Mat.HasShape W n (2 * n)
  solves : ∀ x y : Nat → F, (∀ r, r < n → augDot e n W x y r = 0) → ∀ r, r < n → augDot e n W₀ x y r = 0
  unit : ∀ r c, r < n → c < col → Mat.at W r c = delta r c

section
variable {t : Tables} {F : Type} [Field F] {e : Byte → F} (he : FieldModel t e) {n col : Nat} {W₀ W : Mat}
include he

/-! ## The row operations -/

omit he in
/-- Swapping two rows that are not done. -/
theorem gjState_swap (h : GjState e n W₀ W col) {p : Nat} (hcol : col < n) (hp : p < n) (hcp : col ≤ p) :
    GjState e n W₀ (gjSwap W p col) col := by
  have hat := Mat.at_gjSwap h.shape hp hcol
  refine ⟨Mat.hasShape_gjSwap h.shape hp hcol, fun x y hz => h.solves x y fun r hr => ?_, fun r c hr hc => ?_⟩
  · have hrow := augDot_combination (e := e) (n := n) (W := gjSwap W p col) (W' := W) (r := r)
      (r₁ := if r = col then p else if r = p then col else r) (r₂ := r) 1 0
      (fun c _ => by rw [hat]; split_ifs <;> simp_all) x y
    rw [hrow, hz _ (by split_ifs <;> assumption)]
    ring
  · have hsame : (if r = col then p else if r = p then col else r) = c ↔ r = c := by split_ifs <;> omega
    rw [hat, h.unit _ c (by split_ifs <;> assumption) hc]
    simp only [delta, hsame]

/-- Multiplying a row that is not done by a non-zero factor. -/
theorem gjState_scale (h : GjState e n W₀ W col) (hcol : col < n) {f : Byte} (hf : e f ≠ 0) :
    GjState e n W₀ (gjScale t f W col) col := by
  refine ⟨Mat.hasShape_gjScale h.shape t f hcol, fun x y hz => h.solves x y fun r hr => ?_, fun r c hr hc => ?_⟩
  · have hrow := augDot_combination (e := e) (W := W) (W' := gjScale t f W col) (r := r) (r₁ := r) (r₂ := r)
      (if r = col then e f else 1) 0
      (fun c hc => by rw [Mat.at_gjScale h.shape t f hcol hr hc]; split_ifs <;> simp [he.mul]) x y
    rw [hz r hr] at hrow
    by_cases hrc : r = col
    · simpa [hrc, hf] using hrow
    · simpa [hrc] using hrow.symm
  · rw [Mat.at_gjScale h.shape t f hcol hr (by omega), h.unit r c hr hc]
    split_ifs with hrc
    · rw [delta, if_neg (by omega)]
      exact gfMul_zero_right t f
    · rfl

/-- Clearing the pivot's column makes it a column of the identity. -/
theorem gjState_eliminate (h : GjState e n W₀ W col) (hcol : col < n) (hpivot : Mat.at W col col = 1) :
    GjState e n W₀ (gjEliminate t W n col) (col + 1) := by
  refine ⟨Mat.hasShape_gjEliminate h.shape t hcol, fun x y hz => h.solves x y fun r hr => ?_, fun r c hr hc => ?_⟩
  · have hrow := fun r (hr : r < n) => augDot_combination (e := e) (W := W) (W' := gjEliminate t W n col) (r := r)
      (r₁ := r) (r₂ := col) 1 (if r = col then 0 else e (Mat.at W r col))
      (fun c hc => by rw [Mat.at_gjEliminate h.shape t hcol hr hc]; split_ifs <;> simp [he.xor, he.mul]) x y
    have hcolrow : augDot e n W x y col = 0 := by simpa [hz col hcol] using (hrow col hcol).symm
    simpa [hz r hr, hcolrow] using (hrow r hr).symm
  · rw [Mat.at_gjEliminate h.shape t hcol hr (by omega)]
    rcases Nat.lt_succ_iff_lt_or_eq.1 hc with hlt | rfl
    · rw [h.unit r c hr hlt, h.unit col c hcol hlt, delta, delta, if_neg (show col ≠ c by omega)]
      simp
    · split_ifs with hrc
      · rw [hrc, hpivot, delta, if_pos rfl]
      · rw [hpivot, delta, if_neg hrc]
        exact (congrArg _ (he.gfMul_one _)).trans BitVec.xor_self

/-! ## One pass and the loop -/

/-- A pass with a pivot finishes its column. -/
theorem gjState_step (h : GjState e n W₀ W col) (hcol : col < n) {q : Nat} (hq : gjPivot W n col = some q) :
    ∃ W', gjStep t n W col = some W' ∧ GjState e n W₀ W' (col + 1) := by
  obtain ⟨hqn, hcq, hne⟩ := gjPivot_eq_some hq
  have hswap : ∃ W₁, W₁ = (if q = col then W else gjSwap W q col) ∧ GjState e n W₀ W₁ col ∧
      Mat.at W₁ col col = Mat.at W q col := by
    refine ⟨_, rfl, ?_⟩
    split_ifs with hqc
    · exact ⟨h, by rw [hqc]⟩
    · exact ⟨gjState_swap h hcol hqn hcq, by rw [Mat.at_gjSwap h.shape hqn hcol, if_pos rfl]⟩
  obtain ⟨W₁, hW₁, h₁, hpivot⟩ := hswap
  obtain ⟨f, hf, hfa⟩ := he.inv _ hne
  have hf0 : e f ≠ 0 := left_ne_zero_of_mul_eq_one hfa
  refine ⟨gjEliminate t (gjScale t f W₁ col) n col, ?_,
    gjState_eliminate he (gjState_scale he h₁ hcol hf0) hcol (he.inj ?_)⟩
  · rw [← hpivot] at hf
    simp only [gjStep, hq, ← hW₁, hf]
  · rw [Mat.at_gjScale h₁.shape t f hcol hcol (by omega), if_pos rfl, he.mul, hpivot, hfa]
    exact he.one.symm

/-- The loop over the columns from `col` on ends with all columns done, or at a column without a pivot. -/
theorem gjState_loop (k : Nat) (h : GjState e n W₀ W col) (hk : col + k = n) :
    (∃ W', gjLoop t n (List.range' col k) W = some W' ∧ GjState e n W₀ W' n) ∨
    (gjLoop t n (List.range' col k) W = none ∧
      ∃ W' c, c < n ∧ GjState e n W₀ W' c ∧ ∀ r, c ≤ r → r < n → Mat.at W' r c = 0) := by
  induction k generalizing W col with
  | zero => exact .inl ⟨W, rfl, hk ▸ h⟩
  | succ k ih =>
    rw [List.range'_succ]
    cases hq : gjPivot W n col with
    | none =>
      refine .inr ⟨by simp [gjLoop, gjStep, hq], W, col, by omega, h, fun r hcr hr => gjPivot_eq_none hq hcr hr⟩
    | some q =>
      obtain ⟨W', hstep, h'⟩ := gjState_step he h (by omega) hq
      simp only [gjLoop, hstep]
      exact ih h' (by omega)

/-! ## The run on `[A | I]` -/

omit he in
theorem gjState_augment (A : Mat) (n : Nat) : GjState e n (gjAugment A n) (gjAugment A n) 0 :=
  ⟨Mat.hasShape_of n (2 * n) _, fun _ _ h => h, fun _ _ _ hc => absurd hc (Nat.not_lt_zero _)⟩

/-- `[A | I] (x, y) = A x + y`. -/
theorem augDot_augment (A : Mat) (x y : Nat → F) {r : Nat} (hr : r < n) :
    augDot e n (gjAugment A n) x y r = ∑ c ∈ Finset.range n, e (Mat.at A r c) * x c + y r := by
  unfold augDot
  congr 1
  · refine Finset.sum_congr rfl fun c hc => ?_
    have hc := Finset.mem_range.1 hc
    rw [gjAugment, Mat.at_of _ hr (by omega), if_pos hc]
  · rw [Finset.sum_eq_single_of_mem r (Finset.mem_range.2 hr) fun c hc hne => ?_]
    · rw [gjAugment, Mat.at_of _ hr (by omega), if_neg (by omega), if_pos (by omega)]
      exact (congrArg (· * y r) he.one).trans (one_mul _)
    · have hc := Finset.mem_range.1 hc
      rw [gjAugment, Mat.at_of _ hr (by omega), if_neg (by omega), if_neg (by omega)]
      exact (congrArg (· * y c) he.zero).trans (zero_mul _)

/-- Summing against a column of the identity picks one term. -/
theorem sum_delta_mul {m : Nat} (r : Nat) (z : Nat → F) :
    ∑ c ∈ Finset.range m, e (delta r c) * z c = if r < m then z r else 0 := by
  simp only [he.map_delta, ite_mul, one_mul, zero_mul, Finset.sum_ite_eq, Finset.mem_range]

/-- A finished run has solved `A X = I`. -/
theorem entries_mul_of_gjState {A W : Mat} (h : GjState e n (gjAugment A n) W n) :
    entries e n (Mat.at A) * entries e n (fun r c => Mat.at W r (n + c)) = 1 := by
  ext i j
  have hsolved := h.solves (fun c => e (Mat.at W c (n + j))) (fun c => e (delta j c)) (fun r hr => ?_) i i.isLt
  · rw [augDot_augment he A _ _ i.isLt] at hsolved
    have hsum : ∑ c ∈ Finset.range n, e (Mat.at A i c) * e (Mat.at W c (n + j)) = e (delta j i) := by
      rw [eq_neg_of_add_eq_zero_left hsolved, neg_eq_of_add_eq_zero_left (he.add_self _)]
    calc (entries e n (Mat.at A) * entries e n fun r c => Mat.at W r (n + c)) i j
        _ = ∑ c ∈ Finset.range n, e (Mat.at A i c) * e (Mat.at W c (n + j)) :=
          Fin.sum_univ_eq_sum_range (fun c => e (Mat.at A i c) * e (Mat.at W c (n + j))) n
        _ = e (delta j i) := hsum
        _ = (1 : Matrix (Fin n) (Fin n) F) i j := by simp [he.map_delta, Matrix.one_apply, Fin.ext_iff, eq_comm]
  · have hleft : ∑ c ∈ Finset.range n, e (Mat.at W r c) * e (Mat.at W c (n + j)) = e (Mat.at W r (n + j)) := by
      rw [Finset.sum_congr rfl fun c hc => by rw [h.unit r c hr (Finset.mem_range.1 hc)], sum_delta_mul he, if_pos hr]
    have hright : ∑ c ∈ Finset.range n, e (Mat.at W r (n + c)) * e (delta j c) = e (Mat.at W r (n + j)) := by
      simp only [mul_comm (e (Mat.at W r _)), sum_delta_mul he (j : Nat) fun c => e (Mat.at W r (n + c)), j.isLt, if_true]
    rw [augDot, hleft, hright, he.add_self]

/-- What a column without a pivot leaves unsolved: the combination of the columns before `c` that gives column `c`. -/
def kernelVector {F : Type} [Field F] (e : Byte → F) (W : Mat) (c i : Nat) : F :=
  if i < c then e (Mat.at W i c) else if i = c then 1 else 0

/-- A run without a pivot in column `c` has found a vector that `A` sends to 0. -/
theorem det_eq_zero_of_gjState {A W : Mat} {c : Nat} (hc : c < n) (h : GjState e n (gjAugment A n) W c)
    (hzero : ∀ r, c ≤ r → r < n → Mat.at W r c = 0) : (entries e n (Mat.at A)).det = 0 := by
  have hsolved := h.solves (kernelVector e W c) (fun _ => 0) (fun r hr => ?_)
  · refine Matrix.exists_mulVec_eq_zero_iff.1 ⟨fun i : Fin n => kernelVector e W c i, fun h0 => ?_, ?_⟩
    · have hone := congrFun h0 ⟨c, hc⟩
      simp [kernelVector] at hone
    · ext i
      have hi := hsolved i i.isLt
      rw [augDot_augment he A _ _ i.isLt, add_zero] at hi
      exact (Fin.sum_univ_eq_sum_range (fun x => e (Mat.at A i x) * kernelVector e W c x) n).trans hi
  · have hsum : ∑ i ∈ Finset.range n, e (Mat.at W r i) * kernelVector e W c i =
        ∑ i ∈ Finset.range c, e (delta r i) * e (Mat.at W i c) + e (Mat.at W r c) := by
      rw [← Finset.sum_subset (Finset.range_subset_range.2 hc) fun i _ hi => ?_, Finset.sum_range_succ]
      · congr 1
        · refine Finset.sum_congr rfl fun i hi => ?_
          have hi := Finset.mem_range.1 hi
          rw [kernelVector, if_pos hi, h.unit r i hr hi]
        · simp [kernelVector]
      · have hi : ¬i < c + 1 := by simpa using hi
        rw [kernelVector, if_neg (by omega), if_neg (by omega), mul_zero]
    rw [augDot, hsum, sum_delta_mul he]
    simp only [mul_zero, Finset.sum_const_zero, add_zero]
    split_ifs with hrc
    · exact he.add_self _
    · rw [hzero r (by omega) hr, zero_add]
      exact he.zero

/-- `gj_inv` finds a right inverse, which is built entry by entry, or the matrix has none (R114). -/
theorem gjInv_cases (A : Mat) (n : Nat) :
    (∃ f : Nat → Nat → Byte, gjInv t A n = some (Mat.of n n f) ∧ entries e n (Mat.at A) * entries e n f = 1) ∨
    (gjInv t A n = none ∧ (entries e n (Mat.at A)).det = 0) := by
  have hloop := gjState_loop he n (gjState_augment (e := e) A n) (Nat.zero_add n)
  rw [← List.range_eq_range'] at hloop
  rcases hloop with ⟨W, hW, h⟩ | ⟨hnone, W, c, hc, h, hzero⟩
  · exact .inl ⟨_, by rw [gjInv, hW], entries_mul_of_gjState he h⟩
  · exact .inr ⟨by rw [gjInv, hnone], det_eq_zero_of_gjState he hc h hzero⟩

theorem gjInv_eq_some {A X : Mat} {n : Nat} (h : gjInv t A n = some X) :
    X = Mat.of n n (Mat.at X) ∧ entries e n (Mat.at A) * entries e n (Mat.at X) = 1 := by
  rcases gjInv_cases he A n with ⟨f, hf, hAf⟩ | ⟨hnone, -⟩
  · obtain rfl : X = Mat.of n n f := Option.some.inj (h.symm.trans hf)
    have hat : ∀ r c, r < n → c < n → Mat.at (Mat.of n n f) r c = f r c := fun _ _ => Mat.at_of f
    exact ⟨Mat.of_congr fun r c hr hc => (hat r c hr hc).symm, by rwa [entries_congr e hat]⟩
  · rw [hnone] at h
    cases h

/-- Singular means that the determinant is 0. -/
theorem gjInv_ne_none_of_det {A : Mat} {n : Nat} (h : (entries e n (Mat.at A)).det ≠ 0) : gjInv t A n ≠ none := by
  rcases gjInv_cases he A n with ⟨f, hf, -⟩ | ⟨-, hdet⟩
  · simp [hf]
  · exact absurd hdet h

end

end Machine

namespace Proofs

open Machine Claims

/-- Settles O34: over the field, a right inverse is a left inverse and unique, and Singular means determinant 0. -/
theorem gaussJordanFindsTheInverse : Obligations.GaussJordanFindsTheInverse := by
  intro p hp n A _ _
  obtain ⟨F, _, e, he⟩ := exists_fieldModel hp
  refine ⟨fun X hX => ?inverse, fun hnone Y hY => ?singular, fun W col q hq => ?pivot⟩
  case inverse =>
    obtain ⟨-, hAX⟩ := gjInv_eq_some he hX
    have hXA := mul_eq_one_comm.1 hAX
    refine ⟨(productIsIdentity_iff he).2 hAX, (productIsIdentity_iff he).2 hXA, fun Y hY i j hi hj => ?_⟩
    have hXY := left_inv_eq_right_inv hXA ((productIsIdentity_iff he).1 hY)
    exact he.inj (congrFun (congrFun hXY ⟨i, hi⟩) ⟨j, hj⟩).symm
  case singular =>
    refine gjInv_ne_none_of_det he (fun hdet => ?_) hnone
    have hone := congrArg Matrix.det ((productIsIdentity_iff he).1 hY)
    rw [Matrix.det_mul, hdet, zero_mul, Matrix.det_one] at hone
    exact zero_ne_one hone
  case pivot =>
    obtain ⟨-, -, hne⟩ := gjPivot_eq_some hq
    obtain ⟨f, hf, -⟩ := he.inv _ hne
    exact hf ▸ Option.some_ne_none f

end Proofs
end Sys2Proof
end

section
/-! The generator matrix (42_codec_context.md R130-R132): a Vandermonde matrix times the inverse of its top block, so that its
top is the identity and any `k` of its rows are invertible. -/
namespace Sys2Proof
namespace Machine

open Claims

/-- The generator matrix holds one entry for every row and column (R131). -/
theorem buildGen_eq_of (t : Tables) (k m : Nat) : buildGen t k m = Mat.of (k + m) k (Mat.at (buildGen t k m)) :=
  Mat.of_congr fun _ _ hr hc => (matMul_at t _ _ hr hc).symm

theorem vandermonde_at (t : Tables) {k m r c : Nat} (hr : r < k + m) (hc : c < k) :
    Mat.at (vandermonde t k m) r c = gfPow t (BitVec.ofNat 8 r) c :=
  Mat.at_of _ hr hc

theorem vandermonde_take_at (t : Tables) {k m r c : Nat} (hr : r < k) (hc : c < k) :
    Mat.at ((vandermonde t k m).take k) r c = Mat.at (vandermonde t k m) r c := by
  rw [vandermonde_at t (by omega) hc, vandermonde, Mat.take_of _ (by omega), Mat.at_of _ hr hc]

/-- `sel` chooses `k` different rows of `k + m`. -/
def ChoosesRows (k m : Nat) (sel : Nat → Nat) : Prop :=
  (∀ i, i < k → sel i < k + m) ∧ ∀ i j, i < k → j < k → sel i = sel j → i = j

theorem choosesRows_id (k m : Nat) : ChoosesRows k m id := ⟨fun _ hi => by simp only [id]; omega, fun _ _ _ _ h => h⟩

section
variable {t : Tables} {F : Type} [Field F] {e : Byte → F} (he : FieldModel t e) {k m : Nat}
include he

/-- Rows of the base matrix form a Vandermonde matrix over different points. -/
theorem det_vandermonde_rows (hkm : LegalCounts k m) {sel : Nat → Nat} (hsel : ChoosesRows k m sel) :
    (entries e k fun i c => Mat.at (vandermonde t k m) (sel i) c).det ≠ 0 := by
  obtain ⟨-, -, hmax⟩ := hkm
  obtain ⟨hlt, hinj⟩ := hsel
  have hrows : (entries e k fun i c => Mat.at (vandermonde t k m) (sel i) c) =
      Matrix.vandermonde fun i : Fin k => e (BitVec.ofNat 8 (sel i)) := by
    ext i c
    rw [entries_apply, vandermonde_at t (hlt i i.isLt) c.isLt, he.pow, Matrix.vandermonde_apply]
  rw [hrows, Matrix.det_vandermonde_ne_zero_iff]
  intro i j hij
  have hpoint := congrArg BitVec.toNat (he.inj hij)
  have hi := hlt i i.isLt
  have hj := hlt j j.isLt
  rw [BitVec.toNat_ofNat, BitVec.toNat_ofNat, Nat.mod_eq_of_lt (by omega), Nat.mod_eq_of_lt (by omega)] at hpoint
  exact Fin.ext (hinj i j i.isLt j.isLt hpoint)

/-- The builder's inversion succeeds, and every choice of rows of the generator matrix is that choice of rows of the base
matrix times the inverse (R131, R132 (b)). -/
theorem exists_buildGen_factor (hkm : LegalCounts k m) :
    ∃ X : Mat, gjInv t ((vandermonde t k m).take k) k = some X ∧
      entries e k (Mat.at (vandermonde t k m)) * entries e k (Mat.at X) = 1 ∧
      ∀ sel : Nat → Nat, (∀ i, i < k → sel i < k + m) →
        entries e k (fun i c => Mat.at (buildGen t k m) (sel i) c) =
          entries e k (fun i c => Mat.at (vandermonde t k m) (sel i) c) * entries e k (Mat.at X) := by
  have htop : entries e k (Mat.at ((vandermonde t k m).take k)) = entries e k (Mat.at (vandermonde t k m)) :=
    entries_congr e fun _ _ hr hc => vandermonde_take_at t hr hc
  have hsome : gjInv t ((vandermonde t k m).take k) k ≠ none :=
    gjInv_ne_none_of_det he (htop ▸ det_vandermonde_rows he hkm (choosesRows_id k m))
  obtain ⟨X, hX⟩ := Option.ne_none_iff_exists'.1 hsome
  obtain ⟨-, hmul⟩ := gjInv_eq_some he hX
  refine ⟨X, hX, htop ▸ hmul, fun sel hlt => ?_⟩
  rw [entries_mul he]
  refine entries_congr e fun i c hi hc => ?_
  rw [buildGen, hX, Option.getD_some, matMul_at t _ _ (hlt i hi) hc]
  rfl

/-- The top of the generator matrix is the identity (R132 (a)). -/
theorem buildGen_top (hkm : LegalCounts k m) {r c : Nat} (hr : r < k) (hc : c < k) :
    Mat.at (buildGen t k m) r c = delta r c := by
  obtain ⟨X, -, hone, hfactor⟩ := exists_buildGen_factor he hkm
  have htop := (hfactor id (choosesRows_id k m).1).trans (hone.trans (entries_delta he k).symm)
  exact he.inj (congrFun (congrFun htop ⟨r, hr⟩) ⟨c, hc⟩)

/-- Any `k` rows of the generator matrix are invertible (R132 (c)). -/
theorem det_buildGen_rows (hkm : LegalCounts k m) {sel : Nat → Nat} (hsel : ChoosesRows k m sel) :
    (entries e k fun i c => Mat.at (buildGen t k m) (sel i) c).det ≠ 0 := by
  obtain ⟨X, -, hone, hfactor⟩ := exists_buildGen_factor he hkm
  have hX : (entries e k (Mat.at X)).det ≠ 0 := by
    have hdet := congrArg Matrix.det hone
    rw [Matrix.det_mul, Matrix.det_one] at hdet
    exact right_ne_zero_of_mul_eq_one hdet
  rw [hfactor sel hsel.1, Matrix.det_mul]
  exact mul_ne_zero (det_vandermonde_rows he hkm hsel) hX

end

end Machine

namespace Proofs

open Machine Claims

/-- Settles O35: every choice of rows is a Vandermonde matrix times the inverse of the top block. -/
theorem generatorIsSystematicAndInvertible : Obligations.GeneratorIsSystematicAndInvertible := by
  intro p hp k m hkm
  obtain ⟨F, _, e, he⟩ := exists_fieldModel hp
  refine ⟨fun r c hr hc => buildGen_top he hkm hr hc, ?_, fun sel hlt hinj => ?_⟩
  · obtain ⟨X, hX, -⟩ := exists_buildGen_factor he hkm
    exact hX ▸ Option.some_ne_none X
  · refine gjInv_ne_none_of_det he ?_
    rw [entries_congr e fun i c hi hc => Mat.at_of _ hi hc]
    exact det_buildGen_rows he hkm ⟨hlt, hinj⟩

/-- Settles O36: the six matrices are computed. -/
theorem smallGeneratorsMatchTheTable : Obligations.SmallGeneratorsMatchTheTable := by
  refine ⟨?_, ?_, ?_, ?_, ?_, ?_⟩ <;> decide +kernel

end Proofs
end Sys2Proof
end

section
/-! What a command's effect is on each part of the state (20_memory.md R56, R57; 10_state.md R38-R40), by the four kinds of
effect: a store, a result, the tables, the context. -/
namespace Sys2Proof
namespace Machine

open Claims

/-! ## The kinds of effect -/

/-- The commands that store nothing set RESULT, fill the tables, or make or destroy a context. -/
theorem registerEffect_cases {s t : State} {i : Instr} (hi : isStoring i = false) (h : Effect s i t) :
    (isField i = true ∧ ∃ v, t = s.setResult v) ∨
    (i = .init ∧ t = if s.status.initDone then s
      else { s with tables := initTables s.build.gfPoly, status := { s.status with initDone := true } }) ∨
    (isField i = false ∧ i ≠ .init ∧ ((∃ k m, t = s.withNewContext k m) ∨ t = s.withoutContext)) := by
  cases i with
  | init => exact .inr (.inl ⟨rfl, h⟩)
  | gfAdd | gfMul | gfExp => exact .inl ⟨rfl, _, h⟩
  | gfDiv | gfInv =>
    obtain ⟨q, -, rfl⟩ := h
    exact .inl ⟨rfl, q, rfl⟩
  | gfLog =>
    obtain ⟨-, rfl⟩ := h
    exact .inl ⟨rfl, _, rfl⟩
  | ctxCreate k m =>
    obtain ⟨-, -, rfl⟩ := h
    exact .inr (.inr ⟨rfl, by simp, .inl ⟨k, m, rfl⟩⟩)
  | ctxRelease =>
    obtain ⟨-, rfl⟩ := h
    exact .inr (.inr ⟨rfl, by simp, .inr rfl⟩)
  | matMul | matInv | ctxGenstore | rsEncode | rsReconstruct => cases hi

/-- Once INIT has run, no command's effect is on the tables (40_field_arithmetic.md R99). -/
theorem tables_of_effect {s t : State} {i : Instr} (hinit : s.status.initDone = true) (h : Effect s i t) :
    t.status.initDone = true ∧ t.tables = s.tables := by
  cases hi : isStoring i with
  | true =>
    obtain ⟨-, cs, rfl, -⟩ := storesInto_of_effect hi h
    exact ⟨hinit, rfl⟩
  | false =>
    rcases registerEffect_cases hi h with ⟨-, v, rfl⟩ | ⟨-, rfl⟩ | ⟨-, -, ⟨k, m, rfl⟩ | rfl⟩
    · exact ⟨hinit, rfl⟩
    · rw [hinit]
      exact ⟨hinit, rfl⟩
    · exact ⟨hinit, rfl⟩
    · exact ⟨hinit, rfl⟩

theorem tables_of_completeRunning {s t : State} (hinit : s.status.initDone = true) (h : completeRunning s = .next t) :
    t.status.initDone = true ∧ t.tables = s.tables := by
  rcases completeRunning_next_cases h with ⟨-, rfl⟩ | ⟨w, -, -, rfl⟩ | ⟨i, -, hexec⟩
  · exact ⟨hinit, rfl⟩
  · exact ⟨hinit, rfl⟩
  · rcases exec_next_cases hexec with ⟨c, k, -, -, rfl⟩ | ⟨-, t0, heff, rfl⟩
    · exact ⟨hinit, rfl⟩
    · have hkeep : t0.status.initDone = true ∧ t0.tables = s.tables := tables_of_effect hinit heff
      exact hkeep

theorem HostFrame.tables_of_initDone {s t : State} (h : HostFrame s t) (hinit : s.status.initDone = true) :
    t.status.initDone = true ∧ t.tables = s.tables :=
  ⟨h.initDone.trans hinit, h.tables⟩

theorem tables_of_stepEvent {s t : State} {e : Event} (hinit : s.status.initDone = true) (hreset : e ≠ .assertReset)
    (h : stepEvent e s = .next t) : t.status.initDone = true ∧ t.tables = s.tables := by
  cases e with
  | host x => exact (hostFrame_of_hostAccess h).tables_of_initDone hinit
  | bus x => exact (hostFrame_of_busAccess h).tables_of_initDone hinit
  | complete => exact tables_of_completeRunning hinit h
  | cmdWriteAtCompletion w =>
    obtain ⟨u, hu, rfl⟩ := stepEvent_cmdWriteAtCompletion_next h
    obtain ⟨hinit', htables⟩ := tables_of_completeRunning hinit hu
    obtain ⟨hinit'', htables'⟩ := (hostFrame_hostCsrWrite cmdOffset 4 w u).tables_of_initDone hinit'
    exact ⟨hinit'', htables'.trans htables⟩
  | assertReset => exact absurd rfl hreset
  | releaseReset => cases h; exact ⟨hinit, rfl⟩

/-! ## Contents that no command observes (10_state.md R38, R39) -/

/-- `t` with other contents `G` of GEN where there is no context. -/
def withUnknownGen (G : List (List Byte)) (t : State) : State :=
  { t with gen := if t.status.ctxValid then t.gen else G }

theorem withUnknownGen_of_not_valid {G : List (List Byte)} {t : State} (h : t.status.ctxValid = false) :
    withUnknownGen G t = { t with gen := G } := by
  simp [withUnknownGen, h]

/-- The ending with the state it answers changed by `g`. -/
def Ending.mapState (g : State → State) : Ending → Ending
  | .success t => .success (g t)
  | .error c k => .error c k
  | .modelFault f => .modelFault f

/-- The outcome with the state it answers changed by `g`. -/
def mapNext (g : State → State) : Host.Outcome State Fault Refusal → Host.Outcome State Fault Refusal
  | .next t => .next (g t)
  | .fault f => .fault f
  | .refused r => .refused r

theorem mapState_ite (g : State → State) {p : Prop} [Decidable p] (a b : Ending) :
    (if p then a else b).mapState g = if p then a.mapState g else b.mapState g := by
  split <;> rfl

section
variable (s : State) (g : State → State)

theorem mapState_withRegions (rs : List Region) (a : Ending) :
    (s.withRegions rs a).mapState g = s.withRegions rs (a.mapState g) := mapState_ite g _ _

theorem mapState_withoutOverlap (ws ps : List Region) (a : Ending) :
    (withoutOverlap ws ps a).mapState g = withoutOverlap ws ps (a.mapState g) := mapState_ite g _ _

theorem mapState_withWritten (as : List Nat) (a : Ending) :
    (s.withWritten as a).mapState g = s.withWritten as (a.mapState g) := by
  unfold State.withWritten
  split <;> rfl

end

/-- Without a context, a command's body is the same with any contents of GEN. -/
theorem bodyOf_withGen {s : State} (hv : s.status.ctxValid = false) (G : List (List Byte)) (i : Instr) :
    bodyOf { s with gen := G } i = (bodyOf s i).mapState (withUnknownGen G) := by
  have hkeep : ∀ t : State, t.status.ctxValid = false → (Ending.success t).mapState (withUnknownGen G) =
      .success { t with gen := G } := fun _ h => congrArg _ (withUnknownGen_of_not_valid h)
  have hset : ∀ v, (Ending.success (s.setResult v)).mapState (withUnknownGen G) =
      .success (State.setResult { s with gen := G } v) := fun v => hkeep (s.setResult v) hv
  have hstore : ∀ cs, (Ending.success (s.store cs)).mapState (withUnknownGen G) =
      .success (State.store { s with gen := G } cs) := fun cs => hkeep (s.store cs) hv
  cases i with
  | init =>
    rw [bodyOf, bodyOf, hkeep]
    · cases s.status.initDone <;> rfl
    · split <;> exact hv
  | gfAdd | gfMul | gfExp => exact (hset _).symm
  | gfDiv a b =>
    simp only [bodyOf]
    cases gfDiv s.tables a b with
    | none => rfl
    | some q => exact (hset q).symm
  | gfInv a =>
    simp only [bodyOf]
    cases gfInv s.tables a with
    | none => rfl
    | some q => exact (hset q).symm
  | gfLog =>
    rw [bodyOf, bodyOf, mapState_ite, hset]
    rfl
  | matMul =>
    rw [bodyOf, bodyOf, mapState_ite, mapState_withRegions, mapState_withoutOverlap, mapState_withWritten, hstore]
    rfl
  | matInv =>
    have hend : ∀ X, (s.invEnding X).mapState (withUnknownGen G) = State.invEnding { s with gen := G } X := fun X => by
      cases X with
      | none => rfl
      | some X => exact hstore _
    rw [bodyOf, bodyOf, mapState_ite, mapState_withRegions, mapState_withWritten, hend]
    rfl
  | ctxCreate k m =>
    rw [bodyOf, bodyOf, mapState_ite, mapState_ite]
    rfl
  | ctxRelease | ctxGenstore | rsEncode | rsReconstruct =>
    rw [bodyOf, bodyOf, State.withContext_of_not_valid hv,
      State.withContext_of_not_valid (s := { s with gen := G }) hv]
    rfl

/-- Completion commutes with a change that it does not see. -/
theorem finish_mapState {s : State} {g : State → State}
    (hg : ∀ t c k, (g t).complete c k = g (t.complete c k)) (a : Ending) :
    (g s).finish (a.mapState g) = mapNext g (s.finish a) := by
  cases a with
  | success t => exact congrArg _ (hg t _ _)
  | error c k => exact congrArg _ (hg s c k)
  | modelFault f => rfl

theorem exec_withGen {s : State} (hv : s.status.ctxValid = false) (G : List (List Byte)) (i : Instr) :
    exec i { s with gen := G } = mapNext (withUnknownGen G) (exec i s) := by
  have hcomplete : ∀ t c k, (withUnknownGen G t).complete c k = withUnknownGen G (t.complete c k) := fun _ _ _ => rfl
  have hfinish := finish_mapState (s := s) hcomplete (bodyOf s i)
  rw [← bodyOf_withGen hv, withUnknownGen_of_not_valid hv] at hfinish
  by_cases hi : i = .init
  · subst hi
    exact hfinish
  · rw [exec_of_ne_init hi, exec_of_ne_init hi]
    cases hinit : s.status.initDone with
    | true => rwa [State.afterInit_of_init hinit, State.afterInit_of_init (s := { s with gen := G }) hinit]
    | false =>
      rw [State.afterInit_of_not_init hinit, State.afterInit_of_not_init (s := { s with gen := G }) hinit, mapNext,
        withUnknownGen_of_not_valid (t := s.complete _ _) hv]
      rfl

end Machine

namespace Proofs

open Machine Claims

/-- Settles O22: no host access and no effect of a command after INIT is on the tables. -/
theorem onlyResetUndoesInit : Obligations.OnlyResetUndoesInit := by
  intro s t hstep hinit hreset
  rcases step_next_cases hstep with ⟨-, hrun⟩ | ⟨e, es, hes, hev⟩
  · exact tables_of_completeRunning hinit hrun
  · exact tables_of_stepEvent (s := { s with events := es }) hinit (fun he => hreset es (he ▸ hes)) hev

/-- Settles O27: an error completes the old state, and each kind of effect writes its own registers only. -/
theorem registerCommandsFrame : Obligations.RegisterCommandsFrame := by
  intro i s t hi h
  rcases exec_next_cases h with ⟨c, k, -, -, rfl⟩ | ⟨-, t0, heff, rfl⟩
  · exact ⟨sameOperands_refl s, fun _ => rfl, rfl, rfl, fun _ => ⟨rfl, rfl, rfl, rfl, rfl, rfl⟩, fun _ => rfl,
      fun _ => ⟨rfl, rfl, rfl, rfl⟩, fun _ _ => ⟨rfl, rfl⟩⟩
  · have hsame : SameOperands s t0 := sameOperands_of_effect heff
    refine ⟨hsame, ?_⟩
    rcases registerEffect_cases hi heff with ⟨hfield, v, rfl⟩ | ⟨rfl, rfl⟩ | ⟨hfield, hne, ⟨k, m, rfl⟩ | rfl⟩
    · exact ⟨fun _ => rfl, rfl, rfl, fun _ => ⟨rfl, rfl, rfl, rfl, rfl, rfl⟩, fun hf => by simp [hfield] at hf,
        fun _ => ⟨rfl, rfl, rfl, rfl⟩, fun _ _ => ⟨rfl, rfl⟩⟩
    · cases s.status.initDone <;>
        exact ⟨fun _ => rfl, rfl, rfl, nofun, fun _ => rfl, fun _ => ⟨rfl, rfl, rfl, rfl⟩, fun _ hne => absurd rfl hne⟩
    · exact ⟨fun _ => rfl, rfl, rfl, fun hf => by simp [hfield] at hf, fun _ => rfl, fun he => absurd he hne,
        fun _ _ => ⟨rfl, rfl⟩⟩
    · exact ⟨fun _ => rfl, rfl, rfl, fun hf => by simp [hfield] at hf, fun _ => rfl, fun he => absurd he hne,
        fun _ _ => ⟨rfl, rfl⟩⟩

/-- Settles O28: an error completes the old state, and an effect is a store into the write regions. -/
theorem storingCommandsFrame : Obligations.StoringCommandsFrame := by
  intro i s t hi h
  rcases exec_next_cases h with ⟨c, k, -, -, rfl⟩ | ⟨-, t0, heff, rfl⟩
  · exact ⟨sameOperands_refl s, ⟨rfl, rfl, rfl, rfl, rfl⟩, rfl, rfl, rfl, rfl, fun _ _ => rfl⟩
  · have hstore := storesInto_of_effect hi heff
    have hmemory := fun a => hstore.byte?_other (a := a)
    obtain ⟨-, cs, rfl, -⟩ := hstore
    exact ⟨sameOperands_refl s, ⟨rfl, rfl, rfl, rfl, rfl⟩, rfl, rfl, rfl, rfl, hmemory⟩

/-- Settles O29: without tables only INIT gets past the prologue, and without a context no body reads GEN. -/
theorem unspecifiedTablesAreNeverObserved : Obligations.UnspecifiedTablesAreNeverObserved := by
  intro i s t T G
  refine ⟨fun hinit h => ?tables, fun hv h => ?gen, fun f hv h => ?fault⟩
  case tables =>
    by_cases hi : i = .init
    · subst hi
      rw [(initFillsTablesOnce s).1 hinit] at h
      rw [(initFillsTablesOnce { s with tables := T }).1 hinit, if_pos rfl]
      cases h
      rfl
    · rw [commandsNeedInit i s hi hinit] at h
      rw [commandsNeedInit i { s with tables := T } hi hinit, if_neg hi]
      cases h
      rfl
  case gen =>
    rw [exec_withGen hv, h]
    rfl
  case fault =>
    rw [exec_withGen hv, h]
    rfl

end Proofs
end Sys2Proof
end

section
/-! The checks of the storing commands as statements about addresses (20_memory.md R55-R57), and what a store of a matrix image
leaves in DMEM (41_matrix_engine.md R110). -/
namespace Sys2Proof
namespace Machine

open Claims

/-! ## Regions -/

theorem overlaps_eq_false_iff_apart {r q : Region} : r.overlaps q = false ↔ Apart r q := by
  rw [← Bool.not_eq_true, Region.overlaps_iff, not_exists]
  simp only [Region.has_iff, Apart]

theorem written_iff {s : State} {r : Region} : Written s r ↔ ∀ a, r.has a = true → Memory.byte? s.dmem a ≠ none := by
  simp only [Written, Region.has_iff, and_imp]

theorem mem_matAddrs_iff_has {base : Word} {R C a : Nat} : a ∈ matAddrs base R C ↔ (matRegion base R C).has a = true := by
  rw [mem_matAddrs, Region.has_iff]
  simp only [matRegion]
  constructor
  · rintro ⟨r, c, hr, hc, rfl⟩
    have hlt := rowMajor_lt hr hc
    omega
  · rintro ⟨hle, hlt⟩
    obtain ⟨r, c, hr, hc, hx⟩ := rowMajor_surj (x := a - base.toNat) (R := R) (C := C) (by omega)
    exact ⟨r, c, hr, hc, by omega⟩

/-! ## What a store leaves -/

/-- A stored matrix image reads back entry by entry. -/
theorem byte?_setAll_matCells (m : Memory) (base : Word) {R C : Nat} (f : Nat → Nat → Byte) {i j : Nat} (hi : i < R)
    (hj : j < C) : Memory.byte? (Memory.setAll m (matCells base R C f)) (base.toNat + i * C + j) = some (f i j) := by
  apply Memory.byte?_setAll_of_mem _ _ (mem_matCells.2 ⟨i, j, hi, hj, rfl⟩)
  intro w hw
  obtain ⟨r, c, hr, hc, heq⟩ := mem_matCells.1 hw
  obtain ⟨haddr, rfl⟩ := Prod.mk.inj heq
  obtain ⟨rfl, rfl⟩ := rowMajor_inj (r := i) (c := j) (r' := r) (c' := c) hj hc (by omega)
  rfl

/-- A command that succeeded with a store changed nothing but DMEM and STATUS. -/
theorem withSuccess_store_frame (s : State) (cs : List Host.Cell) :
    Succeeded s (withSuccess (s.store cs)) ∧ SameOperands s (withSuccess (s.store cs)) ∧
      SameInner s (withSuccess (s.store cs)) :=
  ⟨⟨rfl, rfl⟩, sameOperands_refl s, rfl, rfl, rfl, rfl, rfl⟩

/-- A stored matrix image changes no byte outside its region. -/
theorem sameOutside_store_matCells (s : State) (base : Word) (R C : Nat) (f : Nat → Nat → Byte) :
    SameOutside s (withSuccess (s.store (matCells base R C f))) (matRegion base R C) := by
  intro a ha
  refine Memory.byte?_setAll_other _ s.dmem fun c hc e => ha ?_
  exact (Region.has_iff _ a).1 (e ▸ matRegion_has_of_mem_matCells hc)

/-! ## MAT.MUL (41_matrix_engine.md R112) -/

theorem legalDim_iff {d : BitVec 9} : legalDim d = true ↔ DimOk d := by
  simp only [legalDim, Bool.and_eq_true, decide_eq_true_eq]
  rfl

theorem mulMismatch_eq_false_iff {s : State} : s.mulMismatch = false ↔ MulShapesOk s := by
  simp [State.mulMismatch, MulShapesOk, legalDim_iff, and_assoc]

theorem mulReads_written_iff {s : State} :
    (∀ a ∈ s.mulReads, Memory.byte? s.dmem a ≠ none) ↔ Written s s.mulA ∧ Written s s.mulB := by
  simp only [State.mulReads, List.mem_append, or_imp, forall_and, mem_matAddrs_iff_has, written_iff, State.mulA,
    State.mulB]

theorem mulOverlap_eq_false_iff {s : State} :
    overlapHazard (writeRegions s .matMul) (protectedRegions s .matMul) = false ↔
      Apart s.mulC s.mulA ∧ Apart s.mulC s.mulB := by
  simp [overlapHazard_eq_false_iff, writeRegions, protectedRegions, overlaps_eq_false_iff_apart]

/-- An entry of the product that MAT.MUL stores (R111). -/
theorem mulProduct_at {s : State} {i j : Nat} (hi : i < s.dimA.rows.toNat) (hj : j < s.dimB.cols.toNat)
    (hfit : s.dimA.cols = s.dimB.rows) :
    Mat.at s.mulProduct i j = dot s.tables s.dimA.cols.toNat (matByte s s.maBase s.dimA.cols.toNat)
      (matByte s s.mbBase s.dimB.cols.toNat) i j := by
  rw [State.mulProduct, matMul_at _ _ _ hi hj]
  refine xorSum_congr fun x hx => ?_
  rw [State.loadMat, State.loadMat, Mat.at_of _ hi hx, Mat.at_of _ (hfit ▸ hx) hj]
  rfl

section
variable {s : State} (hshape : MulShapesOk s)
include hshape

/-- MAT.MUL past its shape check. -/
theorem bodyOf_matMul_of_shapes :
    bodyOf s .matMul = s.withRegions [s.mulA, s.mulB, s.mulC]
      (withoutOverlap (writeRegions s .matMul) (protectedRegions s .matMul)
        (s.withWritten s.mulReads (.success (s.store s.mulCells)))) :=
  if_neg (by simp [mulMismatch_eq_false_iff.2 hshape])

/-- MAT.MUL past its shape and address checks. -/
theorem bodyOf_matMul_of_inRange (hA : InRange s s.mulA) (hB : InRange s s.mulB) (hC : InRange s s.mulC) :
    bodyOf s .matMul = withoutOverlap (writeRegions s .matMul) (protectedRegions s .matMul)
      (s.withWritten s.mulReads (.success (s.store s.mulCells))) := by
  rw [bodyOf_matMul_of_shapes hshape, State.withRegions_of_inRange]
  simpa using ⟨hA, hB, hC⟩

end

/-! ## MAT.INV (41_matrix_engine.md R115) -/

theorem invMismatch_eq_false_iff {s : State} : s.invMismatch = false ↔ InvShapeOk s := by
  simp [State.invMismatch, InvShapeOk, legalDim_iff]

theorem invReads_written_iff {s : State} :
    (∀ a ∈ matAddrs s.maBase s.dimA.rows.toNat s.dimA.rows.toNat, Memory.byte? s.dmem a ≠ none) ↔
      Written s s.invA := by
  simp only [mem_matAddrs_iff_has, written_iff, State.invA]

section
variable {s : State} (hshape : InvShapeOk s)
include hshape

/-- MAT.INV past its shape check. -/
theorem bodyOf_matInv_of_shape :
    bodyOf s .matInv = s.withRegions [s.invA, s.invC]
      (s.withWritten (matAddrs s.maBase s.dimA.rows.toNat s.dimA.rows.toNat) (s.invEnding s.invResult)) :=
  if_neg (by simp [invMismatch_eq_false_iff.2 hshape])

/-- MAT.INV past its shape and address checks. -/
theorem bodyOf_matInv_of_inRange (hA : InRange s s.invA) (hC : InRange s s.invC) :
    bodyOf s .matInv =
      s.withWritten (matAddrs s.maBase s.dimA.rows.toNat s.dimA.rows.toNat) (s.invEnding s.invResult) := by
  rw [bodyOf_matInv_of_shape hshape, State.withRegions_of_inRange]
  simpa using ⟨hA, hC⟩

/-- MAT.INV past every check: the verdict of `gj_inv`. -/
theorem bodyOf_matInv_of_written (hA : InRange s s.invA) (hC : InRange s s.invC) (hw : Written s s.invA) :
    bodyOf s .matInv = s.invEnding (gjInv s.tables
      (Mat.of s.dimA.rows.toNat s.dimA.rows.toNat (matByte s s.maBase s.dimA.rows.toNat)) s.dimA.rows.toNat) := by
  rw [bodyOf_matInv_of_inRange hshape hA hC, State.withWritten_of_written (invReads_written_iff.2 hw)]
  rfl

end

end Machine

namespace Proofs

open Machine Claims

/-- Settles O30: every check passes, and the stored image reads back. -/
theorem matMulStoresProduct : Obligations.MatMulStoresProduct := by
  intro s hinit hshape hA hB hC hCA hCB hwA hwB
  have hbody : bodyOf s .matMul = .success (s.store s.mulCells) := by
    rw [bodyOf_matMul_of_inRange hshape hA hB hC, withoutOverlap_of_clear (mulOverlap_eq_false_iff.2 ⟨hCA, hCB⟩),
      State.withWritten_of_written (mulReads_written_iff.2 ⟨hwA, hwB⟩)]
  obtain ⟨hsucc, hops, hinner⟩ := withSuccess_store_frame s s.mulCells
  refine ⟨_, exec_of_success (by simp) hinit hbody, hsucc, hops, hinner, sameOutside_store_matCells s _ _ _ _,
    fun i j hi hj => ?_⟩
  obtain ⟨-, -, -, -, hfit⟩ := hshape
  rw [← mulProduct_at hi hj hfit]
  exact byte?_setAll_matCells s.dmem _ _ hi hj

/-- Settles O31: check by check, each behind those before it. -/
theorem matMulChecksInOrder : Obligations.MatMulChecksInOrder := by
  intro s hinit
  refine ⟨fun hshape => ?shape, fun hshape hrange => ?range, fun hshape hA hB hC hover => ?overlap,
    fun hshape hA hB hC hCA hCB hunwritten => ?unwritten⟩
  case shape =>
    refine exec_of_error (by simp) hinit (if_pos ?_)
    rwa [← Bool.not_eq_false, mulMismatch_eq_false_iff]
  case range =>
    refine exec_of_error (by simp) hinit ?_
    rw [bodyOf_matMul_of_shapes hshape]
    have hex : ∃ r ∈ [s.mulA, s.mulB, s.mulC], ¬InRange s r := by
      by_contra hall
      push Not at hall
      exact hrange ⟨hall _ (by simp), hall _ (by simp), hall _ (by simp)⟩
    obtain ⟨r, hr, hout⟩ := hex
    exact State.withRegions_of_not_inRange hr hout _
  case overlap =>
    refine exec_of_modelFault (by simp) hinit ?_
    rw [bodyOf_matMul_of_inRange hshape hA hB hC, withoutOverlap_of_hazard]
    rwa [← Bool.not_eq_false, mulOverlap_eq_false_iff]
  case unwritten =>
    have hex : ∃ a ∈ s.mulReads, Memory.byte? s.dmem a = none := by
      by_contra hall
      push Not at hall
      exact hunwritten (mulReads_written_iff.1 hall)
    obtain ⟨a, ha, hnone⟩ := hex
    obtain ⟨b, hb, hbnone, hfault⟩ := State.withWritten_of_unwritten ha hnone (.success (s.store s.mulCells))
    refine ⟨b, exec_of_modelFault (by simp) hinit ?_, hbnone, ?_⟩
    · rw [bodyOf_matMul_of_inRange hshape hA hB hC, withoutOverlap_of_clear (mulOverlap_eq_false_iff.2 ⟨hCA, hCB⟩), hfault]
    · exact (List.mem_append.1 hb).imp mem_matAddrs_iff_has.1 mem_matAddrs_iff_has.1

/-- Settles O32: the operand is read before the image of its inverse is stored. -/
theorem matInvStoresInverse : Obligations.MatInvStoresInverse := by
  intro s X hinit hshape hA hC hw hX
  have hbody : bodyOf s .matInv = .success (s.store (s.invCells X)) := by
    rw [bodyOf_matInv_of_written hshape hA hC hw, hX]
    rfl
  obtain ⟨hsucc, hops, hinner⟩ := withSuccess_store_frame s (s.invCells X)
  exact ⟨_, exec_of_success (by simp) hinit hbody, hsucc, hops, hinner, sameOutside_store_matCells s _ _ _ _,
    fun i j hi hj => byte?_setAll_matCells s.dmem _ _ hi hj⟩

/-- Settles O33: check by check, each behind those before it. -/
theorem matInvChecksInOrder : Obligations.MatInvChecksInOrder := by
  intro s hinit
  refine ⟨fun hshape => ?shape, fun hshape hrange => ?range, fun hshape hA hC hunwritten => ?unwritten,
    fun hshape hA hC hw hnone => ?singular⟩
  case shape =>
    refine exec_of_error (by simp) hinit (if_pos ?_)
    rwa [← Bool.not_eq_false, invMismatch_eq_false_iff]
  case range =>
    refine exec_of_error (by simp) hinit ?_
    rw [bodyOf_matInv_of_shape hshape]
    rcases not_and_or.1 hrange with hA | hC
    · exact State.withRegions_of_not_inRange (by simp) hA _
    · exact State.withRegions_of_not_inRange (r := s.invC) (by simp) hC _
  case unwritten =>
    have hex : ∃ a ∈ matAddrs s.maBase s.dimA.rows.toNat s.dimA.rows.toNat, Memory.byte? s.dmem a = none := by
      by_contra hall
      push Not at hall
      exact hunwritten (invReads_written_iff.1 hall)
    obtain ⟨a, ha, hnone⟩ := hex
    obtain ⟨b, hb, hbnone, hfault⟩ := State.withWritten_of_unwritten ha hnone (s.invEnding s.invResult)
    refine ⟨b, exec_of_modelFault (by simp) hinit ?_, hbnone, mem_matAddrs_iff_has.1 hb⟩
    rw [bodyOf_matInv_of_inRange hshape hA hC, hfault]
  case singular =>
    refine exec_of_error (by simp) hinit ?_
    rw [bodyOf_matInv_of_written hshape hA hC hw, hnone]
    rfl

end Proofs
end Sys2Proof
end

section
/-! The context commands (42_codec_context.md R133-R137), check by check. -/
namespace Sys2Proof
namespace Machine

open Claims

theorem legalShape_iff {k m : Byte} : legalShape k m = true ↔ LegalCounts k.toNat m.toNat := by
  have hpos : ∀ b : Byte, b ≠ 0 ↔ 1 ≤ b.toNat := fun b => by
    rw [Nat.one_le_iff_ne_zero, ne_eq, ne_eq, ← BitVec.toNat_inj]
    rfl
  simp only [legalShape, Bool.and_eq_true, decide_eq_true_eq, and_assoc, hpos]
  rfl

section
variable {s : State} (hv : s.status.ctxValid = false) {k m : Byte}
include hv

theorem bodyOf_ctxCreate_of_legal (hkm : LegalCounts k.toNat m.toNat) :
    bodyOf s (.ctxCreate k m) = .success (s.withNewContext k m) := by
  simp [bodyOf, hv, legalShape_iff.2 hkm]

theorem bodyOf_ctxCreate_of_illegal (hkm : ¬LegalCounts k.toNat m.toNat) :
    bodyOf s (.ctxCreate k m) = .error .invalidParameters .noCause := by
  rw [← legalShape_iff] at hkm
  simp [bodyOf, hv, hkm]

end

theorem bodyOf_ctxGenstore_of_valid {s : State} (hv : s.status.ctxValid = true) :
    bodyOf s .ctxGenstore = s.withRegions [s.genRegion] (.success (s.store s.genCells)) :=
  State.withContext_of_valid hv _

end Machine

namespace Proofs

open Machine Claims

/-- Settles O37: the stored matrix is the one that was built. -/
theorem ctxCreateStoresGenerator : Obligations.CtxCreateStoresGenerator := by
  intro s k m hinit hv hkm
  refine ⟨_, exec_of_success (by simp) hinit (bodyOf_ctxCreate_of_legal hv hkm), rfl, rfl, rfl, fun r c hr hc => ?_,
    sameOperands_refl s, fun _ => rfl, rfl, rfl⟩
  exact State.genAt_of (buildGen_eq_of s.tables k.toNat m.toNat) hr hc

/-- Settles O38: the context check is the first of each body. -/
theorem contextChecksComeFirst : Obligations.ContextChecksComeFirst := by
  intro s k m hinit
  refine ⟨fun hv => exec_ctxCreate_of_valid hinit hv k m,
    fun hv hkm => exec_of_error (by simp) hinit (bodyOf_ctxCreate_of_illegal hv hkm), fun hv => ?_⟩
  exact ⟨exec_of_error (by simp) hinit (State.withContext_of_not_valid hv _),
    exec_of_error (by simp) hinit (State.withContext_of_not_valid hv _),
    exec_of_error (by simp) hinit (State.withContext_of_not_valid hv _),
    exec_of_error (by simp) hinit (State.withContext_of_not_valid hv _)⟩

/-- Settles O39: the body is the destruction of the context. -/
theorem ctxReleaseDestroysContext : Obligations.CtxReleaseDestroysContext := by
  intro s hinit hv
  exact ⟨_, exec_of_success (by simp) hinit (State.withContext_of_valid hv _), rfl, rfl, rfl, sameOperands_refl s,
    fun _ => rfl, rfl, rfl⟩

/-- Settles O40: one check, and one matrix image. -/
theorem genstoreCopiesGenerator : Obligations.GenstoreCopiesGenerator := by
  intro s hinit hv
  refine ⟨fun hrange => ?inRange, fun hrange => ?outOfRange⟩
  case inRange =>
    have hbody : bodyOf s .ctxGenstore = .success (s.store s.genCells) := by
      rw [bodyOf_ctxGenstore_of_valid hv, State.withRegions_of_inRange]
      exact fun r hr => List.mem_singleton.1 hr ▸ hrange
    obtain ⟨hsucc, hops, hinner⟩ := withSuccess_store_frame s s.genCells
    exact ⟨_, exec_of_success (by simp) hinit hbody, hsucc, hops, hinner, sameOutside_store_matCells s _ _ _ _,
      fun r c hr hc => byte?_setAll_matCells s.dmem _ _ hr hc⟩
  case outOfRange =>
    refine exec_of_error (by simp) hinit ?_
    rw [bodyOf_ctxGenstore_of_valid hv]
    exact State.withRegions_of_not_inRange (List.mem_singleton_self _) hrange _

end Proofs
end Sys2Proof
end

section
/-! The shards as regions (43_encode_reconstruct.md R150, R154; 20_memory.md R57): the overlap hazard, the bytes read and the
bytes stored, shard by shard, and which shards survive. -/
namespace Sys2Proof
namespace Machine

open Claims

variable {s : State}

/-! ## The checks on shards -/

theorem apart_symm {r q : Region} (h : Apart r q) : Apart q r := fun a ⟨hq, hr⟩ => h a ⟨hr, hq⟩

theorem dimsDisagree_eq_false_iff {nd np : Byte} :
    s.dimsDisagree nd np = false ↔ nd = s.ctx.k ∧ np = s.ctx.m ∧ s.blockSize ≠ 0 := by
  simp [State.dimsDisagree, and_assoc]

theorem shardRegions_not_inRange {i : Nat} (hi : i < s.K + s.M) (hout : ¬InRange s (s.shardRegion i)) (e : Ending) :
    s.withRegions s.shardRegions e = .error .addressError .noCause :=
  State.withRegions_of_not_inRange (State.shardRegion_mem_shardRegions hi) hout e

/-- The hazard is absent iff no shard to be written overlaps another one or a protected one (20_memory.md R57). -/
theorem shardOverlap_eq_false_iff {ws ps : List Nat} (hnodup : ws.Nodup) :
    overlapHazard (ws.map s.shardRegion) (ps.map s.shardRegion) = false ↔
      (∀ i ∈ ws, ∀ j ∈ ws, i ≠ j → ShardsDisjoint s i j) ∧ ∀ i ∈ ws, ∀ j ∈ ps, ShardsDisjoint s i j := by
  have hsymm : Std.Symm fun i j => ShardsDisjoint s i j := ⟨fun _ _ => apart_symm⟩
  simp only [overlapHazard_eq_false_iff, List.pairwise_map, List.forall_mem_map, overlaps_eq_false_iff_apart]
  exact and_congr_left' (hnodup.pairwise_coe (r := fun i j => ShardsDisjoint s i j)).symm

theorem mem_laneAddrs {shards : List Nat} {a : Nat} :
    a ∈ s.laneAddrs shards ↔ ∃ i ∈ shards, (s.shardRegion i).has a = true := by
  simp only [State.laneAddrs, List.mem_flatMap, List.mem_map, List.mem_range, Region.has_iff, State.shardRegion]
  constructor
  · rintro ⟨j, hj, i, hi, rfl⟩
    exact ⟨i, hi, by omega⟩
  · rintro ⟨i, hi, hle, hlt⟩
    exact ⟨a - s.shardAt i, by omega, i, hi, by omega⟩

theorem laneAddrs_written_iff {shards : List Nat} :
    (∀ a ∈ s.laneAddrs shards, Memory.byte? s.dmem a ≠ none) ↔ ∀ i ∈ shards, Written s (s.shardRegion i) := by
  simp only [mem_laneAddrs, written_iff]
  exact ⟨fun h i hi a ha => h a ⟨i, hi, ha⟩, fun h a ⟨i, hi, ha⟩ => h i hi a ha⟩

/-- The UninitRead verdict on shards that are not all written. -/
theorem withWritten_of_unwritten_shard {shards : List Nat} {i : Nat} (hi : i ∈ shards)
    (hw : ¬Written s (s.shardRegion i)) (e : Ending) :
    ∃ b, s.withWritten (s.laneAddrs shards) e = .modelFault (.uninitRead b) ∧ Memory.byte? s.dmem b = none ∧
      ∃ d ∈ shards, (s.shardRegion d).has b = true := by
  have hex : ∃ a ∈ s.laneAddrs shards, Memory.byte? s.dmem a = none := by
    by_contra hall
    push Not at hall
    exact hw (laneAddrs_written_iff.1 hall i hi)
  obtain ⟨a, ha, hnone⟩ := hex
  obtain ⟨b, hb, hbnone, hfault⟩ := State.withWritten_of_unwritten ha hnone e
  exact ⟨b, hfault, hbnone, mem_laneAddrs.1 hb⟩

/-! ## Stored shards -/

theorem shardRegion_has {i j : Nat} (hj : j < s.blockSize.toNat) :
    (s.shardRegion i).base ≤ s.shardAt i + j ∧ s.shardAt i + j < (s.shardRegion i).base + (s.shardRegion i).len := by
  simp only [State.shardRegion]
  omega

/-- Stored shards read back when they do not overlap. -/
theorem byte?_setAll_shardCells (m : Memory) {shards : List Nat} (f : Nat → Nat → Byte) {i j : Nat} (hi : i ∈ shards)
    (hj : j < s.blockSize.toNat) (hclear : ∀ i' ∈ shards, i ≠ i' → ShardsDisjoint s i i') :
    Memory.byte? (Memory.setAll m (s.shardCells shards f)) (s.shardAt i + j) = some (f i j) := by
  apply Memory.byte?_setAll_of_mem _ _ (State.mem_shardCells.2 ⟨i, hi, j, hj, rfl⟩)
  intro w hw
  obtain ⟨i', hi', j', hj', heq⟩ := State.mem_shardCells.1 hw
  obtain ⟨haddr, rfl⟩ := Prod.mk.inj heq
  by_cases hii : i = i'
  · subst hii
    obtain rfl : j = j' := by omega
    rfl
  · exact absurd ⟨shardRegion_has hj, haddr ▸ shardRegion_has hj'⟩ (hclear i' hi' hii (s.shardAt i + j))

/-- Stored shards change no byte outside them. -/
theorem sameOutsideShards_store {shards : List Nat} {p : Nat → Prop} (f : Nat → Nat → Byte)
    (hshards : ∀ i ∈ shards, i < s.K + s.M ∧ p i) :
    SameOutsideShards s (withSuccess (s.store (s.shardCells shards f))) p := by
  intro a ha
  refine Memory.byte?_setAll_other _ s.dmem fun c hc e => ?_
  obtain ⟨i, hi, hhas⟩ := State.shardRegion_has_of_mem_shardCells hc
  obtain ⟨hlt, hp⟩ := hshards i hi
  exact ha i hlt hp ((Region.has_iff _ a).1 (e ▸ hhas))

/-- A byte of a shard that overlaps no stored shard reads as before. -/
theorem shardByte?_of_sameOutsideShards {t : State} {p : Nat → Prop} (h : SameOutsideShards s t p) {i j : Nat}
    (hj : j < s.blockSize.toNat) (hclear : ∀ i', i' < s.K + s.M → p i' → ShardsDisjoint s i' i) :
    Memory.byte? t.dmem (s.shardAt i + j) = Memory.byte? s.dmem (s.shardAt i + j) :=
  h _ fun i' hi' hp hin => hclear i' hi' hp _ ⟨hin, shardRegion_has hj⟩

/-! ## Erased, intact and surviving shards (R154) -/

theorem mem_intactShards {i : Nat} : i ∈ s.intactShards ↔ i < s.K + s.M ∧ s.erased i = false := by
  simp [State.intactShards]

theorem erasedShards_nodup : s.erasedShards.Nodup := List.nodup_range.filter _

theorem survivors_nodup : s.survivors.Nodup := (List.nodup_range.filter _).sublist (List.take_sublist _ _)

section
variable (he : erasureCount s ≤ s.M)
include he

/-- Within the erasure budget there are `K` survivors. -/
theorem survivors_length : s.survivors.length = s.K := by
  have hsplit := List.length_eq_length_filter_add (l := List.range (s.K + s.M)) s.erased
  have hintact : s.intactShards.length = (List.filter (fun i => !s.erased i) (List.range (s.K + s.M))).length := rfl
  rw [List.length_range] at hsplit
  rw [State.survivors, List.length_take]
  have hcount : erasureCount s = (List.filter s.erased (List.range (s.K + s.M))).length := rfl
  omega

theorem survivor_eq_getElem {r : Nat} (hr : r < s.K) : s.survivor r = s.survivors[r]'(by rwa [survivors_length he]) :=
  List.getD_eq_getElem _ _ _

theorem mem_survivors_iff {i : Nat} : i ∈ s.survivors ↔ ∃ r, r < s.K ∧ s.survivor r = i := by
  rw [List.mem_iff_getElem]
  constructor
  · rintro ⟨r, hr, rfl⟩
    have hr' : r < s.K := survivors_length he ▸ hr
    exact ⟨r, hr', survivor_eq_getElem he hr'⟩
  · rintro ⟨r, hr, rfl⟩
    exact ⟨r, survivors_length he ▸ hr, (survivor_eq_getElem he hr).symm⟩

/-- A survivor is an intact shard. -/
theorem survivor_intact {r : Nat} (hr : r < s.K) : s.survivor r < s.K + s.M ∧ s.erased (s.survivor r) = false :=
  mem_intactShards.1 (List.mem_of_mem_take ((mem_survivors_iff he).2 ⟨r, hr, rfl⟩))

theorem choosesRows_survivor : ChoosesRows s.K s.M s.survivor := by
  refine ⟨fun r hr => (survivor_intact he hr).1, fun r r' hr hr' heq => ?_⟩
  rw [survivor_eq_getElem he hr, survivor_eq_getElem he hr'] at heq
  exact (survivors_nodup.getElem_inj_iff).1 heq

theorem survivors_written_iff :
    (∀ a ∈ s.laneAddrs s.survivors, Memory.byte? s.dmem a ≠ none) ↔
      ∀ r, r < s.K → Written s (s.shardRegion (s.survivor r)) := by
  rw [laneAddrs_written_iff]
  constructor
  · exact fun h r hr => h _ ((mem_survivors_iff he).2 ⟨r, hr, rfl⟩)
  · intro h i hi
    obtain ⟨r, hr, rfl⟩ := (mem_survivors_iff he).1 hi
    exact h r hr

end

/-! ## The overlap hazard of the two commands (20_memory.md R57) -/

theorem parityRegions_eq : s.parityRegions = ((List.range s.M).map (s.K + ·)).map s.shardRegion := by
  rw [List.map_map]
  rfl

theorem mem_parityShards {i : Nat} : i ∈ (List.range s.M).map (s.K + ·) ↔ s.K ≤ i ∧ i < s.K + s.M := by
  simp only [List.mem_map, List.mem_range]
  constructor
  · rintro ⟨j, hj, rfl⟩
    omega
  · exact fun h => ⟨i - s.K, by omega, by omega⟩

theorem encodeOverlap_eq_false_iff (nd np : Byte) :
    overlapHazard (writeRegions s (.rsEncode nd np)) (protectedRegions s (.rsEncode nd np)) = false ↔ EncodeClear s := by
  have hnodup : ((List.range s.M).map (s.K + ·)).Nodup := List.nodup_range.map fun _ _ h => Nat.add_left_cancel h
  rw [writeRegions, parityRegions_eq, protectedRegions, State.dataRegions, shardOverlap_eq_false_iff hnodup]
  simp only [mem_parityShards, List.mem_range, EncodeClear]
  constructor
  · rintro ⟨hparity, hdata⟩ i j hKi hi hj hij
    by_cases hKj : s.K ≤ j
    · exact hparity i ⟨hKi, hi⟩ j ⟨hKj, hj⟩ hij
    · exact hdata i ⟨hKi, hi⟩ j (by omega)
  · exact fun h => ⟨fun i hi j hj hij => h i j hi.1 hi.2 hj.2 hij, fun i hi j hj => h i j hi.1 hi.2 (by omega) (by omega)⟩

theorem reconstructOverlap_eq_false_iff (nd np : Byte) :
    overlapHazard (writeRegions s (.rsReconstruct nd np)) (protectedRegions s (.rsReconstruct nd np)) = false ↔
      ReconstructClear s := by
  rw [writeRegions, protectedRegions, shardOverlap_eq_false_iff erasedShards_nodup]
  simp only [State.mem_erasedShards, mem_intactShards, ReconstructClear]
  constructor
  · rintro ⟨herased, hintact⟩ i j hi hei hj hij
    cases hej : s.erased j with
    | true => exact herased i ⟨hi, hei⟩ j ⟨hj, hej⟩ hij
    | false => exact hintact i ⟨hi, hei⟩ j ⟨hj, hej⟩
  · refine fun h => ⟨fun i hi j hj hij => h i j hi.1 hi.2 hj.1 hij, fun i hi j hj => h i j hi.1 hi.2 hj.1 ?_⟩
    rintro rfl
    simp [hi.2] at hj

/-! ## RS.ENCODE past the shared checks (R152) -/

theorem bodyOf_rsEncode_of_codecReady {nd np : Byte} (h : CodecReady s nd np) :
    bodyOf s (.rsEncode nd np) =
      withoutOverlap (writeRegions s (.rsEncode nd np)) (protectedRegions s (.rsEncode nd np))
        (s.withWritten (s.laneAddrs (List.range s.K)) (.success (s.store s.parityCells))) := by
  have hdims := dimsDisagree_of_codecReady h
  have hregions := shardRegions_allInRange_of_codecReady h
  obtain ⟨-, hvalid, -⟩ := h
  rw [bodyOf, State.withContext_of_valid hvalid, hdims, if_neg Bool.false_ne_true, State.withRegions_of_inRange hregions]

/-! ## RS.RECONSTRUCT past the erasure budget (R156) -/

section
variable {nd np : Byte} (h : CodecReady s nd np) (he1 : 1 ≤ erasureCount s) (he : erasureCount s ≤ s.M)
include h he1 he

theorem exec_rsReconstruct_of_erasures :
    exec (.rsReconstruct nd np) s = s.finish (s.recoverEnding nd np (gjInv s.tables s.survivorMat s.K)) := by
  rw [exec_rsReconstruct_of_codecReady h, if_neg (by omega), if_neg (by omega)]

/-- With an invertible survivor matrix, the overlap verdict comes next. -/
theorem exec_rsReconstruct_of_inverse {Sinv : Mat} (hS : gjInv s.tables s.survivorMat s.K = some Sinv) :
    exec (.rsReconstruct nd np) s = s.finish (
      withoutOverlap (writeRegions s (.rsReconstruct nd np)) (protectedRegions s (.rsReconstruct nd np))
        (s.withWritten (s.laneAddrs s.survivors) (.success (s.store (s.recoveredCells Sinv))))) := by
  rw [exec_rsReconstruct_of_erasures h he1 he, hS]
  rfl

end

end Machine

namespace Proofs

open Machine Claims

/-- Settles O42: every check passes, and the parity shards read back. -/
theorem encodeStoresParity : Obligations.EncodeStoresParity := by
  intro s nd np hready hclear hw
  have hinit := hready.1
  have hbody : bodyOf s (.rsEncode nd np) = .success (s.store s.parityCells) := by
    rw [bodyOf_rsEncode_of_codecReady hready, withoutOverlap_of_clear ((encodeOverlap_eq_false_iff nd np).2 hclear),
      State.withWritten_of_written (laneAddrs_written_iff.2 fun d hd => hw d (List.mem_range.1 hd))]
  obtain ⟨hsucc, hops, hinner⟩ := withSuccess_store_frame s s.parityCells
  refine ⟨_, exec_of_success (by simp) hinit hbody, hsucc, hops, hinner,
    sameOutsideShards_store _ fun i hi => (mem_parityShards.1 hi).symm, fun i j hi hj => ?_⟩
  have hmem : s.K + i ∈ (List.range s.M).map (s.K + ·) := List.mem_map_of_mem (List.mem_range.2 hi)
  have hstored := byte?_setAll_shardCells s.dmem (fun i j => s.parity (i - s.K) j) hmem hj fun i' hi' hne => by
    obtain ⟨-, hlt⟩ := mem_parityShards.1 hi'
    exact hclear _ _ (by omega) (by omega) hlt hne
  rw [Nat.add_sub_cancel_left] at hstored
  exact hstored

/-- Settles O43: the checks that both commands share, then RS.ENCODE's two hazards. -/
theorem codecChecksInOrder : Obligations.CodecChecksInOrder := by
  intro s nd np hinit hv
  refine ⟨fun hdims => ?dims, fun hnd hnp hbs hout => ?range, fun hready hclear => ?overlap,
    fun hready hclear _ hunwritten => ?unwritten⟩
  case dims =>
    have hdis : s.dimsDisagree nd np = true := by rwa [← Bool.not_eq_false, dimsDisagree_eq_false_iff]
    exact ⟨exec_of_error (by simp) hinit ((State.withContext_of_valid hv _).trans (if_pos hdis)),
      exec_of_error (by simp) hinit ((State.withContext_of_valid hv _).trans (if_pos hdis))⟩
  case range =>
    obtain ⟨i, hi, hout⟩ := hout
    have hdims : ¬s.dimsDisagree nd np = true := by
      rw [dimsDisagree_eq_false_iff.2 ⟨hnd, hnp, hbs⟩]
      exact Bool.false_ne_true
    exact ⟨exec_of_error (by simp) hinit
        ((State.withContext_of_valid hv _).trans ((if_neg hdims).trans (shardRegions_not_inRange hi hout _))),
      exec_of_error (by simp) hinit
        ((State.withContext_of_valid hv _).trans ((if_neg hdims).trans (shardRegions_not_inRange hi hout _)))⟩
  case overlap =>
    refine exec_of_modelFault (by simp) hinit ?_
    rw [bodyOf_rsEncode_of_codecReady hready, withoutOverlap_of_hazard]
    rwa [← Bool.not_eq_false, encodeOverlap_eq_false_iff]
  case unwritten =>
    obtain ⟨d, hd, hw⟩ := hunwritten
    obtain ⟨b, hfault, hnone, d', hd', hhas⟩ :=
      withWritten_of_unwritten_shard (List.mem_range.2 hd) hw (.success (s.store s.parityCells))
    refine ⟨b, exec_of_modelFault (by simp) hinit ?_, hnone, d', List.mem_range.1 hd', hhas⟩
    rw [bodyOf_rsEncode_of_codecReady hready, withoutOverlap_of_clear ((encodeOverlap_eq_false_iff nd np).2 hclear),
      hfault]

/-- Settles O44: without an erased shard the body ends before any access. -/
theorem reconstructWithoutErasuresIsNoOp : Obligations.ReconstructWithoutErasuresIsNoOp := by
  intro s nd np hready hnone
  have hzero : erasureCount s = 0 := by
    rw [erasureCount, List.length_eq_zero_iff, List.filter_eq_nil_iff]
    exact fun i hi => by simp [hnone i (List.mem_range.1 hi)]
  refine ⟨withSuccess s, ?_, ⟨rfl, rfl⟩, sameOperands_refl s, ⟨rfl, rfl, rfl, rfl, rfl⟩, rfl⟩
  rw [exec_rsReconstruct_of_codecReady hready, if_neg (by omega), if_pos hzero, State.finish_success,
    State.complete_noError]

/-- Settles O46: every check passes, and the recovered shards read back. -/
theorem reconstructStoresRecoveredBytes : Obligations.ReconstructStoresRecoveredBytes := by
  intro s nd np Sinv hready he1 he hS hclear hw
  obtain ⟨hsucc, hops, hinner⟩ := withSuccess_store_frame s (s.recoveredCells Sinv)
  refine ⟨_, ?_, hsucc, hops, hinner, sameOutsideShards_store _ fun i hi => State.mem_erasedShards.1 hi,
    fun i j hi hei hj => ?_⟩
  · rw [exec_rsReconstruct_of_inverse hready he1 he hS,
      withoutOverlap_of_clear ((reconstructOverlap_eq_false_iff nd np).2 hclear),
      State.withWritten_of_written ((survivors_written_iff he).2 hw), State.finish_success, State.complete_noError]
  · exact byte?_setAll_shardCells s.dmem (s.recovered Sinv) (State.mem_erasedShards.2 ⟨hi, hei⟩) hj
      fun i' hi' hne => hclear i i' hi hei (State.mem_erasedShards.1 hi').1 hne

/-- Settles O47: the verdicts in the order of the pseudocode. -/
theorem reconstructFailsClosed : Obligations.ReconstructFailsClosed := by
  intro s nd np hready he1 he
  refine ⟨fun hnone => ?singular, fun hsome hclear => ?overlap, fun hsome hclear hunwritten => ?unwritten⟩
  case singular =>
    have hending : gjInv s.tables s.survivorMat s.K = none := hnone
    rw [exec_rsReconstruct_of_erasures hready he1 he, hending, State.recoverEnding, State.finish_error,
      State.complete_eq_withError s (by simp)]
  case overlap =>
    obtain ⟨Sinv, hS⟩ := Option.ne_none_iff_exists'.1 hsome
    rw [exec_rsReconstruct_of_inverse hready he1 he hS, withoutOverlap_of_hazard, State.finish_modelFault]
    rwa [← Bool.not_eq_false, reconstructOverlap_eq_false_iff]
  case unwritten =>
    obtain ⟨Sinv, hS⟩ := Option.ne_none_iff_exists'.1 hsome
    obtain ⟨r, hr, hw⟩ := hunwritten
    obtain ⟨b, hfault, hnone, i, hi, hhas⟩ := withWritten_of_unwritten_shard
      ((mem_survivors_iff he).2 ⟨r, hr, rfl⟩) hw (.success (s.store (s.recoveredCells Sinv)))
    obtain ⟨r', hr', rfl⟩ := (mem_survivors_iff he).1 hi
    refine ⟨b, ?_, hnone, r', hr', hhas⟩
    rw [exec_rsReconstruct_of_inverse hready he1 he hS,
      withoutOverlap_of_clear ((reconstructOverlap_eq_false_iff nd np).2 hclear), hfault, State.finish_modelFault]

end Proofs
end Sys2Proof
end

section
/-! Recovery (43_encode_reconstruct.md R155, R159, R161): the shards of a stripe are the rows of the generator matrix times the
data, and the inverse of the survivor matrix gives the data back from any `K` of them. -/
namespace Sys2Proof
namespace Machine

open Claims Safety

/-! ## Codewords -/

/-- The byte of shard `i` that the generator matrix makes of the data `D` (R151). -/
def codeByte (t : Tables) (k m : Nat) (D : Nat → Nat → Byte) (i j : Nat) : Byte :=
  xorSum k fun c => gfMul t (Mat.at (buildGen t k m) i c) (D c j)

/-- The context is live: the tables are those of a legal polynomial and GEN holds the matrix that was built. -/
structure LiveContext (s : State) (p : BitVec 9) : Prop where
  poly : p ∈ Config.legalPolys
  tables : s.tables = initTables p
  counts : LegalCounts s.K s.M
  gen : s.gen = buildGen (initTables p) s.K s.M

theorem gfPoly_mem_of_wellFormed {b : Build} (h : b.wellFormed = true) : b.gfPoly ∈ Config.legalPolys := by
  simp only [Build.wellFormed, Bool.and_eq_true] at h
  simpa using h.1.1

theorem liveContext_of_inv {s : State} (h : Inv s) (hv : s.status.ctxValid = true) : LiveContext s s.build.gfPoly := by
  obtain ⟨hinit, hshape, hgen⟩ := h.context.1 hv
  exact ⟨gfPoly_mem_of_wellFormed h.build, h.tables hinit, legalShape_iff.1 hshape, hgen⟩

section
variable {s : State} {p : BitVec 9} (h : LiveContext s p)
include h

theorem LiveContext.genAt {i c : Nat} (hi : i < s.K + s.M) (hc : c < s.K) :
    s.genAt i c = Mat.at (buildGen (initTables p) s.K s.M) i c :=
  State.genAt_of (h.gen.trans (buildGen_eq_of _ _ _)) hi hc

/-- A sum over a row of GEN is a codeword's byte. -/
theorem LiveContext.xorSum_genAt (D : Nat → Nat → Byte) {i : Nat} (hi : i < s.K + s.M) (j : Nat) :
    (xorSum s.K fun c => gfMul s.tables (s.genAt i c) (D c j)) = codeByte (initTables p) s.K s.M D i j :=
  xorSum_congr fun c hc => by rw [h.genAt hi hc, h.tables]

/-- The top of GEN is the identity, so the data shards are the data (R132). -/
theorem LiveContext.genAt_top {i c : Nat} (hi : i < s.K) (hc : c < s.K) : s.genAt i c = delta i c := by
  obtain ⟨F, _, e, he⟩ := exists_fieldModel h.poly
  rw [h.genAt (by omega) hc]
  exact buildGen_top he h.counts hi hc

end

/-- Summing against a row of the identity picks one term. -/
theorem xorSum_delta_mul {p : BitVec 9} (hp : p ∈ Config.legalPolys) {n r : Nat} (hr : r < n) (f : Nat → Byte) :
    (xorSum n fun c => gfMul (initTables p) (delta r c) (f c)) = f r := by
  rw [xorSum_single hr fun c _ hne => ?_]
  · rw [delta, if_pos rfl]
    exact gfMul_one_left hp (f r)
  · rw [delta, if_neg (Ne.symm hne)]
    exact gfMul_zero_left _ (f c)

theorem codeByte_top {p : BitVec 9} (hp : p ∈ Config.legalPolys) {k m i : Nat} (hkm : LegalCounts k m) (hi : i < k)
    (D : Nat → Nat → Byte) (j : Nat) : codeByte (initTables p) k m D i j = D i j := by
  obtain ⟨F, _, e, he⟩ := exists_fieldModel hp
  rw [codeByte, xorSum_congr fun c hc => by rw [buildGen_top he hkm hi hc]]
  exact xorSum_delta_mul hp hi fun c => D c j

theorem shardAt_of_sameOperands {s t : State} (h : SameOperands s t) (i : Nat) : t.shardAt i = s.shardAt i := by
  obtain ⟨-, -, -, -, -, -, -, -, -, hbase, -⟩ := h
  rw [State.shardAt, State.shardAt, hbase]

/-! ## Solving for the data (R155) -/

section
variable {s : State} {p : BitVec 9} (h : LiveContext s p) (hbudget : erasureCount s ≤ s.M)
include h hbudget

theorem survivorMat_at {r c : Nat} (hr : r < s.K) (hc : c < s.K) :
    Mat.at s.survivorMat r c = Mat.at (buildGen (initTables p) s.K s.M) (s.survivor r) c := by
  rw [State.survivorMat, Mat.at_of _ hr hc, h.genAt (survivor_intact hbudget hr).1 hc]

/-- The survivor matrix is never singular (R132 (c)). -/
theorem exists_survivor_inverse : ∃ Sinv, gjInv s.tables s.survivorMat s.K = some Sinv := by
  obtain ⟨F, _, e, he⟩ := exists_fieldModel h.poly
  refine Option.ne_none_iff_exists'.1 (h.tables ▸ gjInv_ne_none_of_det he ?_)
  have hrows : entries e s.K (Mat.at s.survivorMat) =
      entries e s.K fun r c => Mat.at (buildGen (initTables p) s.K s.M) (s.survivor r) c :=
    entries_congr e fun r c hr hc => survivorMat_at h hbudget hr hc
  rw [hrows]
  exact det_buildGen_rows he h.counts (choosesRows_survivor hbudget)

/-- From survivors that hold a codeword, the inverse gives its data back. -/
theorem recoveredData_eq {Sinv : Mat} (hS : gjInv s.tables s.survivorMat s.K = some Sinv) (D : Nat → Nat → Byte) {j : Nat}
    (hcode : ∀ r, r < s.K → s.shardByte (s.survivor r) j = codeByte (initTables p) s.K s.M D (s.survivor r) j)
    {c : Nat} (hc : c < s.K) : s.recoveredData Sinv c j = D c j := by
  obtain ⟨F, _, e, he⟩ := exists_fieldModel h.poly
  rw [h.tables] at hS
  have hinv := mul_eq_one_comm.1 (gjInv_eq_some he hS).2
  have hsurvivors : (fun r : Fin s.K => e (s.shardByte (s.survivor r) j)) =
      (entries e s.K (Mat.at s.survivorMat)).mulVec fun x => e (D x j) := by
    ext r
    rw [hcode r r.isLt, codeByte, he.map_xorSum, ← Fin.sum_univ_eq_sum_range]
    refine Finset.sum_congr rfl fun x _ => ?_
    rw [he.mul, ← survivorMat_at h hbudget r.isLt x.isLt]
    rfl
  have hsolved : e (s.recoveredData Sinv c j) =
      (entries e s.K (Mat.at Sinv)).mulVec (fun r => e (s.shardByte (s.survivor r) j)) ⟨c, hc⟩ := by
    rw [State.recoveredData, h.tables, he.map_xorSum, ← Fin.sum_univ_eq_sum_range]
    exact Finset.sum_congr rfl fun r _ => he.mul _ _
  apply he.inj
  rw [hsolved, hsurvivors, Matrix.mulVec_mulVec, hinv, Matrix.one_mulVec]

/-- RS.RECONSTRUCT on intact shards that hold a codeword: every shard holds it again (R161). -/
theorem exists_reconstruct_codeword {nd np : Byte} (hready : CodecReady s nd np) (hclear : ReconstructClear s)
    (D : Nat → Nat → Byte)
    (hcode : ∀ i j, i < s.K + s.M → s.erased i = false → j < s.blockSize.toNat →
      shardByte? s i j = some (codeByte (initTables p) s.K s.M D i j)) :
    ∃ v, exec (.rsReconstruct nd np) s = .next v ∧ v.status.err = false ∧
      ∀ i j, i < s.K + s.M → j < s.blockSize.toNat →
        shardByte? v i j = some (codeByte (initTables p) s.K s.M D i j) := by
  rcases Nat.eq_zero_or_pos (erasureCount s) with hzero | hpos
  · have hintact : ∀ i, i < s.K + s.M → s.erased i = false := by
      rw [erasureCount, List.length_eq_zero_iff, List.filter_eq_nil_iff] at hzero
      exact fun i hi => by simpa using hzero i (List.mem_range.2 hi)
    obtain ⟨v, hexec, ⟨-, hstatus⟩, hops, -, hdmem⟩ := Proofs.reconstructWithoutErasuresIsNoOp s nd np hready hintact
    refine ⟨v, hexec, by rw [hstatus], fun i j hi hj => ?_⟩
    rw [shardByte?, shardAt_of_sameOperands hops, hdmem]
    exact hcode i j hi (hintact i hi) hj
  · obtain ⟨Sinv, hS⟩ := exists_survivor_inverse h hbudget
    have hsurvivors : ∀ r, r < s.K → Written s (s.shardRegion (s.survivor r)) := by
      intro r hr a hle hlt
      obtain ⟨hi, hintact⟩ := survivor_intact hbudget hr
      obtain ⟨j, rfl⟩ := Nat.exists_eq_add_of_le hle
      have hbyte := hcode _ j hi hintact (by simpa [State.shardRegion] using hlt)
      exact fun hnone => by cases hbyte.symm.trans hnone
    obtain ⟨v, hexec, ⟨-, hstatus⟩, hops, -, houtside, hrec⟩ :=
      Proofs.reconstructStoresRecoveredBytes s nd np Sinv hready hpos hbudget hS hclear hsurvivors
    refine ⟨v, hexec, by rw [hstatus], fun i j hi hj => ?_⟩
    cases hei : s.erased i with
    | false =>
      rw [shardByte?, shardAt_of_sameOperands hops,
        shardByte?_of_sameOutsideShards houtside hj fun i' hi' hei' => hclear i' i hi' hei' hi ?_]
      · exact hcode i j hi hei hj
      · rintro rfl
        simp [hei] at hei'
    | true =>
      have hdata : ∀ c, c < s.K → s.recoveredData Sinv c j = D c j := fun c hc =>
        recoveredData_eq h hbudget hS D (fun r hr => by
          obtain ⟨hlt, hintact⟩ := survivor_intact hbudget hr
          exact congrArg (Option.getD · 0) (hcode _ j hlt hintact hj)) hc
      refine (hrec i j hi hei hj).trans (congrArg some ?_)
      rw [← h.xorSum_genAt D hi j]
      exact xorSum_congr fun c hc => congrArg _ (hdata c hc)

end

/-! ## Encoding makes a codeword -/

/-- What a successful RS.ENCODE required. -/
theorem encode_requirements {s t : State} {nd np : Byte} (hexec : exec (.rsEncode nd np) s = .next t)
    (herr : t.status.err = false) :
    CodecReady s nd np ∧ EncodeClear s ∧ ∀ d, d < s.K → Written s (s.shardRegion d) := by
  rcases exec_next_cases hexec with ⟨c, k, hc, -, rfl⟩ | ⟨hinit, t0, heff, rfl⟩
  · exact absurd herr (by simp [hc])
  · obtain ⟨hv, hdims, hrange, hclear, hw, -⟩ := heff
    obtain ⟨hnd, hnp, hbs⟩ := dimsDisagree_eq_false_iff.1 hdims
    exact ⟨⟨hinit (by simp), hv, hnd, hnp, hbs, fun i hi => hrange _ (State.shardRegion_mem_shardRegions hi)⟩,
      (encodeOverlap_eq_false_iff nd np).1 hclear,
      fun d hd => laneAddrs_written_iff.1 hw d (List.mem_range.2 hd)⟩

/-- After RS.ENCODE the shards hold the codeword of the data shards (R151, R152). -/
theorem encode_codeword {s t : State} {p : BitVec 9} {nd np : Byte} (h : LiveContext s p)
    (hexec : exec (.rsEncode nd np) s = .next t) (herr : t.status.err = false) {i j : Nat} (hi : i < s.K + s.M)
    (hj : j < s.blockSize.toNat) :
    shardByte? t i j = some (codeByte (initTables p) s.K s.M s.shardByte i j) := by
  obtain ⟨hready, hclear, hw⟩ := encode_requirements hexec herr
  obtain ⟨t', hexec', -, hops, -, houtside, hparity⟩ := Proofs.encodeStoresParity s nd np hready hclear hw
  obtain rfl : t = t' := Host.Outcome.next.inj (hexec.symm.trans hexec')
  by_cases hK : i < s.K
  · rw [codeByte_top h.poly h.counts hK, shardByte?, shardAt_of_sameOperands hops,
      shardByte?_of_sameOutsideShards houtside hj fun i' hi' hK' => hclear i' i hK' hi' hi (by omega)]
    obtain ⟨v, hv⟩ := Option.ne_none_iff_exists'.1 (hw i hK _ (shardRegion_has hj).1 (shardRegion_has hj).2)
    rw [hv, State.shardByte, Memory.byteAt, hv, Option.getD_some]
  · have hbyte := hparity (i - s.K) j (by omega) hj
    rwa [Nat.add_sub_cancel' (by omega), h.xorSum_genAt s.shardByte hi] at hbyte

/-! ## States with the same context and shards -/

/-- The build, the context, the tables, the block size and the shard bases are the same. -/
structure SameCodec (s u : State) : Prop where
  build : u.build = s.build
  initDone : u.status.initDone = s.status.initDone
  ctxValid : u.status.ctxValid = s.status.ctxValid
  ctx : u.ctx = s.ctx
  tables : u.tables = s.tables
  gen : u.gen = s.gen
  blockSize : u.blockSize = s.blockSize
  shardBase : u.shardBase = s.shardBase

theorem SameCodec.trans {s t u : State} (h : SameCodec s t) (h' : SameCodec t u) : SameCodec s u :=
  ⟨h'.build.trans h.build, h'.initDone.trans h.initDone, h'.ctxValid.trans h.ctxValid, h'.ctx.trans h.ctx,
    h'.tables.trans h.tables, h'.gen.trans h.gen, h'.blockSize.trans h.blockSize, h'.shardBase.trans h.shardBase⟩

/-- A storing command changes none of them. -/
theorem sameCodec_of_exec {s t : State} {i : Instr} (hi : isStoring i = true) (h : exec i s = .next t) :
    SameCodec s t := by
  obtain ⟨hops, hinner, -, -, hinit, hvalid, -⟩ := Proofs.storingCommandsFrame i s t hi h
  obtain ⟨hbuild, -, hblock, -, -, -, -, -, -, hbase, -⟩ := hops
  obtain ⟨htables, hctx, hgen, -⟩ := hinner
  exact ⟨hbuild, hinit, hvalid, hctx, htables, hgen, hblock, hbase⟩

section
variable {s u : State} (h : SameCodec s u)
include h

theorem SameCodec.K : u.K = s.K := by rw [State.K, State.K, h.ctx]

theorem SameCodec.M : u.M = s.M := by rw [State.M, State.M, h.ctx]

theorem SameCodec.shardRegion (i : Nat) : u.shardRegion i = s.shardRegion i := by
  rw [State.shardRegion, State.shardRegion, State.shardAt, State.shardAt, h.shardBase, h.blockSize]

theorem SameCodec.liveContext {p : BitVec 9} (hs : LiveContext s p) : LiveContext u p :=
  ⟨hs.poly, h.tables.trans hs.tables, by rw [h.K, h.M]; exact hs.counts, by rw [h.K, h.M, h.gen, hs.gen]⟩

theorem SameCodec.codecReady {nd np : Byte} (hs : CodecReady s nd np) : CodecReady u nd np := by
  simpa only [CodecReady, InRange, h.K, h.M, h.shardRegion, h.build, h.initDone, h.ctxValid, h.ctx, h.blockSize] using hs

end

/-! ## Only parity erased (R159) -/

section
variable {s : State} (hdata : ∀ i, i < s.K → s.erased i = false)
include hdata

theorem survivors_of_data_intact : s.survivors = List.range s.K := by
  have hfirst : List.filter (fun i => !s.erased i) (List.range s.K) = List.range s.K :=
    List.filter_eq_self.2 fun i hi => by simp [hdata i (List.mem_range.1 hi)]
  rw [State.survivors, State.intactShards, List.range_add, List.filter_append, hfirst]
  exact List.take_left' List.length_range

theorem survivor_of_data_intact {r : Nat} (hr : r < s.K) : s.survivor r = r := by
  simp [State.survivor, survivors_of_data_intact hdata, List.getD_eq_getElem?_getD, hr]

theorem erasureCount_of_data_intact : erasureCount s ≤ s.M := by
  have hfirst : List.filter s.erased (List.range s.K) = [] :=
    List.filter_eq_nil_iff.2 fun i hi => by simp [hdata i (List.mem_range.1 hi)]
  rw [erasureCount, List.range_add, List.filter_append, hfirst, List.nil_append]
  exact (List.length_filter_le _ _).trans (by simp)

theorem survivorMat_of_data_intact {p : BitVec 9} (h : LiveContext s p) : s.survivorMat = Mat.of s.K s.K delta :=
  Mat.of_congr fun r c hr hc => by rw [survivor_of_data_intact hdata hr, h.genAt_top hr hc]

end

/-- The identity is its own inverse. -/
theorem gjInv_delta {p : BitVec 9} (hp : p ∈ Config.legalPolys) (n : Nat) :
    gjInv (initTables p) (Mat.of n n delta) n = some (Mat.of n n delta) := by
  obtain ⟨F, _, e, he⟩ := exists_fieldModel hp
  have hone : entries e n (Mat.at (Mat.of n n delta)) = 1 :=
    (entries_congr e fun _ _ hr hc => Mat.at_of _ hr hc).trans (entries_delta he n)
  have hsome : gjInv (initTables p) (Mat.of n n delta) n ≠ none :=
    gjInv_ne_none_of_det he (by rw [hone, Matrix.det_one]; exact one_ne_zero)
  obtain ⟨X, hX⟩ := Option.ne_none_iff_exists'.1 hsome
  obtain ⟨hXof, hmul⟩ := gjInv_eq_some he hX
  rw [hone, one_mul, ← entries_delta he n] at hmul
  rw [hX, hXof]
  exact congrArg some (Mat.of_congr fun r c hr hc => he.inj (congrFun (congrFun hmul ⟨r, hr⟩) ⟨c, hc⟩))

end Machine

namespace Proofs

open Machine Claims Safety

/-- Settles O48: the survivors are the data shards, so the data is solved for by the identity. -/
theorem parityOnlyRecoveryEqualsEncode : Obligations.ParityOnlyRecoveryEqualsEncode := by
  intro s nd np hinv hready hdata he1 hclear hw
  have hlive := liveContext_of_inv hinv hready.2.1
  have hbudget := erasureCount_of_data_intact hdata
  have hmat := survivorMat_of_data_intact hdata hlive
  have hsolve : gjInv s.tables s.survivorMat s.K = some (Mat.of s.K s.K delta) := by
    rw [hmat, hlive.tables]
    exact gjInv_delta hlive.poly s.K
  have hrecovered : ∀ c j, c < s.K → s.recoveredData (Mat.of s.K s.K delta) c j = s.shardByte c j := by
    intro c j hc
    rw [State.recoveredData, hlive.tables, ← xorSum_delta_mul hlive.poly hc fun r => s.shardByte r j]
    exact xorSum_congr fun r hr => by rw [Mat.at_of _ hc hr, survivor_of_data_intact hdata hr]
  refine ⟨survivors_of_data_intact hdata, hmat, hsolve, hrecovered, ?_⟩
  obtain ⟨t, hexec, hsucc, -, -, -, hbytes⟩ := reconstructStoresRecoveredBytes s nd np _ hready he1 hbudget hsolve hclear
    fun r hr => (survivor_of_data_intact hdata hr).symm ▸ hw r hr
  refine ⟨t, hexec, hsucc, fun i j hi hei hj => (hbytes _ j (by omega) hei hj).trans (congrArg some ?_)⟩
  exact xorSum_congr fun c hc => congrArg _ (hrecovered c j hc)

/-- Settles O49: RS.ENCODE leaves a codeword, and any `K` of its shards determine the others. -/
theorem encodeEraseReconstructRoundTrip : Obligations.EncodeEraseReconstructRoundTrip := by
  intro s t u nd np hinv hexec herr hbuild hinit hvalid hctx htables hgen hblock hbase hbudget hclear hsame
  have hst : SameCodec s t := sameCodec_of_exec rfl hexec
  have hsu : SameCodec s u := hst.trans ⟨hbuild, hinit, hvalid, hctx, htables, hgen, hblock, hbase⟩
  obtain ⟨hready, -, -⟩ := encode_requirements hexec herr
  have hlive := liveContext_of_inv hinv hready.2.1
  rw [hst.K, hst.M, hst.blockSize] at hsame ⊢
  obtain ⟨v, hexecv, herrv, hbytes⟩ := exists_reconstruct_codeword (hsu.liveContext hlive) hbudget
    (hsu.codecReady hready) hclear s.shardByte fun i j hi hei hj => by
      rw [hsu.K, hsu.M] at hi ⊢
      rw [hsu.blockSize] at hj
      rw [hsame i j hi hei hj, encode_codeword hlive hexec herr hi hj]
  rw [hsu.K, hsu.M, hsu.blockSize] at hbytes
  exact ⟨v, hexecv, herrv, fun i j hi hj => (hbytes i j hi hj).trans (encode_codeword hlive hexec herr hi hj).symm⟩

end Proofs
end Sys2Proof
end

section
/-! The schedule (60_exceptions.md R187, 70_reset_and_hazards.md R197) and reset (R190-R192): what the next event is, how a
running command ends, and what asserting and releasing `rst` do. -/
namespace Sys2Proof
namespace Machine

open Claims Safety

/-! ## What moves next -/

theorem step_of_nil {s : State} (h : s.events = []) : step s = completeRunning s := by
  simp [step, stepSchedule, h]

theorem step_of_cons {s : State} {e : Event} {es : List Event} (h : s.events = e :: es) :
    step s = stepEvent e { s with events := es } := by
  simp [step, stepSchedule, h]

theorem completeRunning_of_idle {s : State} (h : s.runCmd = none) : completeRunning s = .next s := by
  simp [completeRunning, h]

theorem completeRunning_of_decode {s : State} {w : Word} {i : Instr} (hw : s.runCmd = some w) (hd : decode w = .ok i) :
    completeRunning s = exec i s :=
  (completeRunning_of_runCmd hw).trans (completeWord_of_ok hd s)

/-- A running illegal word completes with IllegalCommand (30_encoding.md R74). -/
theorem completeRunning_of_illegal {s : State} {w : Word} {e : IllegalWord} (hw : s.runCmd = some w)
    (hd : decode w = .error e) : completeRunning s = .next (withError s .illegalCommand .noCause) := by
  rw [completeRunning_of_runCmd hw, completeWord_of_error hd, State.complete_eq_withError s (by simp)]

/-! ## How a running command ends -/

/-- HostRace is no command's fault (20_memory.md R60). -/
def Ending.RaceFree (a : Ending) : Prop := a ≠ .modelFault .hostRace

theorem raceFree_success (t : State) : (Ending.success t).RaceFree := nofun
theorem raceFree_error (c : ErrCode) (k : ErrCause) : (Ending.error c k).RaceFree := nofun

theorem raceFree_ite {p : Prop} [Decidable p] {a b : Ending} (ha : a.RaceFree) (hb : b.RaceFree) :
    (if p then a else b).RaceFree := by
  split <;> assumption

theorem raceFree_withContext {s : State} {a : Ending} (ha : a.RaceFree) : (s.withContext a).RaceFree :=
  raceFree_ite ha (raceFree_error _ _)

theorem raceFree_withRegions {s : State} {rs : List Region} {a : Ending} (ha : a.RaceFree) :
    (s.withRegions rs a).RaceFree :=
  raceFree_ite ha (raceFree_error _ _)

theorem raceFree_withoutOverlap {ws ps : List Region} {a : Ending} (ha : a.RaceFree) :
    (withoutOverlap ws ps a).RaceFree :=
  raceFree_ite nofun ha

theorem raceFree_withWritten {s : State} {as : List Nat} {a : Ending} (ha : a.RaceFree) :
    (s.withWritten as a).RaceFree := by
  unfold State.withWritten
  split
  · nofun
  · exact ha

theorem raceFree_quotient (s : State) (q : Option Byte) : (s.quotient q).RaceFree := by
  cases q <;> nofun

theorem raceFree_bodyOf (s : State) (i : Instr) : (bodyOf s i).RaceFree := by
  cases i with
  | init | gfAdd | gfMul | gfExp => exact raceFree_success _
  | gfDiv | gfInv => exact raceFree_quotient _ _
  | gfLog => exact raceFree_ite (raceFree_error _ _) (raceFree_success _)
  | matMul =>
    exact raceFree_ite (raceFree_error _ _)
      (raceFree_withRegions (raceFree_withoutOverlap (raceFree_withWritten (raceFree_success _))))
  | matInv =>
    refine raceFree_ite (raceFree_error _ _) (raceFree_withRegions (raceFree_withWritten ?_))
    cases s.invResult with
    | none => exact raceFree_error _ _
    | some X => exact raceFree_success _
  | ctxCreate =>
    exact raceFree_ite (raceFree_error _ _) (raceFree_ite (raceFree_success _) (raceFree_error _ _))
  | ctxRelease => exact raceFree_withContext (raceFree_success _)
  | ctxGenstore => exact raceFree_withContext (raceFree_withRegions (raceFree_success _))
  | rsEncode =>
    exact raceFree_withContext (raceFree_ite (raceFree_error _ _)
      (raceFree_withRegions (raceFree_withoutOverlap (raceFree_withWritten (raceFree_success _)))))
  | rsReconstruct =>
    refine raceFree_withContext (raceFree_ite (raceFree_error _ _) (raceFree_withRegions
      (raceFree_ite (raceFree_error _ _) (raceFree_ite (raceFree_success _) ?_))))
    cases gjInv s.tables s.survivorMat s.K with
    | none => exact raceFree_error _ _
    | some Sinv => exact raceFree_withoutOverlap (raceFree_withWritten (raceFree_success _))

theorem exec_ne_hostRace (i : Instr) (s : State) : exec i s ≠ .fault .hostRace := by
  intro h
  have hbody : ∀ a : Ending, s.finish a = .fault .hostRace → a = .modelFault .hostRace := fun a ha => by
    cases a with
    | success | error => cases ha
    | modelFault f => cases ha; rfl
  by_cases hi : i = .init
  · subst hi
    exact raceFree_bodyOf s .init (hbody _ h)
  · rw [exec_of_ne_init hi, State.afterInit] at h
    split at h
    · exact raceFree_bodyOf s i (hbody _ h)
    · cases h

/-! ## Reset -/

/-- The words of the registers do not show the schedule and the reset input. -/
theorem csrValue_withEvents (s : State) (es : List Event) (b : Bool) (r : Csr) :
    ({ s with events := es, rst := b } : State).csrValue r = s.csrValue r := by
  cases r <;> rfl

/-- Asserting `rst` gives every register its reset word (10_state.md R42). -/
theorem csrValue_assertReset (s : State) (r : Csr) : s.assertReset.csrValue r = resetWord s.build r := by
  rw [← State.csrValue_reset_of_build]
  cases r <;> rfl

theorem csrOffset_eq_specOffset (r : Csr) : csrOffset r = specOffset r := by cases r <;> rfl

/-- Out of reset, a 32-bit host read at a register's offset returns the register (10_state.md R22). -/
theorem hostCsrRead_csrOffset {s : State} (hrst : s.rst = false) (r : Csr) :
    hostCsrRead (BitVec.ofNat 12 (csrOffset r)) 4 s = s.respond (.data (s.csrValue r)) := by
  obtain ⟨hlt, halign⟩ := csrOffset_legal r
  have hoff : (BitVec.ofNat 12 (csrOffset r)).toNat = csrOffset r := Nat.mod_eq_of_lt hlt
  have hlegal : csrAccessLegal (BitVec.ofNat 12 (csrOffset r)) 4 = true := by simp [csrAccessLegal, hoff, halign]
  simp [hostCsrRead, hrst, hlegal, hoff]

/-- While `rst` is asserted a CSR access gets no response and has no effect (R190). -/
theorem hostCsrRead_of_rst {s : State} (hrst : s.rst = true) (off : BitVec 12) (n : Nat) :
    hostCsrRead off n s = s.respond .noResponse := by
  simp [hostCsrRead, hrst]

theorem hostCsrWrite_of_rst {s : State} (hrst : s.rst = true) (off : BitVec 12) (n : Nat) (v : Word) :
    hostCsrWrite off n v s = s.respond .noResponse := by
  simp [hostCsrWrite, hrst]

/-- The bytes of the regions read as unwritten, and every other byte as before (R191). -/
theorem byte?_foldl_forget (rs : List Region) (m : Memory) (a : Nat) :
    Memory.byte? (rs.foldl Memory.forget m) a =
      if ∃ r ∈ rs, r.base ≤ a ∧ a < r.base + r.len then none else Memory.byte? m a := by
  induction rs generalizing m with
  | nil => simp
  | cons r rs ih =>
    rw [List.foldl_cons, ih, Memory.byte?_forget]
    by_cases hrest : ∃ q ∈ rs, q.base ≤ a ∧ a < q.base + q.len
    · obtain ⟨q, hq, hin⟩ := hrest
      rw [if_pos ⟨q, hq, hin⟩, if_pos ⟨q, List.mem_cons_of_mem r hq, hin⟩]
    · simp [hrest]

theorem abortedRegions_of_idle {s : State} (h : s.status.busy = false) : s.abortedRegions = [] := by
  unfold State.abortedRegions
  cases s.running <;> simp [h]

theorem abortedRegions_of_illegal {s : State} (h : s.running = none) : s.abortedRegions = [] := by
  simp [State.abortedRegions, h]

theorem abortedRegions_of_running {s : State} {i : Instr} (hbusy : s.status.busy = true) (h : s.running = some i) :
    s.abortedRegions = writeRegions s i := by
  simp [State.abortedRegions, h, hbusy]

end Machine

namespace Proofs

open Machine Claims Safety

/-- Settles O9: a body ends in a completion or in one of its two model faults. -/
theorem runningCommandCompletes : Obligations.RunningCommandCompletes := by
  intro s w hw hnil
  rw [step_of_nil hnil]
  cases hd : decode w with
  | error e =>
    exact .inl ⟨_, completeRunning_of_illegal hw hd, rfl, rfl, rfl⟩
  | ok i =>
    rw [completeRunning_of_decode hw hd]
    cases hexec : exec i s with
    | next t =>
      rcases exec_next_cases hexec with ⟨c, k, -, -, rfl⟩ | ⟨-, t0, -, rfl⟩
      · exact .inl ⟨_, rfl, rfl, rfl, rfl⟩
      · exact .inl ⟨_, rfl, rfl, rfl, rfl⟩
    | fault f =>
      cases f with
      | uninitRead a => exact .inr (.inl ⟨a, rfl⟩)
      | overlapHazard => exact .inr (.inr rfl)
      | hostRace => exact absurd hexec (exec_ne_hostRace i s)
    | refused r => exact absurd hexec (exec_not_refused i s r)

/-- Settles O7: the turn and the scheduled event are both the complete step of the running word. -/
theorem stepRunsDecodedCommand : Obligations.StepRunsDecodedCommand := by
  refine ⟨fun s w i hw hd => ⟨fun hnil => ?_, fun es hes => ?_⟩, fun s w i hlt hd => ?fetched,
    fun s w e hw hd => ⟨fun hnil => ?_, fun es hes => ?_⟩⟩
  · rw [step_of_nil hnil, completeRunning_of_decode hw hd]
  · rw [step_of_cons hes]
    exact completeRunning_of_decode (s := { s with events := es }) hw hd
  case fetched =>
    rw [State.withFetchWord, Nat.mod_eq_of_lt hlt, step_of_cons (State.withCommand_events s _)]
    exact completeRunning_of_decode (s := s.accept (BitVec.ofNat 32 w)) rfl hd
  · rw [step_of_nil hnil, completeRunning_of_illegal hw hd]
  · rw [step_of_cons hes]
    exact completeRunning_of_illegal (s := { s with events := es }) hw hd

/-- Settles O8: BUSY = 0 says that no command runs. -/
theorem idleCoreKeepsState : Obligations.IdleCoreKeepsState := by
  rintro s ⟨hbusy, -⟩ hidle hnil
  rw [step_of_nil hnil]
  exact completeRunning_of_idle (by simpa [hidle] using hbusy)

/-- Settles O4: the two branches of the CMD write. -/
theorem cmdWriteIsAcceptedOrDropped : Obligations.CmdWriteIsAcceptedOrDropped := by
  intro s v hrst
  refine (step_writeAt_csrOffset hrst .cmd v).trans (congrArg Host.Outcome.next ?_)
  rw [State.csrStore, State.writeCmd]
  split <;> rfl

/-- Settles O2: the registers read as in the reset state, and the two events are single updates. -/
theorem assertingResetSetsEveryRegister : Obligations.AssertingResetSetsEveryRegister := by
  refine ⟨fun s es hes => ?asserted, fun s off n v hrst => ?under, fun s es hes => ?released, fun s r hes => ?read,
    fun s es hes => ?both⟩
  case asserted =>
    exact ⟨_, step_of_cons hes, csrValue_assertReset { s with events := es }, rfl, rfl, rfl, rfl, rfl⟩
  case under =>
    exact ⟨congrArg _ (hostCsrRead_of_rst hrst off n), congrArg _ (hostCsrWrite_of_rst hrst off n v)⟩
  case released => exact step_of_cons hes
  case read =>
    refine ⟨_, step_of_cons hes, ?_⟩
    rw [← csrValue_withEvents s [] false, ← csrOffset_eq_specOffset]
    exact congrArg Host.Outcome.next (hostCsrRead_csrOffset (s := { s with events := [], rst := false }) rfl r)
  case both =>
    have hrelease : ({ s with events := .releaseReset :: es } : State).assertReset.events = .releaseReset :: es := rfl
    refine ⟨_, _, step_of_cons hes, step_of_cons hrelease, rfl, rfl, rfl, rfl, rfl, rfl, fun r => ?_⟩
    exact (csrValue_withEvents _ es false r).trans (csrValue_assertReset { s with events := .releaseReset :: es } r)

/-- Settles O3: reset forgets the regions of the aborted command, which only a legal command has. -/
theorem resetUnwritesOnlyAbortedWriteRegions : Obligations.ResetUnwritesOnlyAbortedWriteRegions := by
  refine ⟨Memory.byte?_nil, fun s t es hes hstep => ?_⟩
  rw [step_of_cons hes] at hstep
  cases hstep
  have hdmem : ({ s with events := es } : State).assertReset.dmem = s.abortedRegions.foldl Memory.forget s.dmem := rfl
  refine ⟨fun hidle a => ?_, fun _ hillegal a => ?_, fun i hbusy hrun a => ?_⟩
  · rw [hdmem, abortedRegions_of_idle hidle, List.foldl_nil]
  · rw [hdmem, abortedRegions_of_illegal hillegal, List.foldl_nil]
  · rw [hdmem, abortedRegions_of_running hbusy hrun, byte?_foldl_forget]

end Proofs
end Sys2Proof
end

section
/-! The CSR window (10_state.md R22-R37): the words of the registers, which accesses it ignores or refuses, and what a write
to an operand register changes. -/
namespace Sys2Proof
namespace Machine

open Claims Safety

/-! ## Which offsets name a register -/

theorem specOffset_injective {r q : Csr} (h : specOffset r = specOffset q) : r = q := by
  rw [← csrOffset_eq_specOffset, ← csrOffset_eq_specOffset] at h
  exact Option.some_injective _ (by rw [← csrAt_csrOffset r, h, csrAt_csrOffset q])

theorem csrAt_of_reserved {off : Nat} (halign : off % 4 = 0) (h : ∀ r : Csr, specOffset r ≠ off) : csrAt off = none :=
  csrAt_eq_none (fun r => csrOffset_eq_specOffset r ▸ h r) halign

theorem csrAccessLegal_iff {off : BitVec 12} {n : Nat} : csrAccessLegal off n = true ↔ n = 4 ∧ off.toNat % 4 = 0 := by
  simp [csrAccessLegal]

/-- A reserved offset reads as 0 (R22). -/
theorem hostCsrRead_of_reserved {s : State} {off : BitVec 12} (hrst : s.rst = false) (halign : off.toNat % 4 = 0)
    (h : csrAt off.toNat = none) : hostCsrRead off 4 s = s.respond (.data 0) := by
  simp [hostCsrRead, hrst, csrAccessLegal_iff.2 ⟨rfl, halign⟩, h]

theorem hostCsrRead_of_illegal {s : State} {off : BitVec 12} {n : Nat} (hrst : s.rst = false)
    (h : ¬(n = 4 ∧ off.toNat % 4 = 0)) : hostCsrRead off n s = s.respond .busError := by
  simp [hostCsrRead, hrst, mt csrAccessLegal_iff.1 h]

/-- A reserved offset ignores a write (R22). -/
theorem hostCsrWrite_of_reserved {s : State} {off : BitVec 12} {v : Word} (hrst : s.rst = false)
    (halign : off.toNat % 4 = 0) (h : csrAt off.toNat = none) : hostCsrWrite off 4 v s = s.respond .written := by
  simp [hostCsrWrite, hrst, csrAccessLegal_iff.2 ⟨rfl, halign⟩, h]

theorem hostCsrWrite_of_illegal {s : State} {off : BitVec 12} {n : Nat} {v : Word} (hrst : s.rst = false)
    (h : ¬(n = 4 ∧ off.toNat % 4 = 0)) : hostCsrWrite off n v s = s.respond .busError := by
  simp [hostCsrWrite, hrst, mt csrAccessLegal_iff.1 h]

theorem csrStore_of_readOnly (s : State) (v : Word) {r : Csr} (h : r = .id ∨ r = .param ∨ r = .result ∨ r = .ctx) :
    s.csrStore v r = s := by
  rcases h with rfl | rfl | rfl | rfl <;> rfl

/-! ## Where the windows stand on the bus -/

theorem busWindow_outside {b : Build} {addr : Nat} (hcsr : ¬InCsrWindow addr)
    (hmem : ¬(Config.dmemBase ≤ addr ∧ addr < Config.dmemBase + 2 ^ b.addrW.toNat)) (csr : BitVec 12 → HostAccess)
    (mem : Nat → HostAccess) : busWindow b addr csr mem = none :=
  (if_neg hcsr).trans (if_neg hmem)

/-- A bus access that a window of the core answers is that window's access (00_scope.md R6). -/
theorem step_bus_of_target {s : State} {x : BusAccess} {y : HostAccess} (h : busTarget s.build x = some y) :
    step (scheduled s (.bus x)) = step (scheduled s (.host y)) := by
  change busAccess x { s with events := [] } = hostAccess y { s with events := [] }
  rw [busAccess]
  simp only [h]

theorem step_bus_of_outside {s : State} {x : BusAccess} (h : busTarget s.build x = none) :
    step (scheduled s (.bus x)) = .next { s with events := [], resp := .noResponse } := by
  change busAccess x { s with events := [] } = _
  rw [busAccess]
  simp only [h]
  rfl

/-! ## The words of the registers -/

theorem Status.word_toNat (f : Status) :
    f.word.toNat = f.busy.toNat + 2 * f.done.toNat + 4 * f.err.toNat + 8 * f.overrun.toNat + 16 * f.initDone.toNat +
      32 * f.ctxValid.toNat + 256 * f.errCode.bits.toNat + 4096 * f.errCause.bits.toNat := by
  simp only [Status.word, toNat_append_eq, BitVec.toNat_ofBool, show (0 : BitVec 16).toNat = 0 from rfl,
    show (0 : BitVec 2).toNat = 0 from rfl]
  omega

theorem csrValue_ctrl_toNat (s : State) : (s.csrValue .ctrl).toNat = s.irqEn.toNat := by
  rw [State.csrValue, toNat_append_eq, BitVec.toNat_ofBool]
  simp

theorem csrValue_result_toNat (s : State) : (s.csrValue .result).toNat = s.result.toNat :=
  BitVec.toNat_setWidth_of_le (by omega)

theorem csrValue_ctx_toNat (s : State) : (s.csrValue .ctx).toNat = s.K + 256 * s.M := by
  simp only [State.csrValue, toNat_append_eq, State.K, State.M, show (0 : BitVec 16).toNat = 0 from rfl]
  omega

/-- Bit `b` of `ERASEw` is the flag of shard `32 w + b` (R35). -/
theorem csrValue_erase_getLsbD (s : State) (w : Fin 8) {b : Nat} (hb : b < 32) :
    (s.csrValue (.erase w)).getLsbD b = s.erased (32 * w.val + b) := by
  have hdiv : (32 * w.val + b) / 32 = w.val := by omega
  have hmod : (32 * w.val + b) % 32 = b := by omega
  rw [State.erased, hdiv, hmod, Vector.getElem?_eq_getElem w.isLt]
  rfl

theorem csrValue_shardBase_toNat (s : State) (i : Fin 256) : (s.csrValue (.shardBase i)).toNat = s.shardAt i.val := by
  rw [State.shardAt, Vector.getElem?_eq_getElem i.isLt]
  rfl

/-- A shape register holds the defined bits of the word written (R34). -/
theorem Dim.word_ofWord (v : Word) : (Dim.ofWord v).word = v &&& 0x01FF01FF := by
  refine BitVec.eq_of_getLsbD_eq fun j hj => ?_
  have hmask : (0x01FF01FF : Word).getLsbD j = (decide (j < 9) || decide (16 ≤ j ∧ j < 25)) := by
    revert j
    decide
  have hgap (i : Nat) : (0 : BitVec 7).getLsbD i = false := BitVec.getLsbD_zero
  rw [BitVec.getLsbD_and, hmask, Dim.word, Dim.ofWord]
  simp only [BitVec.getLsbD_append, BitVec.getLsbD_extractLsb', hgap]
  grind

/-! ## A write to an operand register -/

theorem lockedWrite_of_busy {s t : State} (h : s.status.busy = true) : s.lockedWrite t = s.dropWrite := if_pos h

theorem lockedWrite_of_idle {s t : State} (h : s.status.busy = false) : s.lockedWrite t = t := by
  simp [State.lockedWrite, h]

theorem csrStore_of_busy {s : State} (v : Word) {r : Csr} (hr : isLocked r = true) (h : s.status.busy = true) :
    s.csrStore v r = s.dropWrite := by
  cases r with
  | id | param | ctrl | status | cmd | result | ctx => cases hr
  | _ => exact lockedWrite_of_busy h

/-- An idle core takes the write: the register shows the word, or of DIMA and DIMB the defined bits (R32-R36). -/
theorem csrValue_csrStore_same {s : State} (v : Word) {r : Csr} (hr : isLocked r = true) (h : s.status.busy = false) :
    (s.csrStore v r).csrValue r = if r = .dimA ∨ r = .dimB then v &&& 0x01FF01FF else v := by
  cases r with
  | id | param | ctrl | status | cmd | result | ctx => cases hr
  | blockSize | maBase | mbBase | mcBase => simp [State.csrStore, lockedWrite_of_idle h, State.csrValue]
  | dimA | dimB => simp [State.csrStore, lockedWrite_of_idle h, State.csrValue, Dim.word_ofWord]
  | erase w => simp [State.csrStore, lockedWrite_of_idle h, State.csrValue]
  | shardBase i => simp [State.csrStore, lockedWrite_of_idle h, State.csrValue]

theorem csrValue_csrStore_other {s : State} (v : Word) {r q : Csr} (hr : isLocked r = true)
    (h : s.status.busy = false) (hq : q ≠ r) : (s.csrStore v r).csrValue q = s.csrValue q := by
  cases r with
  | id | param | ctrl | status | cmd | result | ctx => cases hr
  | erase w =>
    rw [State.csrStore, lockedWrite_of_idle h]
    cases q with
    | erase x =>
      have hne : w.val ≠ x.val := fun e => hq (congrArg Csr.erase (Fin.ext e.symm))
      exact Vector.getElem_set_ne w.isLt x.isLt hne
    | _ => rfl
  | shardBase i =>
    rw [State.csrStore, lockedWrite_of_idle h]
    cases q with
    | shardBase j =>
      have hne : i.val ≠ j.val := fun e => hq (congrArg Csr.shardBase (Fin.ext e.symm))
      exact Vector.getElem_set_ne i.isLt j.isLt hne
    | _ => rfl
  | _ =>
    rw [State.csrStore, lockedWrite_of_idle h]
    cases q <;> simp_all [State.csrValue]

/-- A write to an operand register touches no register but its own: not STATUS, CMD, memory, tables or context. -/
theorem csrStore_frame {s : State} (v : Word) {r : Csr} (hr : isLocked r = true) (h : s.status.busy = false) :
    (s.csrStore v r).status = s.status ∧ (s.csrStore v r).runCmd = s.runCmd ∧ (s.csrStore v r).dmem = s.dmem ∧
      SameInner s (s.csrStore v r) := by
  cases r with
  | id | param | ctrl | status | cmd | result | ctx => cases hr
  | _ =>
    rw [State.csrStore, lockedWrite_of_idle h]
    exact ⟨rfl, rfl, rfl, rfl, rfl, rfl, rfl, rfl⟩

end Machine

namespace Proofs

open Machine Claims Safety

/-- Settles O52: the word is a concatenation, and its value the weighted sum of the parts. -/
theorem statusWordHasTheSpecLayout : Obligations.StatusWordHasTheSpecLayout := by
  refine ⟨Status.word_toNat, rfl, rfl, rfl, rfl, rfl, rfl, rfl, rfl, rfl, rfl, rfl, rfl, rfl, rfl, rfl, fun c => ?_,
    fun c => ?_⟩
  · cases c <;> decide
  · cases c <;> decide

/-- Settles O54: a read-only register stores nothing, and the window has no register at a reserved offset. -/
theorem ignoredCsrWritesChangeNothing : Obligations.IgnoredCsrWritesChangeNothing := by
  refine fun s v hrst => ⟨fun r hr => ?_, fun off halign hres => ?_, fun off n hillegal => ?_⟩
  · rw [← csrOffset_eq_specOffset, step_writeAt_csrOffset hrst, csrStore_of_readOnly _ v hr]
    rfl
  · exact congrArg Host.Outcome.next (hostCsrWrite_of_reserved (s := { s with events := [] }) hrst halign
      (csrAt_of_reserved halign hres))
  · exact congrArg Host.Outcome.next (hostCsrWrite_of_illegal (s := { s with events := [] }) hrst hillegal)

/-- Settles O56: each operand register is one field of the state, written under the lock. -/
theorem operandRegistersLockWhileBusy : Obligations.OperandRegistersLockWhileBusy := by
  refine fun s v hrst => ⟨fun r hr hbusy => ?_, fun r hr hidle => ?_, step_writeAt_csrOffset hrst .ctrl v⟩
  · rw [← csrOffset_eq_specOffset, step_writeAt_csrOffset hrst, csrStore_of_busy (s := { s with events := [] }) v hr hbusy]
    rfl
  · rw [← csrOffset_eq_specOffset]
    exact ⟨_, step_writeAt_csrOffset hrst r v, csrValue_csrStore_same (s := { s with events := [] }) v hr hidle,
      fun q hq => csrValue_csrStore_other (s := { s with events := [] }) v hr hidle hq,
      csrStore_frame (s := { s with events := [] }) v hr hidle⟩

/-- Settles O53: the map of the window, the words, and where the window stands on the bus. -/
theorem csrReadsFollowTheMap : Obligations.CsrReadsFollowTheMap := by
  refine ⟨fun s off n hrst => ⟨fun hn halign hres => ?reserved, fun hillegal => ?illegal⟩, fun s r hrst => ?read,
    csrOffset_eq_specOffset, fun r q => specOffset_injective, fun s => ?words, fun s off n v hoff => ?window,
    fun s addr n v hcsr hmem => ?outside⟩
  case reserved =>
    subst hn
    exact congrArg Host.Outcome.next (hostCsrRead_of_reserved (s := { s with events := [] }) hrst halign
      (csrAt_of_reserved halign hres))
  case illegal => exact congrArg Host.Outcome.next (hostCsrRead_of_illegal (s := { s with events := [] }) hrst hillegal)
  case read =>
    rw [← csrOffset_eq_specOffset, ← csrValue_withEvents s [] s.rst]
    exact congrArg Host.Outcome.next (hostCsrRead_csrOffset (s := { s with events := [] }) hrst r)
  case words =>
    exact ⟨rfl, paramWord_toNat s.build, csrValue_ctrl_toNat s, rfl, rfl, csrValue_result_toNat s, csrValue_ctx_toNat s,
      rfl, rfl, rfl, rfl, rfl, rfl, Dim.word_toNat s.dimA, Dim.word_toNat s.dimB,
      fun w b hb => csrValue_erase_getLsbD s w hb, csrValue_shardBase_toNat s⟩
  case window =>
    exact ⟨step_bus_of_target (busWindow_csr s.build hoff (.csrRead · n) (.memRead · n)),
      step_bus_of_target (busWindow_csr s.build hoff (.csrWrite · n v) (.memWrite · n v))⟩
  case outside =>
    exact ⟨step_bus_of_outside (busWindow_outside hcsr hmem (.csrRead · n) (.memRead · n)),
      step_bus_of_outside (busWindow_outside hcsr hmem (.csrWrite · n v) (.memWrite · n v))⟩

end Proofs
end Sys2Proof
end

section
/-! The host's data-memory port (20_memory.md R52, R53, R59, R60): which accesses are performed, and which are HostRace. -/
namespace Sys2Proof
namespace Machine

open Claims Safety

/-! ## Accesses without a race -/

theorem memAccessLegal_of_legalAccess {s : State} {a n : Nat} (h : LegalAccess s a n) : memAccessLegal s a n = true :=
  memAccessLegal_iff.2 h

/-- A legal read that touches no footprint returns the bytes in little-endian order (R52). -/
theorem readPerformed_of_clear {s : State} {a n : Nat} (hl : LegalAccess s a n)
    (hr : ({ s with events := [] } : State).races a n = false) : ReadPerformed s a n := by
  have hn : n ≤ 4 := by rcases hl with ⟨rfl | rfl | rfl, -⟩ <;> omega
  refine ⟨_, hostMemRead_of_clear (s := { s with events := [] }) (memAccessLegal_of_legalAccess hl) hr,
    State.hostWord_lt _ a n, fun i hi => ?_⟩
  rw [ofNat_div_eq_extract, State.hostWord_byte _ a n i hn hi]
  rfl

/-- A legal write that touches the footprint neither before it nor after it stores its bytes (R52). -/
theorem writePerformed_of_clear {s : State} {a n : Nat} {v : Word} (hl : LegalAccess s a n)
    (hr : ({ s with events := [] } : State).races a n = false) (hw : (afterHostWrite s a n v).races a n = false) :
    WritePerformed s a n v :=
  ⟨_, hostMemWrite_of_clear (s := { s with events := [] }) (memAccessLegal_of_legalAccess hl) hr hw,
    fun i hi => by rw [ofNat_div_eq_extract]; exact Memory.byte?_hostCells s.dmem v hi,
    fun _ hx => Memory.byte?_hostCells_other s.dmem v hx⟩

/-! ## When an access races -/

/-- While no legal command runs there is no footprint (R59). -/
theorem races_of_no_command {s : State} {a n : Nat} (h : s.status.busy = false ∨ s.running = none) :
    s.races a n = false := by
  refine Bool.eq_false_iff.2 fun hr => ?_
  obtain ⟨i, hrun, hbusy, -⟩ := State.races_iff.1 hr
  rcases h with hidle | hnone
  · exact absurd (hidle.symm.trans hbusy) (by decide)
  · exact absurd (hnone.symm.trans hrun) nofun

/-- A running command has its regions as its footprint unless it would report an error (R59). -/
theorem races_iff_touches {s : State} {i : Instr} {a n : Nat} (hbusy : s.status.busy = true)
    (hrun : s.running = some i) : s.races a n = true ↔ ¬ReportsError i s ∧ TouchesRegions s i a n := by
  have hpass : passesChecks s i = true ↔ ¬ReportsError i s := by
    rw [ReportsError, ← passesChecks_eq_false, Bool.not_eq_false]
  rw [State.races_iff, ← hpass]
  constructor
  · rintro ⟨j, hj, -, hp, ht⟩
    obtain rfl := Option.some.inj (hj.symm.trans hrun)
    exact ⟨hp, ht⟩
  · rintro ⟨hp, ht⟩
    exact ⟨i, hrun, hbusy, hp, ht⟩

theorem races_eq_false_iff {s : State} {i : Instr} {a n : Nat} (hbusy : s.status.busy = true)
    (hrun : s.running = some i) : s.races a n = false ↔ (¬ReportsError i s → ¬TouchesRegions s i a n) := by
  rw [← Bool.not_eq_true, races_iff_touches hbusy hrun, not_and]

/-- The regions of a command are given by the registers, so a host write to DMEM does not move them. -/
theorem touchesRegions_afterHostWrite {s : State} {i : Instr} {a n b k : Nat} {v : Word} :
    TouchesRegions (afterHostWrite s b k v) i a n ↔ TouchesRegions s i a n := by
  cases i <;> exact Iff.rfl

theorem step_memRead_of_race {s : State} {a n : Nat} (hl : LegalAccess s a n)
    (hr : ({ s with events := [] } : State).races a n = true) :
    step (scheduled s (.host (.memRead a n))) = .fault .hostRace :=
  hostMemRead_of_race (s := { s with events := [] }) (memAccessLegal_of_legalAccess hl) hr

theorem step_memWrite_of_race {s : State} {a n : Nat} {v : Word} (hl : LegalAccess s a n)
    (hr : ({ s with events := [] } : State).races a n = true ∨ (afterHostWrite s a n v).races a n = true) :
    step (scheduled s (.host (.memWrite a n v))) = .fault .hostRace :=
  hostMemWrite_of_race (s := { s with events := [] }) (memAccessLegal_of_legalAccess hl) hr

end Machine

namespace Proofs

open Machine Claims Safety

/-- Settles O59: the port checks width, alignment and range before anything else. -/
theorem illegalMemoryAccessIsBusError : Obligations.IllegalMemoryAccessIsBusError := by
  intro s a n v hillegal
  have hbus : memAccessLegal { s with events := [] } a n = false :=
    Bool.eq_false_iff.2 (mt memAccessLegal_iff.1 hillegal)
  constructor
  · change hostMemRead a n { s with events := [] } = _
    rw [hostMemRead, hbus]
    rfl
  · change hostMemWrite a n v { s with events := [] } = _
    rw [hostMemWrite, hbus]
    rfl

/-- Settles O58: without a running command there is no footprint to race with. -/
theorem hostMemoryIsLittleEndian : Obligations.HostMemoryIsLittleEndian := by
  refine ⟨fun s a n v hidle hl => ?_, fun s a n v ha hcsr => ?_⟩
  · exact ⟨writePerformed_of_clear hl (races_of_no_command hidle) (races_of_no_command hidle),
      readPerformed_of_clear hl (races_of_no_command hidle)⟩
  · exact ⟨step_bus_of_target (busWindow_mem s.build ha hcsr (.csrRead · n) (.memRead · n)),
      step_bus_of_target (busWindow_mem s.build ha hcsr (.csrWrite · n v) (.memWrite · n v))⟩

/-- Settles O60: the footprint is the command's regions, before and after the write, unless an error empties it. -/
theorem hostAccessToFootprintIsRace : Obligations.HostAccessToFootprintIsRace := by
  intro s i a n v hbusy hrun hl
  have hbefore := races_eq_false_iff (s := { s with events := [] }) (a := a) (n := n) hbusy hrun
  have hafter := races_eq_false_iff (s := afterHostWrite s a n v) (a := a) (n := n) hbusy hrun
  rw [touchesRegions_afterHostWrite] at hafter
  refine ⟨fun hfree => ?apart, fun hpass htouch => ?race, fun herr => ⟨?_, fun herr' => ?_, fun hpass htouch => ?_⟩⟩
  case apart =>
    have hclear := hbefore.2 fun _ => hfree
    exact ⟨readPerformed_of_clear hl hclear, writePerformed_of_clear hl hclear (hafter.2 fun _ => hfree)⟩
  case race =>
    have hraces := (races_iff_touches (s := { s with events := [] }) hbusy hrun).2 ⟨hpass, htouch⟩
    exact ⟨step_memRead_of_race hl hraces, step_memWrite_of_race hl (.inl hraces)⟩
  · exact readPerformed_of_clear hl (hbefore.2 (absurd herr))
  · exact writePerformed_of_clear hl (hbefore.2 (absurd herr)) (hafter.2 (absurd herr'))
  · exact step_memWrite_of_race hl (.inr ((races_iff_touches (s := afterHostWrite s a n v) hbusy hrun).2
      ⟨hpass, touchesRegions_afterHostWrite.2 htouch⟩))

end Proofs
end Sys2Proof
end

section
/-! The assembler (30_encoding.md R77) and the example words of R79. -/
namespace Sys2Proof
namespace Machine

open Claims

/-- A command's form has the operands its mnemonic takes, each of them a byte. -/
theorem wellFormed_asm (i : Instr) : (asm i).wellFormed = true := by
  have hcount : operandCount (asm i).mnemonic = some (asm i).operands.length := by cases i <;> rfl
  have hbyte (a : Byte) : a.toNat < 256 := a.isLt
  have hbytes : ∀ x ∈ (asm i).operands, x < 256 := by cases i <;> simp [asm, hbyte]
  simp only [AsmCommand.wellFormed, hcount, beq_self_eq_true, Bool.true_and, List.all_eq_true, decide_eq_true_eq]
  exact hbytes

theorem instrNamed_asm (i : Instr) :
    instrNamed (asm i).mnemonic ((asm i).operands.map (BitVec.ofNat 8)) = some i := by
  cases i <;> simp [asm, instrNamed]

/-- The name and the operand bytes of a command are its assembler form. -/
theorem asm_of_instrNamed {m : String} {ops : List Byte} {i : Instr} (h : instrNamed m ops = some i) :
    asm i = ⟨m, ops.map BitVec.toNat⟩ := by
  match ops with
  | [] =>
    simp only [instrNamed] at h
    split_ifs at h with hm hm hm hm hm <;> cases h <;> rw [hm] <;> rfl
  | [a] =>
    simp only [instrNamed] at h
    split_ifs at h with hm hm hm <;> cases h <;> rw [hm] <;> rfl
  | [a, b] =>
    simp only [instrNamed] at h
    split_ifs at h with hm hm hm hm hm hm <;> cases h <;> rw [hm] <;> rfl
  | _ :: _ :: _ :: _ => cases h

theorem map_toNat_ofNat {xs : List Nat} (h : ∀ x ∈ xs, x < 256) : (xs.map (BitVec.ofNat 8)).map BitVec.toNat = xs := by
  rw [List.map_map]
  exact (List.map_congr_left fun x hx => Nat.mod_eq_of_lt (h x hx)).trans (List.map_id xs)

end Machine

namespace Proofs

open Machine Claims

/-- Settles O14: a command's form is well formed and names it, and a well-formed form that names a command is its form. -/
theorem assemblerAcceptsExactlyTheCommands : Obligations.AssemblerAcceptsExactlyTheCommands := by
  refine ⟨fun i => ?_, fun c w h => ?_⟩
  · rw [assemble, if_pos (wellFormed_asm i), instrNamed_asm, Option.map_some]
  · rw [assemble] at h
    split_ifs at h with hwf
    obtain ⟨i, hi, rfl⟩ := Option.map_eq_some_iff.1 h
    have hbytes : ∀ x ∈ c.operands, x < 256 := by
      simp only [AsmCommand.wellFormed, Bool.and_eq_true, List.all_eq_true, decide_eq_true_eq] at hwf
      exact hwf.2
    exact ⟨i, by rw [asm_of_instrNamed hi, map_toNat_ofNat hbytes], rfl⟩

/-- Settles O12: fifteen words, each decoded. -/
theorem exampleWordsDecode : Obligations.ExampleWordsDecode := by
  unfold Obligations.ExampleWordsDecode
  decide

end Proofs
end Sys2Proof
end
